-- ==== Sys2Proof/Word.lean ====
section
/-! DEFINITION. The words of the block: bytes, 64-bit words, and the ID set as a membership vector (R36). -/

namespace Sys2Proof

/-- One byte of a segment buffer (R80). -/
abbrev Byte := BitVec 8

/-- A command word (R110). -/
abbrev Word64 := BitVec 64

/-- How many IDs exist: IDs are 16 bits wide (R11). A `def`, so that no tactic unfolds the literal. -/
def idSpace : Nat := 65536

/-- `IDSET(n)`: a vector of `n` bits; bit `i` says whether `i` is a member (R36). -/
structure IdSet (n : Nat) where
  bits : BitVec n
  deriving DecidableEq, Repr

/-- `IDSET(65536)`: any set of 16-bit IDs (R36). -/
abbrev IdSet16 := IdSet idSpace

/-- `IDSET(64)`: the sets of the short bitmaps (R36). -/
abbrev IdSet64 := IdSet 64

/-- Membership: `i` is in the set exactly when bit `i` of the vector is 1 (R36). -/
def IdSet.mem {n : Nat} (S : IdSet n) (i : Nat) : Bool := S.bits.getLsbD i

/-- The empty set (R10). -/
def IdSet.empty {n : Nat} : IdSet n := ⟨0#n⟩

/-- What a host read of a register returns (R36, R52): a number, the ascending member list of a set,
or an entry of the restriction table. -/
inductive HostValue where
  | number (v : Nat)
  | members (l : List Nat)
  | restriction (purposeId rtype : Nat) (vendors : List Nat)
  deriving DecidableEq, Repr, Inhabited

end Sys2Proof
end

