-- ==== Sys2Proof/Syntax.lean ====
section
/-! DEFINITION. The rows of the opcode table: thirteen commands (R112) and twenty-three wire patterns
(R131 to R147), one constructor each. -/

namespace Sys2Proof

inductive Instr where
  /-- CLR: format Z (R113, R306). -/
  | clr
  /-- REQB: format B (R114, R177). -/
  | reqb (seg : BitVec 8) (bitCount : BitVec 32)
  /-- RDB: format R (R115, R178). -/
  | rdb (seg : BitVec 8) (start : BitVec 32) (len : BitVec 16)
  /-- RDF: format F (R116, R192). -/
  | rdf (seg : BitVec 8) (start : BitVec 32) (len : BitVec 7) (ty : BitVec 2)
  /-- RDA: format A (R117, R196). -/
  | rda (seg : BitVec 8) (start : BitVec 32) (cnt : BitVec 8) (w : BitVec 8)
  /-- RDFS: format R (R115, R208). -/
  | rdfs (seg : BitVec 8) (start : BitVec 32) (len : BitVec 16)
  /-- RDRS: format S (R118, R225). -/
  | rdrs (seg : BitVec 8) (start : BitVec 32)
  /-- RDVS: format S (R118, R226). -/
  | rdvs (seg : BitVec 8) (start : BitVec 32)
  /-- RDPR: format S (R118, R278). -/
  | rdpr (seg : BitVec 8) (start : BitVec 32)
  /-- RDSEG: format G (R119, R245). -/
  | rdseg (seg : BitVec 8)
  /-- DECV1: format Z (R113, R261). -/
  | decv1
  /-- DECV2: format Z (R113, R281). -/
  | decv2
  /-- DEC: format Z (R113, R308). -/
  | dec
  /-- WIRE-VERSION-V1: `000001` (R131). -/
  | wireVersionV1
  /-- WIRE-VERSION-V2: `000010` (R131). -/
  | wireVersionV2
  /-- WIRE-RANGESET-SINGLE: `0` then a 16-bit ID (R138). -/
  | wireRangesetSingle (id : BitVec 16)
  /-- WIRE-RANGESET-RANGE: `1` then 16-bit `lo` and `hi` (R139). -/
  | wireRangesetRange (lo hi : BitVec 16)
  /-- WIRE-RANGESET-COUNT: the 12-bit entry count (R137). -/
  | wireRangesetCount (n : BitVec 12)
  /-- WIRE-VENDORSEC-BITMAP: `max_id`, then selector 0 (R140). -/
  | wireVendorsecBitmap (maxId : BitVec 16)
  /-- WIRE-VENDORSEC-RANGE: `max_id`, then selector 1 (R140). -/
  | wireVendorsecRange (maxId : BitVec 16)
  /-- WIRE-V1-VENDORS-BITMAP: `max_vendor_id`, then selector 0 (R133). -/
  | wireV1VendorsBitmap (maxId : BitVec 16)
  /-- WIRE-V1-VENDORS-RANGE: `max_vendor_id`, selector 1, `is_blocklist` (R133). -/
  | wireV1VendorsRange (maxId : BitVec 16) (blocklist : BitVec 1)
  /-- WIRE-PUBRESTR-ENTRY: `purpose_id` and `restriction_type` (R142). -/
  | wirePubrestrEntry (purposeId : BitVec 6) (rtype : BitVec 2)
  /-- WIRE-RTYPE-NOTALLOWED: `00` (R143). -/
  | wireRtypeNotallowed
  /-- WIRE-RTYPE-REQUIRECONSENT: `01` (R143). -/
  | wireRtypeRequireconsent
  /-- WIRE-RTYPE-REQUIRELI: `10` (R143). -/
  | wireRtypeRequireli
  /-- WIRE-RTYPE-UNDEFINED: `11` (R143). -/
  | wireRtypeUndefined
  /-- WIRE-SEGTAG-DISCLOSED: `001` (R144, R145). -/
  | wireSegtagDisclosed
  /-- WIRE-SEGTAG-ALLOWED: `010` (R144, R145). -/
  | wireSegtagAllowed
  /-- WIRE-SEGTAG-PUBLISHERTC: `011` (R144, R146). -/
  | wireSegtagPublishertc
  /-- WIRE-SEGTAG-INVALID-000 (R144). -/
  | wireSegtagInvalid000
  /-- WIRE-SEGTAG-INVALID-100 (R144). -/
  | wireSegtagInvalid100
  /-- WIRE-SEGTAG-INVALID-101 (R144). -/
  | wireSegtagInvalid101
  /-- WIRE-SEGTAG-INVALID-110 (R144). -/
  | wireSegtagInvalid110
  /-- WIRE-SEGTAG-INVALID-111 (R144). -/
  | wireSegtagInvalid111
  /-- WIRE-LETTER: one 6-bit character (R147). -/
  | wireLetter (v : BitVec 6)
  deriving DecidableEq, Repr

end Sys2Proof
end

