-- ==== Sys2Proof/WellFormed.lean ====
section
/-! DEFINITION. The operand limits that the encodings themselves do not express (R120 item 3, R147). -/

namespace Sys2Proof

/-- The static limits of R120 item 3, and of a letter pattern (R147). A command that breaks one still
decodes (the table's mask admits it) and is rejected when it is issued; log entry 14. -/
def Instr.wellFormed : Instr → Bool
  | .rdb _ _ len => decide (len.toNat ≤ 64)
  | .rdf _ _ len ty => decide (len.toNat ≤ 64) && decide (len.toNat ≤ 8 * 2 ^ ty.toNat)
  | .rda _ _ cnt w => decide (cnt.toNat ≤ 8) && decide (1 ≤ w.toNat) && decide (w.toNat ≤ 64)
  | .wireLetter v => decide (v.toNat ≤ 25)
  | .clr | .reqb _ _ | .rdfs _ _ _ | .rdrs _ _ | .rdvs _ _ | .rdpr _ _ | .rdseg _
  | .decv1 | .decv2 | .dec => true
  | .wireVersionV1 | .wireVersionV2 | .wireRangesetSingle _ | .wireRangesetRange _ _
  | .wireRangesetCount _ | .wireVendorsecBitmap _ | .wireVendorsecRange _
  | .wireV1VendorsBitmap _ | .wireV1VendorsRange _ _ | .wirePubrestrEntry _ _
  | .wireRtypeNotallowed | .wireRtypeRequireconsent | .wireRtypeRequireli | .wireRtypeUndefined
  | .wireSegtagDisclosed | .wireSegtagAllowed | .wireSegtagPublishertc
  | .wireSegtagInvalid000 | .wireSegtagInvalid100 | .wireSegtagInvalid101
  | .wireSegtagInvalid110 | .wireSegtagInvalid111 => true

end Sys2Proof
end

