-- ==== Sys2Proof/Decode.lean ====
section
/-! DEFINITION. The decoder of command words (R110 to R122) and of wire patterns (R131 to R147), and the
encoder, each written from the tables of the spec. -/

namespace Sys2Proof

/-- Why a bit pattern is no row of the opcode table. -/
inductive Illegal where
  /-- R121, R120 item 1: the operation code is none of the thirteen. -/
  | reservedOp (op : BitVec 8)
  /-- R120 item 2: a must-be-zero field is not zero. -/
  | nonZeroField (op : BitVec 8)
  /-- Fewer bits than the pattern has. -/
  | truncated
  /-- R131: a version field other than 1 and 2. -/
  | unknownVersion (v : BitVec 6)
  deriving DecidableEq, Repr

/-- Where in the data a pattern stands: the wire format is read in context (R148), so one bit string
can be several rows of the table. -/
inductive Kind where
  | command
  | version
  | rangesetEntry
  | rangesetCount
  | vendorSection
  | v1Vendors
  | pubrestrEntry
  | rtype
  | segtag
  | letter
  deriving DecidableEq, Repr

/-! ## Command words -/

/-- `op`, bits 63:56 (R111). -/
def fieldOp (w : Word64) : BitVec 8 := w.extractLsb' 56 8

/-- `seg`, bits 55:48 (R111). -/
def fieldSeg (w : Word64) : BitVec 8 := w.extractLsb' 48 8

/-- `aux`, bits 47:32 (R111). -/
def fieldAux (w : Word64) : BitVec 16 := w.extractLsb' 32 16

/-- `start`, bits 31:0 (R111). -/
def fieldStart (w : Word64) : BitVec 32 := w.extractLsb' 0 32

/-- Accept `i` when the format's must-be-zero test holds (R120 item 2). -/
def zeroChecked (w : Word64) (mustBeZero : Bool) (i : Instr) : Except Illegal Instr :=
  if mustBeZero then .ok i else .error (.nonZeroField (fieldOp w))

/-- Format Z (R113). -/
def decodeZ (w : Word64) (i : Instr) : Except Illegal Instr :=
  zeroChecked w (fieldSeg w == 0 && fieldAux w == 0 && fieldStart w == 0) i

/-- Formats B and S (R114, R118): `aux` must be zero. -/
def decodeAuxZero (w : Word64) (i : Instr) : Except Illegal Instr :=
  zeroChecked w (fieldAux w == 0) i

/-- Format F (R116): `aux` is `000000tt 0lllllll`. -/
def decodeF (w : Word64) : Except Illegal Instr :=
  zeroChecked w ((fieldAux w).extractLsb' 10 6 == 0 && (fieldAux w).extractLsb' 7 1 == 0)
    (.rdf (fieldSeg w) (fieldStart w) ((fieldAux w).extractLsb' 0 7) ((fieldAux w).extractLsb' 8 2))

/-- Format A (R117): `aux` is `cccccccc wwwwwwww`. -/
def decodeA (w : Word64) : Instr :=
  .rda (fieldSeg w) (fieldStart w) ((fieldAux w).extractLsb' 8 8) ((fieldAux w).extractLsb' 0 8)

/-- Format G (R119): `aux` and `start` must be zero. -/
def decodeG (w : Word64) (i : Instr) : Except Illegal Instr :=
  zeroChecked w (fieldAux w == 0 && fieldStart w == 0) i

/-- The decoder of command words, total on every 64-bit value (R122). -/
def decodeWord (w : Word64) : Except Illegal Instr :=
  match fieldOp w with
  | 0x01#8 => decodeZ w .clr
  | 0x10#8 => decodeAuxZero w (.reqb (fieldSeg w) (fieldStart w))
  | 0x11#8 => .ok (.rdb (fieldSeg w) (fieldStart w) (fieldAux w))
  | 0x12#8 => decodeF w
  | 0x13#8 => .ok (decodeA w)
  | 0x14#8 => .ok (.rdfs (fieldSeg w) (fieldStart w) (fieldAux w))
  | 0x15#8 => decodeAuxZero w (.rdrs (fieldSeg w) (fieldStart w))
  | 0x16#8 => decodeAuxZero w (.rdvs (fieldSeg w) (fieldStart w))
  | 0x17#8 => decodeAuxZero w (.rdpr (fieldSeg w) (fieldStart w))
  | 0x18#8 => decodeG w (.rdseg (fieldSeg w))
  | 0x20#8 => decodeZ w .decv1
  | 0x21#8 => decodeZ w .decv2
  | 0x22#8 => decodeZ w .dec
  | op => .error (.reservedOp op)

/-- `decodeTableWord nbits w`: a table word of 64 bits is a command word. A shorter one is a wire
pattern, which only its place in the data names (R148); as a bare word it decodes to nothing (log
entry 15). -/
def decodeTableWord (nbits w : Nat) : Option Instr :=
  if nbits = 64 then (decodeWord (BitVec.ofNat 64 w)).toOption else none

/-! ## Wire patterns: bit strings, first wire bit first (R82, R83) -/

/-- The first `n` bits of a bit string as a field, first bit most significant (R83), and the rest. -/
def takeField : (n : Nat) → List Bool → Option (BitVec n × List Bool)
  | 0, bits => some (0#0, bits)
  | _ + 1, [] => none
  | n + 1, b :: bits => (takeField n bits).map fun (v, rest) => (v.cons b, rest)

/-- The bits of a field, most significant first (R83). -/
def fieldBits : {n : Nat} → BitVec n → List Bool
  | 0, _ => []
  | n + 1, x => x.msb :: fieldBits (x.setWidth n)

/-- Read a field of a pattern and go on with the rest. -/
def withField {α : Type} (n : Nat) (bits : List Bool)
    (go : BitVec n → List Bool → Except Illegal α) : Except Illegal α :=
  match takeField n bits with
  | none => .error .truncated
  | some (v, rest) => go v rest

/-- The version field (R131). -/
def decodeVersion (v : BitVec 6) : Except Illegal Instr :=
  match v with
  | 0b000001#6 => .ok .wireVersionV1
  | 0b000010#6 => .ok .wireVersionV2
  | v => .error (.unknownVersion v)

/-- The 2-bit restriction-type code (R143). -/
def decodeRtype (t : BitVec 2) : Instr :=
  match t with
  | 0b00#2 => .wireRtypeNotallowed
  | 0b01#2 => .wireRtypeRequireconsent
  | 0b10#2 => .wireRtypeRequireli
  | _ => .wireRtypeUndefined

/-- The 3-bit tag of an optional segment (R144). -/
def decodeSegtag (t : BitVec 3) : Instr :=
  match t with
  | 0b000#3 => .wireSegtagInvalid000
  | 0b001#3 => .wireSegtagDisclosed
  | 0b010#3 => .wireSegtagAllowed
  | 0b011#3 => .wireSegtagPublishertc
  | 0b100#3 => .wireSegtagInvalid100
  | 0b101#3 => .wireSegtagInvalid101
  | 0b110#3 => .wireSegtagInvalid110
  | _ => .wireSegtagInvalid111

/-- The decoder of every row, given where the pattern stands; total on any bits. It answers the row's
instruction and the bits after the pattern. -/
def decode (kind : Kind) (bits : List Bool) : Except Illegal (Instr × List Bool) :=
  match kind with
  | .command => withField 64 bits fun w rest => (decodeWord w).map fun i => (i, rest)
  | .version => withField 6 bits fun v rest => (decodeVersion v).map fun i => (i, rest)
  | .rangesetEntry => withField 1 bits fun d rest =>
      if d = 0#1 then withField 16 rest fun id rest => .ok (.wireRangesetSingle id, rest)
      else withField 16 rest fun lo rest => withField 16 rest fun hi rest =>
        .ok (.wireRangesetRange lo hi, rest)
  | .rangesetCount => withField 12 bits fun n rest => .ok (.wireRangesetCount n, rest)
  | .vendorSection => withField 16 bits fun m rest => withField 1 rest fun sel rest =>
      if sel = 0#1 then .ok (.wireVendorsecBitmap m, rest) else .ok (.wireVendorsecRange m, rest)
  | .v1Vendors => withField 16 bits fun m rest => withField 1 rest fun sel rest =>
      if sel = 0#1 then .ok (.wireV1VendorsBitmap m, rest)
      else withField 1 rest fun b rest => .ok (.wireV1VendorsRange m b, rest)
  | .pubrestrEntry => withField 6 bits fun p rest => withField 2 rest fun t rest =>
      .ok (.wirePubrestrEntry p t, rest)
  | .rtype => withField 2 bits fun t rest => .ok (decodeRtype t, rest)
  | .segtag => withField 3 bits fun t rest => .ok (decodeSegtag t, rest)
  | .letter => withField 6 bits fun v rest => .ok (.wireLetter v, rest)

/-! ## The encoder -/

/-- A command word from its four fields (R111). -/
def commandWord (op seg : BitVec 8) (aux : BitVec 16) (start : BitVec 32) : Word64 :=
  op ++ seg ++ aux ++ start

/-- Where a row's pattern stands. -/
def Instr.kind : Instr → Kind
  | .clr | .reqb _ _ | .rdb _ _ _ | .rdf _ _ _ _ | .rda _ _ _ _ | .rdfs _ _ _ | .rdrs _ _
  | .rdvs _ _ | .rdpr _ _ | .rdseg _ | .decv1 | .decv2 | .dec => .command
  | .wireVersionV1 | .wireVersionV2 => .version
  | .wireRangesetSingle _ | .wireRangesetRange _ _ => .rangesetEntry
  | .wireRangesetCount _ => .rangesetCount
  | .wireVendorsecBitmap _ | .wireVendorsecRange _ => .vendorSection
  | .wireV1VendorsBitmap _ | .wireV1VendorsRange _ _ => .v1Vendors
  | .wirePubrestrEntry _ _ => .pubrestrEntry
  | .wireRtypeNotallowed | .wireRtypeRequireconsent | .wireRtypeRequireli
  | .wireRtypeUndefined => .rtype
  | .wireSegtagDisclosed | .wireSegtagAllowed | .wireSegtagPublishertc
  | .wireSegtagInvalid000 | .wireSegtagInvalid100 | .wireSegtagInvalid101
  | .wireSegtagInvalid110 | .wireSegtagInvalid111 => .segtag
  | .wireLetter _ => .letter

/-- The command word of a command (R112, R123); a wire pattern has none. -/
def encodeWord : Instr → Option Word64
  | .clr => some (commandWord 0x01 0 0 0)
  | .reqb seg n => some (commandWord 0x10 seg 0 n)
  | .rdb seg start len => some (commandWord 0x11 seg len start)
  | .rdf seg start len ty => some (commandWord 0x12 seg (0#6 ++ ty ++ 0#1 ++ len) start)
  | .rda seg start cnt w => some (commandWord 0x13 seg (cnt ++ w) start)
  | .rdfs seg start len => some (commandWord 0x14 seg len start)
  | .rdrs seg start => some (commandWord 0x15 seg 0 start)
  | .rdvs seg start => some (commandWord 0x16 seg 0 start)
  | .rdpr seg start => some (commandWord 0x17 seg 0 start)
  | .rdseg seg => some (commandWord 0x18 seg 0 0)
  | .decv1 => some (commandWord 0x20 0 0 0)
  | .decv2 => some (commandWord 0x21 0 0 0)
  | .dec => some (commandWord 0x22 0 0 0)
  | .wireVersionV1 | .wireVersionV2 | .wireRangesetSingle _ | .wireRangesetRange _ _
  | .wireRangesetCount _ | .wireVendorsecBitmap _ | .wireVendorsecRange _
  | .wireV1VendorsBitmap _ | .wireV1VendorsRange _ _ | .wirePubrestrEntry _ _
  | .wireRtypeNotallowed | .wireRtypeRequireconsent | .wireRtypeRequireli | .wireRtypeUndefined
  | .wireSegtagDisclosed | .wireSegtagAllowed | .wireSegtagPublishertc
  | .wireSegtagInvalid000 | .wireSegtagInvalid100 | .wireSegtagInvalid101
  | .wireSegtagInvalid110 | .wireSegtagInvalid111 | .wireLetter _ => none

/-- The bits of a wire pattern, first wire bit first (R131 to R147); a command has none. -/
def encodeWire : Instr → List Bool
  | .clr | .reqb _ _ | .rdb _ _ _ | .rdf _ _ _ _ | .rda _ _ _ _ | .rdfs _ _ _ | .rdrs _ _
  | .rdvs _ _ | .rdpr _ _ | .rdseg _ | .decv1 | .decv2 | .dec => []
  | .wireVersionV1 => fieldBits 0b000001#6
  | .wireVersionV2 => fieldBits 0b000010#6
  | .wireRangesetSingle id => false :: fieldBits id
  | .wireRangesetRange lo hi => true :: (fieldBits lo ++ fieldBits hi)
  | .wireRangesetCount n => fieldBits n
  | .wireVendorsecBitmap m => fieldBits m ++ [false]
  | .wireVendorsecRange m => fieldBits m ++ [true]
  | .wireV1VendorsBitmap m => fieldBits m ++ [false]
  | .wireV1VendorsRange m b => fieldBits m ++ true :: fieldBits b
  | .wirePubrestrEntry p t => fieldBits p ++ fieldBits t
  | .wireRtypeNotallowed => fieldBits 0b00#2
  | .wireRtypeRequireconsent => fieldBits 0b01#2
  | .wireRtypeRequireli => fieldBits 0b10#2
  | .wireRtypeUndefined => fieldBits 0b11#2
  | .wireSegtagDisclosed => fieldBits 0b001#3
  | .wireSegtagAllowed => fieldBits 0b010#3
  | .wireSegtagPublishertc => fieldBits 0b011#3
  | .wireSegtagInvalid000 => fieldBits 0b000#3
  | .wireSegtagInvalid100 => fieldBits 0b100#3
  | .wireSegtagInvalid101 => fieldBits 0b101#3
  | .wireSegtagInvalid110 => fieldBits 0b110#3
  | .wireSegtagInvalid111 => fieldBits 0b111#3
  | .wireLetter v => fieldBits v

/-- The encoder: the bits of a row, leftmost bit of the table's `encoding` column first. -/
def encode (i : Instr) : List Bool :=
  match encodeWord i with
  | some w => fieldBits w
  | none => encodeWire i

end Sys2Proof
end

