-- ==== Sys2Proof/Config.lean ====
section
/-! DEFINITION. The parameters of the block (R6) and the free values of the model. -/

namespace Sys2Proof.Config

/-- The instance's choice of `MAX_SEGS`, 0 to 255 below the largest value. No body: log entry 1. -/
opaque maxSegsBelow256 : BitVec 8

/-- `MAX_SEGS`, open in 1 to 256 (R6). -/
def maxSegs : Nat := 256 - maxSegsBelow256.toNat

/-- The instance's choice of `MAX_SEG_BYTES`, below the largest value. No body: log entry 2. -/
opaque maxSegBytesBelow : BitVec 29

/-- `MAX_SEG_BYTES`, open in 1 to 2^29 (R6). -/
def maxSegBytes : Nat := 536870912 - maxSegBytesBelow.toNat

/-- FREE VALUE: the byte that a buffer address holds which no host write has reached since the
`epoch`-th reset (R54: "unspecified (any value)"). Log entry 3. -/
opaque unwrittenByte : (epoch : Nat) → (address : Nat) → Byte

/-- FREE VALUE: what the `n`-th host read of a result register while `BUSY = 1` returns (R371).
Log entry 7. -/
opaque busyRead : (n : Nat) → HostValue

/-- `READ_MAX` (R6). -/
def readMax : Nat := 64

/-- `V1_HDR_BITS` (R6, R262). -/
def v1HdrBits : Nat := 173

/-- `V2_HDR_BITS` (R6, R282). -/
def v2HdrBits : Nat := 213

/-- `PR_PAD` (R6, R142, R277): 0 in this spec; the other reading is 1. Log entry 4. -/
def prPad : Nat := 0

end Sys2Proof.Config
end

