-- ==== Sys2Proof/Machine/State.lean ====
section
/-! DEFINITION. The state of one instance (R30), its reset values (R54), and the reasons a step can stop. -/

namespace Sys2Proof.Machine

/-! ## Errors -/

/-- The closed taxonomy of decode errors (R320, R321). The block raises codes 1, 2, 4 and 6 only
(R324, R326). -/
inductive DecodeError where
  | insufficientLength
  | unsupportedVersion
  | invalidUrlSafeBase64
  | invalidAlphabetOffset
  | invalidSectionDefinition
  | invalidSegmentDefinition
  | unexpectedRangeSection
  deriving DecidableEq, Repr

/-- How a body of pseudocode can stop short: `raise E` (R330), or an evaluation of `read_bits` outside
its precondition, which has no value (R174). -/
inductive Stop where
  | raised (e : DecodeError)
  | undefinedRead
  deriving DecidableEq, Repr

/-- A body of pseudocode that returns a value: the first `raise` ends it (R12). -/
abbrev Dec (α : Type) := Except Stop α

/-! ## Input state -/

/-- Buffer bytes, sparse: addresses strictly rising, no cell equal to what its address reads as unlisted. -/
abbrev Memory := List Host.Cell

/-- What a command reads (R30, R7): the buffers, their lengths, and how many are loaded. -/
structure Input where
  /-- `SEG` (R31): the byte `SEG[k][j]` is the cell at address `k * 2^29 + j` (log entry 20). -/
  mem : Memory := []
  /-- The MODEL's own: how many times the reset input has been pulsed; it keys the free bytes (log entry 3). -/
  epoch : Nat := 0
  /-- `SEGLEN[k]` (R32); an instance has the first `MAX_SEGS` of them. -/
  segLen : Vector (BitVec 30) 256 := Vector.replicate 256 0
  /-- `NSEG` (R33). -/
  nseg : BitVec 9 := 0
  deriving DecidableEq, Repr

/-! ## Result state: every default is the reset value of R54 -/

/-- The record file (R43 to R48). -/
structure Record where
  /-- `REC.KIND` (R43). -/
  kind : BitVec 2 := 0
  /-- `REC.CREATED_AT` (R44). -/
  createdAt : BitVec 64 := 0
  /-- `REC.UPDATED_AT` (R44). -/
  updatedAt : BitVec 64 := 0
  /-- `REC.CMP_ID` (R44). -/
  cmpId : BitVec 12 := 0
  /-- `REC.CMP_VERSION` (R44). -/
  cmpVersion : BitVec 12 := 0
  /-- `REC.CONSENT_SCREEN` (R44). -/
  consentScreen : BitVec 6 := 0
  /-- `REC.CONSENT_LANGUAGE[0..1]` (R44). -/
  consentLanguage : Vector Byte 2 := #v[0, 0]
  /-- `REC.VENDOR_LIST_VERSION` (R44). -/
  vendorListVersion : BitVec 12 := 0
  /-- `REC.PURPOSES_CONSENT` (R44). -/
  purposesConsent : IdSet64 := .empty
  /-- `REC.V1_IS_BLOCKLIST` (R45). -/
  v1IsBlocklist : BitVec 1 := 0
  /-- `REC.V1_VENDORS` (R45). -/
  v1Vendors : IdSet16 := .empty
  /-- `REC.TCF_POLICY_VERSION` (R46). -/
  tcfPolicyVersion : BitVec 6 := 0
  /-- `REC.IS_SERVICE_SPECIFIC` (R46). -/
  isServiceSpecific : BitVec 1 := 0
  /-- `REC.USE_NON_STANDARD_STACKS` (R46). -/
  useNonStandardStacks : BitVec 1 := 0
  /-- `REC.SPECIAL_FEATURE_OPT_INS` (R46). -/
  specialFeatureOptIns : IdSet64 := .empty
  /-- `REC.PURPOSES_LI_TRANSPARENCY` (R46). -/
  purposesLiTransparency : IdSet64 := .empty
  /-- `REC.PURPOSE_ONE_TREATMENT` (R46). -/
  purposeOneTreatment : BitVec 1 := 0
  /-- `REC.PUBLISHER_COUNTRY_CODE[0..1]` (R46). -/
  publisherCountryCode : Vector Byte 2 := #v[0, 0]
  /-- `REC.VENDOR_CONSENTS` (R47). -/
  vendorConsents : IdSet16 := .empty
  /-- `REC.VENDOR_LI_CONSENTS` (R47). -/
  vendorLiConsents : IdSet16 := .empty
  /-- `REC.DISCLOSED_VENDORS` (R48). -/
  disclosedVendors : IdSet16 := .empty
  /-- `REC.ALLOWED_VENDORS` (R48). -/
  allowedVendors : IdSet16 := .empty
  /-- `REC.PUBLISHER_PURPOSES_CONSENT` (R48). -/
  publisherPurposesConsent : IdSet64 := .empty
  /-- `REC.PUBLISHER_PURPOSES_LI_TRANSPARENCY` (R48). -/
  publisherPurposesLiTransparency : IdSet64 := .empty
  /-- `REC.CUSTOM_PURPOSES_CONSENT` (R48). -/
  customPurposesConsent : IdSet64 := .empty
  /-- `REC.CUSTOM_PURPOSES_LI_TRANSPARENCY` (R48). -/
  customPurposesLiTransparency : IdSet64 := .empty
  deriving DecidableEq, Repr

/-- An entry of the restriction table (R49). `RTYPE` is the wire code (R50): 0 NotAllowed,
1 RequireConsent, 2 RequireLegitimateInterest, 3 Undefined. -/
structure PrEntry where
  purposeId : BitVec 8 := 0
  rtype : BitVec 2 := 0
  vendors : IdSet16 := .empty
  deriving DecidableEq, Repr

/-- The result registers (R37 to R49), `STATUS` apart. -/
structure Results where
  /-- `VAL` (R37). -/
  val : BitVec 64 := 0
  /-- `VALTY` (R37). -/
  valty : BitVec 2 := 0
  /-- `STR[0..7]` (R38). -/
  str : Vector Byte 8 := #v[0, 0, 0, 0, 0, 0, 0, 0]
  /-- `STRLEN` (R38). -/
  strlen : BitVec 4 := 0
  /-- `SETR` (R39). -/
  setr : IdSet16 := .empty
  /-- `CUR` (R40). -/
  cur : BitVec 40 := 0
  /-- `MAXID` (R41). -/
  maxid : BitVec 16 := 0
  /-- `SEL` (R41). -/
  sel : BitVec 1 := 0
  /-- `SEGTYPE` (R42). -/
  segtype : BitVec 3 := 0
  /-- `CCOUNT` (R42). -/
  ccount : BitVec 6 := 0
  /-- `REC.*` (R43 to R48). -/
  record : Record := {}
  /-- `PRCOUNT` (R49). -/
  prcount : BitVec 12 := 0
  /-- `PR[0 ..]` (R49): the entries below `PRCOUNT`; every further entry is empty (log entry 13). -/
  pr : List PrEntry := []
  deriving DecidableEq, Repr

/-- Every result register at its reset value (R54). -/
def Results.reset : Results := {}

/-! ## What the decoding functions return -/

/-- The value of `vendor_section(k, s)` (R221). -/
structure VendorSection where
  vendors : IdSet16
  next : Nat
  maxId : BitVec 16
  sel : BitVec 1
  deriving DecidableEq, Repr

/-- The value of `pub_tc(k)` (R244). -/
structure PubTc where
  consent : IdSet64
  li : IdSet64
  customConsent : IdSet64
  customLi : IdSet64
  count : BitVec 6
  next : Nat
  deriving DecidableEq, Repr

/-- The value of `segment(k)` (R243): one constructor per tag that the block knows. -/
inductive Segment where
  | disclosed (v : VendorSection)
  | allowed (v : VendorSection)
  | publisherTc (t : PubTc)
  deriving DecidableEq, Repr

/-- The vendor block of a V1 record (R133, R261 step 4). -/
structure V1Block where
  blocklist : BitVec 1
  vendors : IdSet16
  next : Nat
  deriving DecidableEq, Repr

/-! ## The local values of the pseudocode -/

/-- The MODEL's own: the local values of the pseudocode (R57), at which the meaning of a wire pattern
acts. Between commands all of them are 0 or empty (log entry 10). -/
structure Locals where
  /-- The segment buffer the cursor is in. -/
  k : BitVec 8 := 0
  /-- The cursor `p` (R40), an exact natural number (R9). -/
  p : Nat := 0
  /-- The set under construction `S`. -/
  set : IdSet16 := .empty
  /-- `max_id` of a vendor section. -/
  maxId : BitVec 16 := 0
  /-- `sel` of a vendor section. -/
  sel : BitVec 1 := 0
  /-- The letters `out` of an alphabet string. -/
  out : List Byte := []
  /-- `rtype` of a publisher restriction. -/
  rtype : BitVec 2 := 0
  /-- The restriction list `L`. -/
  list : List PrEntry := []
  deriving DecidableEq, Repr

/-- The local values when no command executes. -/
def Locals.reset : Locals := {}

/-! ## The host's side -/

/-- The registers of the record file, as the host names them (R43 to R48). -/
inductive RecReg where
  | kind | createdAt | updatedAt | cmpId | cmpVersion | consentScreen
  | consentLanguage (i : Fin 2)
  | vendorListVersion | purposesConsent | v1IsBlocklist | v1Vendors | tcfPolicyVersion
  | isServiceSpecific | useNonStandardStacks | specialFeatureOptIns | purposesLiTransparency
  | purposeOneTreatment
  | publisherCountryCode (i : Fin 2)
  | vendorConsents | vendorLiConsents | disclosedVendors | allowedVendors
  | publisherPurposesConsent | publisherPurposesLiTransparency | customPurposesConsent
  | customPurposesLiTransparency
  deriving DecidableEq, Repr

/-- The registers that are read-only for the host (R52), `STATUS` apart. -/
inductive ResultReg where
  | val | valty
  | str (i : Fin 8)
  | strlen | setr | cur | maxid | sel | segtype | ccount
  | record (r : RecReg)
  | prcount
  | pr (i : BitVec 12)
  deriving DecidableEq, Repr

/-- Every register the host can name (R30). -/
inductive HostReg where
  | seg (k : BitVec 8) (j : BitVec 29)
  | segLen (k : BitVec 8)
  | nseg
  | cmd
  | status
  | result (r : ResultReg)
  deriving DecidableEq, Repr

/-- One access of the host (R7, R52, R360). -/
inductive HostAccess where
  | writeSeg (k : BitVec 8) (j : BitVec 29) (b : Byte)
  | writeSegLen (k : BitVec 8) (v : BitVec 30)
  | writeNseg (v : BitVec 9)
  | writeCmd (w : Word64)
  | writeStatus (v : BitVec 64)
  | writeResult (r : ResultReg) (v : BitVec 64)
  | read (r : HostReg)
  | reset
  deriving DecidableEq, Repr

/-! ## The state -/

/-- The whole state of one instance (R30), with the model's own fields `loc`, `host`, `readback`, `busyReads`. -/
structure State where
  /-- `SEG`, `SEGLEN`, `NSEG` (R31 to R33). -/
  inp : Input := {}
  /-- `CMD` (R34): the last word written; a host read returns 0 (log entry 17). -/
  cmd : Word64 := 0
  /-- `STATUS` (R35). -/
  status : BitVec 8 := 0
  /-- The result registers (R37 to R49). -/
  res : Results := {}
  /-- The MODEL's own: local values of the pseudocode (R57; log entry 10). -/
  loc : Locals := {}
  /-- The MODEL's own: the host accesses still to come, oldest first (log entry 5). -/
  host : List HostAccess := []
  /-- The MODEL's own: what the host's last read returned (log entry 6). -/
  readback : Option HostValue := none
  /-- The MODEL's own: how many unspecified values host reads have drawn (R371; log entry 7). -/
  busyReads : Nat := 0
  deriving DecidableEq, Repr

/-- The machine right after reset (R54): every length and count 0, `STATUS` 0, every result register at
its reset value, buffer bytes unspecified, no host access yet. -/
def State.reset : State := {}

/-! ## Reasons to stop -/

/-- The machine stops with a fault. -/
inductive Fault where
  /-- Raised by `readBits` and `readBit` outside their precondition, where the function has no value (R174).
  Safe: the machine stops; no instruction reaches it (R86, R372). -/
  | undefinedRead
  /-- Raised by a host access to a segment buffer `k >= MAX_SEGS`, a buffer byte `j >= MAX_SEG_BYTES` or
  the restriction entry 4095, none of which an instance has (R31, R49). Safe: the machine stops. -/
  | noSuchRegister
  deriving DecidableEq, Repr

/-- The model gives the step no meaning. -/
inductive Refusal where
  /-- Raised by `exec` for an instruction that has no meaning yet. Safe: the machine stops. -/
  | notModelled (mnemonic : String)
  /-- Raised by a host write while `BUSY = 1`, which the spec gives no meaning (R91, R371). Safe: the
  machine stops; no run from reset has `BUSY = 1` between steps. -/
  | hostWriteWhileBusy
  deriving DecidableEq, Repr

end Sys2Proof.Machine
end

