-- ==== Sys2Proof/Machine/Flags.lean ====
section
/-! DEFINITION. The `STATUS` register (R35): its fields, how they are set, and the error codes (R321). -/

namespace Sys2Proof.Machine

/-- The code of a decode error (R321). -/
def DecodeError.code : DecodeError → BitVec 4
  | .insufficientLength => 1
  | .unsupportedVersion => 2
  | .invalidUrlSafeBase64 => 3
  | .invalidAlphabetOffset => 4
  | .invalidSectionDefinition => 5
  | .invalidSegmentDefinition => 6
  | .unexpectedRangeSection => 7

/-- `STATUS` from its fields (R35): `ERRCODE` in bits 7:4, then `CMDERR`, `ERR`, `DONE`, `BUSY`. -/
def statusWord (busy done err cmderr : Bool) (code : BitVec 4) : BitVec 8 :=
  code ++ BitVec.ofBool cmderr ++ BitVec.ofBool err ++ BitVec.ofBool done ++ BitVec.ofBool busy

/-- `STATUS.BUSY` (R35). -/
def State.busy (s : State) : Bool := s.status.getLsbD 0

/-- `STATUS.DONE` (R35). -/
def State.done (s : State) : Bool := s.status.getLsbD 1

/-- `STATUS.ERR` (R35). -/
def State.err (s : State) : Bool := s.status.getLsbD 2

/-- `STATUS.CMDERR` (R35). -/
def State.cmdErr (s : State) : Bool := s.status.getLsbD 3

/-- `STATUS.ERRCODE` (R35). -/
def State.errCode (s : State) : BitVec 4 := s.status.extractLsb' 4 4

/-- The level output `done`, equal to `STATUS.DONE` (R345). -/
def State.doneOutput (s : State) : Bool := s.done

/-- `STATUS` while a command executes (R329). -/
def statusExecuting : BitVec 8 := statusWord true false false false 0

/-- `STATUS` after success (R331). -/
def statusSuccess : BitVec 8 := statusWord false true false false 0

/-- `STATUS` after `raise e` (R330). -/
def statusRaised (e : DecodeError) : BitVec 8 := statusWord false true true false e.code

/-- `STATUS` after `reject` (R332). -/
def statusRejected : BitVec 8 := statusWord false true false true 0

end Sys2Proof.Machine
end

