-- ==== Sys2Proof/Machine/Ops.lean ====
section
/-! DEFINITION. The named operations over buffers, ID sets and registers: the Bit Reader, the Boundary
Checker, and the start and the three ends of a command (R329 to R332). -/

namespace Sys2Proof

/-! ## ID sets -/

/-- `S + {i}` (R10); an ID already present changes nothing (R36). -/
def IdSet.insert {n : Nat} (S : IdSet n) (i : Nat) : IdSet n := ⟨S.bits ||| BitVec.twoPow n i⟩

/-- `{lo .. hi}`: every `i` with `lo <= i <= hi`, none when `lo > hi` (R10, R218). -/
def IdSet.interval {n : Nat} (lo hi : Nat) : IdSet n :=
  ⟨(BitVec.allOnes n >>> (n - 1 - hi)) &&& (BitVec.allOnes n <<< lo)⟩

/-- Set union, for `S + {lo .. hi}` (R10). -/
def IdSet.union {n : Nat} (S T : IdSet n) : IdSet n := ⟨S.bits ||| T.bits⟩

/-- The same set in an `IDSET(64)` register; no bitmap that feeds one is longer than 63 bits (R36, R207). -/
def IdSet.narrow {n : Nat} (S : IdSet n) : IdSet64 := ⟨S.bits.setWidth 64⟩

/-- The members in ascending order, as a host reads a set (R36). -/
def IdSet.members {n : Nat} (S : IdSet n) : List Nat := (List.range n).filter S.mem

namespace Machine

/-! ## Buffer memory -/

/-- What an address that no write has reached reads as: a FREE VALUE (R54; log entry 3). -/
def Memory.unlisted (epoch address : Nat) : Byte := Config.unwrittenByte epoch address

/-- The byte at an address. -/
def Memory.read (epoch : Nat) : Memory → Nat → Byte
  | [], a => Memory.unlisted epoch a
  | (x, b) :: rest, a => if a = x then b else Memory.read epoch rest a

/-- Put a cell in front, unless its address reads as that byte unlisted. -/
def Memory.list (epoch : Nat) (a : Nat) (b : Byte) (m : Memory) : Memory :=
  if b = Memory.unlisted epoch a then m else (a, b) :: m

/-- Write a byte; the canonical form is kept. -/
def Memory.write (epoch : Nat) : Memory → Nat → Byte → Memory
  | [], a, b => Memory.list epoch a b []
  | (x, c) :: rest, a, b =>
    if a < x then Memory.list epoch a b ((x, c) :: rest)
    else if a = x then Memory.list epoch a b rest
    else (x, c) :: Memory.write epoch rest a b

/-- The canonical form: addresses strictly rising, no cell equal to what its address reads as unlisted. -/
abbrev Memory.wf (epoch : Nat) (m : Memory) : Prop :=
  m.Pairwise (fun x y => x.1 < y.1) ∧ ∀ c ∈ m, c.2 ≠ Memory.unlisted epoch c.1

/-- The cell address of `SEG[k][j]` (log entry 20). -/
def byteAddress (k j : Nat) : Nat := k * 536870912 + j

/-- `SEG[k][j]` (R31). -/
def Input.byte (inp : Input) (k j : Nat) : Byte :=
  Memory.read inp.epoch inp.mem (byteAddress k j)

/-- `SEGLEN[k]` (R32). A buffer that no instance has (`k >= 256`) has length 0 (log entry 19). -/
def Input.len (inp : Input) (k : Nat) : Nat := (inp.segLen[k]?.getD 0).toNat

/-- `cap(k)`, the bit capacity of buffer `k` (R10). -/
def Input.cap (inp : Input) (k : Nat) : Nat := 8 * inp.len k

/-- `bit(k, b)`: wire bits are numbered most significant first (R82). -/
def Input.wireBit (inp : Input) (k b : Nat) : Bool :=
  (inp.byte k (b / 8)).getLsbD (7 - b % 8)

/-- The `n` wire bits from `s` on as a field, first wire bit most significant (R83). -/
def Input.span (inp : Input) (k : Nat) : (s n : Nat) → BitVec n
  | _, 0 => 0#0
  | s, n + 1 => (inp.span k (s + 1) n).cons (inp.wireBit k s)

/-! ## Bit Reader and Boundary Checker -/

/-- `raise E` inside a body of pseudocode (R10, R330). -/
def raise {α : Type} (e : DecodeError) : Dec α := .error (.raised e)

/-- `require(k, n)`, the Boundary Checker (R172). -/
def require (inp : Input) (k n : Nat) : Dec Unit :=
  if inp.cap k < n then raise .insufficientLength else .ok ()

/-- `read_bits(k, s, n)`, the Bit Reader (R171); outside its precondition it has no value (R174). -/
def readBits (inp : Input) (k s n : Nat) : Dec (BitVec n) :=
  if n ≤ Config.readMax ∧ s + n ≤ inp.cap k then .ok (inp.span k s n) else .error .undefinedRead

/-- `bit(k, b)`, defined only for `b < cap(k)` (R10). -/
def readBit (inp : Input) (k b : Nat) : Dec Bool :=
  if b < inp.cap k then .ok (inp.wireBit k b) else .error .undefinedRead

/-! ## Start and end of a command -/

/-- Command start (R329): every result register at its reset value, `BUSY = 1`, `DONE = 0`. -/
def State.start (s : State) : State :=
  { s with res := Results.reset, loc := Locals.reset, status := statusExecuting }

/-- Successful completion (R331): the registers the operation assigned, all others at their reset values. -/
def State.complete (s : State) (r : Results) : State :=
  { s with res := r, loc := Locals.reset, status := statusSuccess }

/-- TAKING A DECODE ERROR, `raise E` (R330): every result register at its reset value, `ERR`, `ERRCODE` and
`DONE` set; nothing else changes, no handler, nothing saved. There is no return operation (R333). -/
def State.raiseError (s : State) (e : DecodeError) : State :=
  { s with res := Results.reset, loc := Locals.reset, status := statusRaised e }

/-- `reject` (R332): every result register at its reset value, `CMDERR` and `DONE` set. -/
def State.reject (s : State) : State :=
  { s with res := Results.reset, loc := Locals.reset, status := statusRejected }

/-- The end of a body of pseudocode (R12): its value, or its first `raise`. -/
def State.conclude (s : State) : Dec State → Host.Outcome State Fault Refusal
  | .ok t => .next t
  | .error (.raised e) => .next (s.raiseError e)
  | .error .undefinedRead => .fault .undefinedRead

/-- One whole command (R329 to R332): an illegal one is rejected and reads no buffer; a legal one starts from
cleared results and ends with the registers its body assigned, or with the first error. -/
def State.runCommand (s : State) (legal : Bool) (body : Dec Results) :
    Host.Outcome State Fault Refusal :=
  if legal then s.start.conclude (body.map s.start.complete) else .next s.reject

/-- The reset input (R360, R361): the reset state, whatever was executing. The host's own accesses and
what it last read are not the block's and stay; the free bytes are drawn anew (log entry 3). -/
def State.pulseReset (s : State) : State :=
  { State.reset with
    inp := { State.reset.inp with epoch := s.inp.epoch + 1 }
    host := s.host
    readback := s.readback
    busyReads := s.busyReads }

end Machine

end Sys2Proof
end

