-- ==== Sys2Proof/Machine/Operands.lean ====
section
/-! DEFINITION. The legality of a command's operands (R120 items 3 to 5) and the shapes in which results
enter registers. -/

namespace Sys2Proof.Machine

/-- R120 item 4: the buffer is loaded. -/
def segLoaded (inp : Input) (seg : BitVec 8) : Bool := decide (seg.toNat < inp.nseg.toNat)

/-- R120 item 5: something is loaded. -/
def anyLoaded (inp : Input) : Bool := decide (0 < inp.nseg.toNat)

/-- R120 item 3 for RDB: `len <= 64`. -/
def rdbLimits (len : BitVec 16) : Bool := decide (len.toNat ≤ 64)

/-- R120 item 3 for RDF: `len <= 64` and `len <= 8 * 2^ty`. -/
def rdfLimits (len : BitVec 7) (ty : BitVec 2) : Bool :=
  decide (len.toNat ≤ 64) && decide (len.toNat ≤ 8 * 2 ^ ty.toNat)

/-- R120 item 3 for RDA: `cnt <= 8` and `1 <= w <= 64`. -/
def rdaLimits (cnt w : BitVec 8) : Bool :=
  decide (cnt.toNat ≤ 8) && decide (1 ≤ w.toNat) && decide (w.toNat ≤ 64)

/-- A cursor as `CUR` holds it (R40); every cursor of a successful command fits (R95). -/
def cursor (p : Nat) : BitVec 40 := BitVec.ofNat 40 p

/-- `STR` from the letters: `STR[i]` is 0 beyond them (R38, R196). -/
def strRegister (l : List Byte) : Vector Byte 8 :=
  #v[l.getD 0 0, l.getD 1 0, l.getD 2 0, l.getD 3 0, l.getD 4 0, l.getD 5 0, l.getD 6 0, l.getD 7 0]

/-- A two-letter register from its letters (R44, R46). -/
def twoLetters (l : List Byte) : Vector Byte 2 := #v[l.getD 0 0, l.getD 1 0]

end Sys2Proof.Machine
end

