-- ==== Sys2Proof/Machine/System.lean ====
section
/-! DEFINITION. The one system operation, CLR (47_system.md). -/

namespace Sys2Proof.Machine

/-- CLR (R306): nothing beyond the clearing that every command does first (R329). -/
def execClr (s : State) : Host.Outcome State Fault Refusal := s.runCommand true (.ok {})

end Sys2Proof.Machine
end

