-- ==== Sys2Proof/Machine/Fields.lean ====
section
/-! DEFINITION. The field decoders: bitmaps (R206), alphabet strings (R195), and the meanings of REQB, RDB,
RDF, RDA, RDFS (40_bit_reader.md, 41_scalar.md, 42_bitmap.md). -/

namespace Sys2Proof.Machine

/-! ## Bitmaps -/

/-- The loop of `flags(k, s, n)` (R206): flag `i` set inserts `i + 1`. -/
def flagLoop (inp : Input) (k s : Nat) : (n : Nat) → Dec IdSet16
  | 0 => .ok .empty
  | n + 1 => do
    let S ← flagLoop inp k s n
    let f ← readBit inp k (s + n)
    .ok (if f then S.insert (n + 1) else S)

/-- `flags(k, s, n)` (R206). -/
def flags (inp : Input) (k s n : Nat) : Dec (IdSet16 × Nat) := do
  require inp k (s + n)
  let S ← flagLoop inp k s n
  .ok (S, s + n)

/-- A bitmap that feeds an `IDSET(64)` register (R207). -/
def shortFlags (inp : Input) (k s n : Nat) : Dec IdSet64 := do
  let (S, _) ← flags inp k s n
  .ok S.narrow

/-! ## Alphabet strings -/

/-- One character value (R147, R195): the letter `0x41 + v`, or `InvalidAlphabetOffset`. -/
def letter {w : Nat} (v : BitVec w) : Dec Byte :=
  if 25 < v.toNat then raise .invalidAlphabetOffset else .ok (0x41 + v.setWidth 8)

/-- `alpha(k, s, cnt, w)` (R195); the caller has required the span. -/
def alpha (inp : Input) (k s : Nat) : (cnt w : Nat) → Dec (List Byte)
  | 0, _ => .ok []
  | cnt + 1, w => do
    let l ← alpha inp k s cnt w
    let v ← readBits inp k (s + cnt * w) w
    let c ← letter v
    .ok (l ++ [c])

/-! ## The five primitive commands -/

/-- The body of REQB (R177). -/
def reqbBody (inp : Input) (k n : Nat) : Dec Results := do
  require inp k n
  .ok {}

/-- REQB (R177). -/
def execReqb (seg : BitVec 8) (bitCount : BitVec 32) (s : State) :
    Host.Outcome State Fault Refusal :=
  s.runCommand (segLoaded s.inp seg) (reqbBody s.inp seg.toNat bitCount.toNat)

/-- The body that RDB and RDF share: `require`, then `VAL`, `VALTY` and `CUR` (R178, R192). -/
def integerBody (inp : Input) (k start len : Nat) (ty : BitVec 2) : Dec Results := do
  require inp k (start + len)
  let v ← readBits inp k start len
  .ok { val := v.setWidth 64, valty := ty, cur := cursor (start + len) }

/-- RDB (R178). -/
def execRdb (seg : BitVec 8) (start : BitVec 32) (len : BitVec 16) (s : State) :
    Host.Outcome State Fault Refusal :=
  s.runCommand (rdbLimits len && segLoaded s.inp seg)
    (integerBody s.inp seg.toNat start.toNat len.toNat 3)

/-- RDF (R192). -/
def execRdf (seg : BitVec 8) (start : BitVec 32) (len : BitVec 7) (ty : BitVec 2) (s : State) :
    Host.Outcome State Fault Refusal :=
  s.runCommand (rdfLimits len ty && segLoaded s.inp seg)
    (integerBody s.inp seg.toNat start.toNat len.toNat ty)

/-- The body of RDA (R196): the whole span is required before any letter is tested. -/
def rdaBody (inp : Input) (k start cnt w : Nat) : Dec Results := do
  require inp k (start + cnt * w)
  let l ← alpha inp k start cnt w
  .ok { str := strRegister l, strlen := BitVec.ofNat 4 cnt, cur := cursor (start + cnt * w) }

/-- RDA (R196). -/
def execRda (seg : BitVec 8) (start : BitVec 32) (cnt w : BitVec 8) (s : State) :
    Host.Outcome State Fault Refusal :=
  s.runCommand (rdaLimits cnt w && segLoaded s.inp seg)
    (rdaBody s.inp seg.toNat start.toNat cnt.toNat w.toNat)

/-- The body of RDFS (R208). -/
def rdfsBody (inp : Input) (k start len : Nat) : Dec Results := do
  let (S, next) ← flags inp k start len
  .ok { setr := S, cur := cursor next }

/-- RDFS (R208). -/
def execRdfs (seg : BitVec 8) (start : BitVec 32) (len : BitVec 16) (s : State) :
    Host.Outcome State Fault Refusal :=
  s.runCommand (segLoaded s.inp seg) (rdfsBody s.inp seg.toNat start.toNat len.toNat)

end Sys2Proof.Machine
end

