-- ==== Sys2Proof/Machine/Sets.lean ====
section
/-! DEFINITION. Range-sets, vendor sections and publisher restrictions, and the meanings of RDRS, RDVS
and RDPR (43_rangeset.md, 46_v2_assembler.md). -/

namespace Sys2Proof.Machine

/-! ## Range-sets -/

/-- A single entry: `S + {id}` (R138, R216). -/
def addSingle (S : IdSet16) (id : BitVec 16) : IdSet16 := S.insert id.toNat

/-- A range entry: `S + {lo .. hi}` (R139, R216, R218). -/
def addRange (S : IdSet16) (lo hi : BitVec 16) : IdSet16 := S.union (.interval lo.toNat hi.toNat)

/-- The loop of `range_set` (R216): `n` entries from the cursor `p` on, into `S`. -/
def rangeEntries (inp : Input) (k : Nat) : (n p : Nat) → IdSet16 → Dec (IdSet16 × Nat)
  | 0, p, S => .ok (S, p)
  | n + 1, p, S => do
    require inp k (p + 1)
    let d ← readBit inp k p
    if d = false then do
      require inp k (p + 17)
      let id ← readBits inp k (p + 1) 16
      rangeEntries inp k n (p + 17) (addSingle S id)
    else do
      require inp k (p + 33)
      let lo ← readBits inp k (p + 1) 16
      let hi ← readBits inp k (p + 17) 16
      rangeEntries inp k n (p + 33) (addRange S lo hi)

/-- `range_set(k, s)` (R216). -/
def rangeSet (inp : Input) (k s : Nat) : Dec (IdSet16 × Nat) := do
  require inp k (s + 12)
  let n ← readBits inp k s 12
  rangeEntries inp k n.toNat (s + 12) .empty

/-- The body of RDRS (R225). -/
def rdrsBody (inp : Input) (k start : Nat) : Dec Results := do
  let (S, next) ← rangeSet inp k start
  .ok { setr := S, cur := cursor next }

/-- RDRS (R225). -/
def execRdrs (seg : BitVec 8) (start : BitVec 32) (s : State) :
    Host.Outcome State Fault Refusal :=
  s.runCommand (segLoaded s.inp seg) (rdrsBody s.inp seg.toNat start.toNat)

/-! ## Vendor sections -/

/-- The bitmap branch of `vendor_section(k, s)` (R221): `max_id` flags after the 17 header bits. -/
def vendorBitmap (inp : Input) (k s : Nat) (maxId : BitVec 16) : Dec VendorSection := do
  let (S, next) ← flags inp k (s + 17) maxId.toNat
  .ok { vendors := S, next := next, maxId := maxId, sel := 0 }

/-- The range branch of `vendor_section(k, s)` (R221); `max_id` constrains nothing. -/
def vendorRange (inp : Input) (k s : Nat) (maxId : BitVec 16) : Dec VendorSection := do
  let (S, next) ← rangeSet inp k (s + 17)
  .ok { vendors := S, next := next, maxId := maxId, sel := 1 }

/-- `vendor_section(k, s)` (R221). -/
def vendorSection (inp : Input) (k s : Nat) : Dec VendorSection := do
  require inp k (s + 17)
  let maxId ← readBits inp k s 16
  let sel ← readBit inp k (s + 16)
  if sel = false then vendorBitmap inp k s maxId else vendorRange inp k s maxId

/-- The body of RDVS (R226). -/
def rdvsBody (inp : Input) (k start : Nat) : Dec Results := do
  let v ← vendorSection inp k start
  .ok { setr := v.vendors, maxid := v.maxId, sel := v.sel, cur := cursor v.next }

/-- RDVS (R226). -/
def execRdvs (seg : BitVec 8) (start : BitVec 32) (s : State) :
    Host.Outcome State Fault Refusal :=
  s.runCommand (segLoaded s.inp seg) (rdvsBody s.inp seg.toNat start.toNat)

/-! ## Publisher restrictions -/

/-- The rest of a restriction entry at `p`, after its 8-bit header (R142, R276): `PR_PAD` ignored bits and a
range-set. -/
def prEntry (inp : Input) (k p : Nat) (purposeId : BitVec 6) (rtype : BitVec 2) :
    Dec (PrEntry × Nat) := do
  let (S, next) ← rangeSet inp k (p + 8 + Config.prPad)
  .ok ({ purposeId := purposeId.setWidth 8, rtype := rtype, vendors := S }, next)

/-- The loop of `pub_restrictions` (R276): `n` entries from the cursor `p` on, appended to `L`. -/
def prEntries (inp : Input) (k : Nat) :
    (n p : Nat) → List PrEntry → Dec (List PrEntry × Nat)
  | 0, p, L => .ok (L, p)
  | n + 1, p, L => do
    require inp k (p + 8 + Config.prPad)
    let purposeId ← readBits inp k p 6
    let rtype ← readBits inp k (p + 6) 2
    let (e, next) ← prEntry inp k p purposeId rtype
    prEntries inp k n next (L ++ [e])

/-- `pub_restrictions(k, s)` (R276). -/
def pubRestrictions (inp : Input) (k s : Nat) : Dec (List PrEntry × Nat) := do
  require inp k (s + 12)
  let n ← readBits inp k s 12
  prEntries inp k n.toNat (s + 12) []

/-- The body of RDPR (R278). -/
def rdprBody (inp : Input) (k start : Nat) : Dec Results := do
  let (L, next) ← pubRestrictions inp k start
  .ok { prcount := BitVec.ofNat 12 L.length, pr := L, cur := cursor next }

/-- RDPR (R278). -/
def execRdpr (seg : BitVec 8) (start : BitVec 32) (s : State) :
    Host.Outcome State Fault Refusal :=
  s.runCommand (segLoaded s.inp seg) (rdprBody s.inp seg.toNat start.toNat)

end Sys2Proof.Machine
end

