-- ==== Sys2Proof/Machine/Segments.lean ====
section
/-! DEFINITION. V2 optional segments and the meaning of RDSEG (44_segments.md). -/

namespace Sys2Proof.Machine

/-- `pub_tc(k)` (R244). -/
def pubTc (inp : Input) (k : Nat) : Dec PubTc := do
  require inp k 57
  let ppc ← shortFlags inp k 3 24
  let ppli ← shortFlags inp k 27 24
  let c ← readBits inp k 51 6
  if c = 0 then
    .ok { consent := ppc, li := ppli, customConsent := .empty, customLi := .empty, count := 0, next := 57 }
  else do
    require inp k (57 + 2 * c.toNat)
    let cpc ← shortFlags inp k 57 c.toNat
    let cpli ← shortFlags inp k (57 + c.toNat) c.toNat
    .ok { consent := ppc, li := ppli, customConsent := cpc, customLi := cpli, count := c
          next := 57 + 2 * c.toNat }

/-- What follows a segment's tag (R243): the payload the tag selects, or `InvalidSegmentDefinition` for
the tags 0, 4, 5, 6 and 7 (R242). -/
def segmentPayload (inp : Input) (k : Nat) (tag : BitVec 3) : Dec Segment :=
  match tag with
  | 1#3 => (vendorSection inp k 3).map .disclosed
  | 2#3 => (vendorSection inp k 3).map .allowed
  | 3#3 => (pubTc inp k).map .publisherTc
  | _ => raise .invalidSegmentDefinition

/-- `segment(k)` (R243). -/
def segment (inp : Input) (k : Nat) : Dec Segment := do
  require inp k 3
  let t ← readBits inp k 0 3
  segmentPayload inp k t

/-- `merge(r)` (R246): one decoded segment into the record registers. -/
def merge (r : Segment) (rec0 : Record) : Record :=
  match r with
  | .disclosed v => { rec0 with disclosedVendors := v.vendors }
  | .allowed v => { rec0 with allowedVendors := v.vendors }
  | .publisherTc t =>
    { rec0 with
      publisherPurposesConsent := t.consent
      publisherPurposesLiTransparency := t.li
      customPurposesConsent := t.customConsent
      customPurposesLiTransparency := t.customLi }

/-- The registers of RDSEG beside the record (R245). -/
def rdsegResults (r : Segment) : Results :=
  match r with
  | .disclosed v =>
    { segtype := 1, cur := cursor v.next, maxid := v.maxId, sel := v.sel, record := merge r {} }
  | .allowed v =>
    { segtype := 2, cur := cursor v.next, maxid := v.maxId, sel := v.sel, record := merge r {} }
  | .publisherTc t =>
    { segtype := 3, cur := cursor t.next, ccount := t.count, record := merge r {} }

/-- RDSEG (R245). -/
def execRdseg (seg : BitVec 8) (s : State) : Host.Outcome State Fault Refusal :=
  s.runCommand (segLoaded s.inp seg) ((segment s.inp seg.toNat).map rdsegResults)

end Sys2Proof.Machine
end

