-- ==== Sys2Proof/Machine/Records.lean ====
section
/-! DEFINITION. The V1 and V2 assemblers and the dispatch on the version: the meanings of DECV1, DECV2
and DEC (45_v1_assembler.md, 46_v2_assembler.md, 47_system.md). -/

namespace Sys2Proof.Machine

/-- The 6-bit version field of segment 0, after `require(0, 6)` (R131, R261, R281, R308). -/
def versionField (inp : Input) : Dec (BitVec 6) := do
  require inp 0 6
  readBits inp 0 0 6

/-- A one-bit field of segment 0. -/
def flagField (inp : Input) (b : Nat) : Dec (BitVec 1) := (readBit inp 0 b).map BitVec.ofBool

/-- A two-letter field of segment 0 (`cnt = 2`, `w = 6`; R195). -/
def lettersField (inp : Input) (b : Nat) : Dec (Vector Byte 2) := (alpha inp 0 b 2 6).map twoLetters

/-! ## V1 -/

/-- The V1 vendor block with selector 0 (R133, R261 step 4). -/
def v1Bitmap (inp : Input) (maxId : BitVec 16) : Dec V1Block := do
  let (S, next) ← flags inp 0 173 maxId.toNat
  .ok { blocklist := 0, vendors := S, next := next }

/-- The V1 vendor block with selector 1, after `is_blocklist` (R133, R261 step 4). -/
def v1Range (inp : Input) (blocklist : BitVec 1) : Dec V1Block := do
  let (S, next) ← rangeSet inp 0 174
  .ok { blocklist := blocklist, vendors := S, next := next }

/-- The V1 vendor block (R133, R261 step 4). -/
def v1Vendors (inp : Input) (maxId : BitVec 16) : Dec V1Block := do
  let sel ← readBit inp 0 172
  if sel = false then v1Bitmap inp maxId
  else do
    require inp 0 174
    let b ← flagField inp 173
    v1Range inp b

/-- Steps 3 to 5 of the V1 assembler (R261). The timestamps are raw (R263). -/
def v1Record (inp : Input) : Dec Results := do
  require inp 0 Config.v1HdrBits
  let createdAt ← readBits inp 0 6 36
  let updatedAt ← readBits inp 0 42 36
  let cmpId ← readBits inp 0 78 12
  let cmpVersion ← readBits inp 0 90 12
  let consentScreen ← readBits inp 0 102 6
  let consentLanguage ← lettersField inp 108
  let vendorListVersion ← readBits inp 0 120 12
  let purposesConsent ← shortFlags inp 0 132 24
  let maxId ← readBits inp 0 156 16
  let v ← v1Vendors inp maxId
  .ok
    { cur := cursor v.next
      record :=
        { kind := 1
          createdAt := createdAt.setWidth 64
          updatedAt := updatedAt.setWidth 64
          cmpId := cmpId
          cmpVersion := cmpVersion
          consentScreen := consentScreen
          consentLanguage := consentLanguage
          vendorListVersion := vendorListVersion
          purposesConsent := purposesConsent
          v1IsBlocklist := v.blocklist
          v1Vendors := v.vendors } }

/-- The body of DECV1 (R261). -/
def decv1Body (inp : Input) : Dec Results := do
  let v ← versionField inp
  if v = 1 then v1Record inp else raise .unsupportedVersion

/-- DECV1 (R261). -/
def execDecv1 (s : State) : Host.Outcome State Fault Refusal :=
  s.runCommand (anyLoaded s.inp) (decv1Body s.inp)

/-! ## V2 -/

/-- No optional segment buffer `1 .. n` is empty (R241, R281 step 2). -/
def noEmptySegment (inp : Input) : (n : Nat) → Dec Unit
  | 0 => .ok ()
  | n + 1 => do
    noEmptySegment inp n
    if inp.len (n + 1) = 0 then raise .insufficientLength else .ok ()

/-- A V2 timestamp: the raw field times 100 (R283). -/
def scaledTime (t : BitVec 36) : BitVec 64 := 100 * t.setWidth 64

/-- The fixed fields of a V2 core (R134, R281 step 3). -/
def v2Fixed (inp : Input) : Dec Record := do
  require inp 0 Config.v2HdrBits
  let createdAt ← readBits inp 0 6 36
  let updatedAt ← readBits inp 0 42 36
  let cmpId ← readBits inp 0 78 12
  let cmpVersion ← readBits inp 0 90 12
  let consentScreen ← readBits inp 0 102 6
  let consentLanguage ← lettersField inp 108
  let vendorListVersion ← readBits inp 0 120 12
  let tcfPolicyVersion ← readBits inp 0 132 6
  let isServiceSpecific ← flagField inp 138
  let useNonStandardStacks ← flagField inp 139
  let specialFeatureOptIns ← shortFlags inp 0 140 12
  let purposesConsent ← shortFlags inp 0 152 24
  let purposesLiTransparency ← shortFlags inp 0 176 24
  let purposeOneTreatment ← flagField inp 200
  let publisherCountryCode ← lettersField inp 201
  .ok
    { kind := 2
      createdAt := scaledTime createdAt
      updatedAt := scaledTime updatedAt
      cmpId := cmpId
      cmpVersion := cmpVersion
      consentScreen := consentScreen
      consentLanguage := consentLanguage
      vendorListVersion := vendorListVersion
      tcfPolicyVersion := tcfPolicyVersion
      isServiceSpecific := isServiceSpecific
      useNonStandardStacks := useNonStandardStacks
      specialFeatureOptIns := specialFeatureOptIns
      purposesConsent := purposesConsent
      purposesLiTransparency := purposesLiTransparency
      purposeOneTreatment := purposeOneTreatment
      publisherCountryCode := publisherCountryCode }

/-- Step 5 of the V2 assembler (R281): the optional segments `1 .. n` in ascending order, each merged. -/
def mergeSegments (inp : Input) : (n : Nat) → Record → Dec Record
  | 0, rec0 => .ok rec0
  | n + 1, rec0 => do
    let rec1 ← mergeSegments inp n rec0
    let r ← segment inp (n + 1)
    .ok (merge r rec1)

/-- Steps 2 to 6 of the V2 assembler (R281). -/
def v2Record (inp : Input) : Dec Results := do
  noEmptySegment inp (inp.nseg.toNat - 1)
  let fixed ← v2Fixed inp
  let consents ← vendorSection inp 0 Config.v2HdrBits
  let li ← vendorSection inp 0 consents.next
  let (L, next) ← pubRestrictions inp 0 li.next
  let record ← mergeSegments inp (inp.nseg.toNat - 1)
    { fixed with vendorConsents := consents.vendors, vendorLiConsents := li.vendors }
  .ok { cur := cursor next, record := record, prcount := BitVec.ofNat 12 L.length, pr := L }

/-- The body of DECV2 (R281). -/
def decv2Body (inp : Input) : Dec Results := do
  let v ← versionField inp
  if v = 2 then v2Record inp else raise .unsupportedVersion

/-- DECV2 (R281). -/
def execDecv2 (s : State) : Host.Outcome State Fault Refusal :=
  s.runCommand (anyLoaded s.inp) (decv2Body s.inp)

/-! ## Dispatch on the version -/

/-- The body of DEC (R308). -/
def decBody (inp : Input) : Dec Results := do
  let v ← versionField inp
  if v = 1 then decv1Body inp
  else if v = 2 then decv2Body inp
  else raise .unsupportedVersion

/-- DEC (R308). -/
def execDec (s : State) : Host.Outcome State Fault Refusal :=
  s.runCommand (anyLoaded s.inp) (decBody s.inp)

end Sys2Proof.Machine
end

