-- ==== Sys2Proof/Machine/Wire.lean ====
section
/-! DEFINITION. The meanings of the WIRE rows of the opcode table (R131 to R147). A wire pattern is no
command: its meaning is the branch of the pseudocode that it selects, run on the local values of a
decode in progress (R57, R93), with the same functions as the commands (log entries 10 and 11). -/

namespace Sys2Proof.Machine

/-- A pattern in buffer `k`: nothing is read in a buffer that is not loaded (R86, R120 item 4; log
entry 12), and the first `raise` ends the whole decode (R330). -/
def State.runElement (s : State) (k : BitVec 8) (body : Dec State) :
    Host.Outcome State Fault Refusal :=
  if segLoaded s.inp k then s.conclude body else .next s.reject

/-- The local values after a set was read up to the cursor `p`. -/
def State.withSet (s : State) (S : IdSet16) (p : Nat) : State :=
  { s with loc := { s.loc with set := S, p := p } }

/-! ## Version fields -/

/-- WIRE-VERSION-V1 (R131): selects the V1 layout, the branch `v = 1` of DEC (R308). -/
def execWireVersionV1 (s : State) : Host.Outcome State Fault Refusal :=
  s.runCommand (anyLoaded s.inp) (do require s.inp 0 6; v1Record s.inp)

/-- WIRE-VERSION-V2 (R131): selects the V2 layout, the branch `v = 2` of DEC (R308). -/
def execWireVersionV2 (s : State) : Host.Outcome State Fault Refusal :=
  s.runCommand (anyLoaded s.inp) (do require s.inp 0 6; v2Record s.inp)

/-! ## Range-sets -/

/-- WIRE-RANGESET-SINGLE (R138): a 17-bit entry at the cursor, `S + {id}` (R216). -/
def execWireRangesetSingle (id : BitVec 16) (s : State) : Host.Outcome State Fault Refusal :=
  s.runElement s.loc.k do
    require s.inp s.loc.k.toNat (s.loc.p + 17)
    .ok (s.withSet (addSingle s.loc.set id) (s.loc.p + 17))

/-- WIRE-RANGESET-RANGE (R139): a 33-bit entry at the cursor, `S + {lo .. hi}` (R216). -/
def execWireRangesetRange (lo hi : BitVec 16) (s : State) : Host.Outcome State Fault Refusal :=
  s.runElement s.loc.k do
    require s.inp s.loc.k.toNat (s.loc.p + 33)
    .ok (s.withSet (addRange s.loc.set lo hi) (s.loc.p + 33))

/-- WIRE-RANGESET-COUNT (R137): a 12-bit count at the cursor, then that many entries into the empty set (R216). -/
def execWireRangesetCount (n : BitVec 12) (s : State) : Host.Outcome State Fault Refusal :=
  s.runElement s.loc.k do
    require s.inp s.loc.k.toNat (s.loc.p + 12)
    let (S, next) ← rangeEntries s.inp s.loc.k.toNat n.toNat (s.loc.p + 12) .empty
    .ok (s.withSet S next)

/-! ## Vendor sections -/

/-- The local values after a vendor section (R221). -/
def State.withVendorSection (s : State) (v : VendorSection) : State :=
  { s with loc := { s.loc with set := v.vendors, p := v.next, maxId := v.maxId, sel := v.sel } }

/-- WIRE-VENDORSEC-BITMAP (R140): the 17 header bits at the cursor, then `max_id` flags (R221). -/
def execWireVendorsecBitmap (maxId : BitVec 16) (s : State) : Host.Outcome State Fault Refusal :=
  s.runElement s.loc.k do
    require s.inp s.loc.k.toNat (s.loc.p + 17)
    let v ← vendorBitmap s.inp s.loc.k.toNat s.loc.p maxId
    .ok (s.withVendorSection v)

/-- WIRE-VENDORSEC-RANGE (R140): the 17 header bits at the cursor, then a range-set (R221). -/
def execWireVendorsecRange (maxId : BitVec 16) (s : State) : Host.Outcome State Fault Refusal :=
  s.runElement s.loc.k do
    require s.inp s.loc.k.toNat (s.loc.p + 17)
    let v ← vendorRange s.inp s.loc.k.toNat s.loc.p maxId
    .ok (s.withVendorSection v)

/-! ## The V1 vendor block -/

/-- The record registers of a V1 vendor block (R261 step 4) and the cursor after it, in segment 0. -/
def State.withV1Block (s : State) (v : V1Block) : State :=
  { s with
    res := { s.res with record :=
      { s.res.record with v1IsBlocklist := v.blocklist, v1Vendors := v.vendors } }
    loc := { s.loc with k := 0, p := v.next } }

/-- WIRE-V1-VENDORS-BITMAP (R133): `max_vendor_id` at wire bit 156, selector 0, flags from bit 173. -/
def execWireV1VendorsBitmap (maxId : BitVec 16) (s : State) : Host.Outcome State Fault Refusal :=
  s.runElement 0 do
    require s.inp 0 Config.v1HdrBits
    let v ← v1Bitmap s.inp maxId
    .ok (s.withV1Block v)

/-- WIRE-V1-VENDORS-RANGE (R133): selector 1, `is_blocklist` at bit 173, a range-set from bit 174;
`max_vendor_id` sizes nothing. -/
def execWireV1VendorsRange (_maxId : BitVec 16) (blocklist : BitVec 1) (s : State) :
    Host.Outcome State Fault Refusal :=
  s.runElement 0 do
    require s.inp 0 174
    let v ← v1Range s.inp blocklist
    .ok (s.withV1Block v)

/-! ## Publisher restrictions -/

/-- WIRE-PUBRESTR-ENTRY (R142): the 8-bit header at the cursor, `PR_PAD` ignored bits, a range-set; the entry
is appended to the list (R276). -/
def execWirePubrestrEntry (purposeId : BitVec 6) (rtype : BitVec 2) (s : State) :
    Host.Outcome State Fault Refusal :=
  s.runElement s.loc.k do
    require s.inp s.loc.k.toNat (s.loc.p + 8 + Config.prPad)
    let (e, next) ← prEntry s.inp s.loc.k.toNat s.loc.p purposeId rtype
    .ok { s with loc :=
      { s.loc with rtype := rtype, list := s.loc.list ++ [e], set := e.vendors, p := next } }

/-- A 2-bit restriction-type code at the cursor (R143): the code itself is kept (R50). -/
def State.takeRtype (s : State) (code : BitVec 2) : Host.Outcome State Fault Refusal :=
  s.runElement s.loc.k do
    require s.inp s.loc.k.toNat (s.loc.p + 2)
    .ok { s with loc := { s.loc with rtype := code, p := s.loc.p + 2 } }

/-- WIRE-RTYPE-NOTALLOWED (R143). -/
def execWireRtypeNotallowed (s : State) : Host.Outcome State Fault Refusal := s.takeRtype 0

/-- WIRE-RTYPE-REQUIRECONSENT (R143). -/
def execWireRtypeRequireconsent (s : State) : Host.Outcome State Fault Refusal := s.takeRtype 1

/-- WIRE-RTYPE-REQUIRELI (R143). -/
def execWireRtypeRequireli (s : State) : Host.Outcome State Fault Refusal := s.takeRtype 2

/-- WIRE-RTYPE-UNDEFINED (R143): no error. -/
def execWireRtypeUndefined (s : State) : Host.Outcome State Fault Refusal := s.takeRtype 3

/-! ## Optional segments -/

/-- The local values after a decoded segment. -/
def Locals.afterSegment (l : Locals) : Segment → Locals
  | .disclosed v => { l with set := v.vendors, p := v.next, maxId := v.maxId, sel := v.sel }
  | .allowed v => { l with set := v.vendors, p := v.next, maxId := v.maxId, sel := v.sel }
  | .publisherTc t => { l with p := t.next }

/-- A segment's 3-bit tag at its bit 0 (R144): the payload it selects is decoded and merged (R243, R246), or
`InvalidSegmentDefinition` is raised (R242). -/
def State.takeSegtag (s : State) (tag : BitVec 3) : Host.Outcome State Fault Refusal :=
  s.runElement s.loc.k do
    require s.inp s.loc.k.toNat 3
    let r ← segmentPayload s.inp s.loc.k.toNat tag
    .ok { s with
      res := { s.res with record := merge r s.res.record }
      loc := s.loc.afterSegment r }

/-- WIRE-SEGTAG-DISCLOSED (R145). -/
def execWireSegtagDisclosed (s : State) : Host.Outcome State Fault Refusal := s.takeSegtag 0b001

/-- WIRE-SEGTAG-ALLOWED (R145). -/
def execWireSegtagAllowed (s : State) : Host.Outcome State Fault Refusal := s.takeSegtag 0b010

/-- WIRE-SEGTAG-PUBLISHERTC (R146). -/
def execWireSegtagPublishertc (s : State) : Host.Outcome State Fault Refusal := s.takeSegtag 0b011

/-- WIRE-SEGTAG-INVALID-000 (R144). -/
def execWireSegtagInvalid000 (s : State) : Host.Outcome State Fault Refusal := s.takeSegtag 0b000

/-- WIRE-SEGTAG-INVALID-100 (R144). -/
def execWireSegtagInvalid100 (s : State) : Host.Outcome State Fault Refusal := s.takeSegtag 0b100

/-- WIRE-SEGTAG-INVALID-101 (R144). -/
def execWireSegtagInvalid101 (s : State) : Host.Outcome State Fault Refusal := s.takeSegtag 0b101

/-- WIRE-SEGTAG-INVALID-110 (R144). -/
def execWireSegtagInvalid110 (s : State) : Host.Outcome State Fault Refusal := s.takeSegtag 0b110

/-- WIRE-SEGTAG-INVALID-111 (R144). -/
def execWireSegtagInvalid111 (s : State) : Host.Outcome State Fault Refusal := s.takeSegtag 0b111

/-! ## Letters -/

/-- WIRE-LETTER (R147): a 6-bit character at the cursor, appended to the letters, or
`InvalidAlphabetOffset` (R195). -/
def execWireLetter (v : BitVec 6) (s : State) : Host.Outcome State Fault Refusal :=
  s.runElement s.loc.k do
    require s.inp s.loc.k.toNat (s.loc.p + 6)
    let c ← letter v
    .ok { s with loc := { s.loc with out := s.loc.out ++ [c], p := s.loc.p + 6 } }

end Sys2Proof.Machine
end

