-- ==== Sys2Proof/Machine/Dispatch.lean ====
section
/-! DEFINITION. One arm per row of the opcode table, each a direct call of its meaning. -/

namespace Sys2Proof.Machine

-- The meaning of an instruction. A command acts on the input state and the result registers; a wire
-- pattern acts on the local values of a decode in progress (log entry 10).
def exec (i : Instr) (s : State) : Host.Outcome State Fault Refusal :=
  match i with
  | .clr => Sys2Proof.Machine.execClr s
  | .reqb seg bitCount => Sys2Proof.Machine.execReqb seg bitCount s
  | .rdb seg start len => Sys2Proof.Machine.execRdb seg start len s
  | .rdf seg start len ty => Sys2Proof.Machine.execRdf seg start len ty s
  | .rda seg start cnt w => Sys2Proof.Machine.execRda seg start cnt w s
  | .rdfs seg start len => Sys2Proof.Machine.execRdfs seg start len s
  | .rdrs seg start => Sys2Proof.Machine.execRdrs seg start s
  | .rdvs seg start => Sys2Proof.Machine.execRdvs seg start s
  | .rdpr seg start => Sys2Proof.Machine.execRdpr seg start s
  | .rdseg seg => Sys2Proof.Machine.execRdseg seg s
  | .decv1 => Sys2Proof.Machine.execDecv1 s
  | .decv2 => Sys2Proof.Machine.execDecv2 s
  | .dec => Sys2Proof.Machine.execDec s
  | .wireVersionV1 => Sys2Proof.Machine.execWireVersionV1 s
  | .wireVersionV2 => Sys2Proof.Machine.execWireVersionV2 s
  | .wireRangesetSingle id => Sys2Proof.Machine.execWireRangesetSingle id s
  | .wireRangesetRange lo hi => Sys2Proof.Machine.execWireRangesetRange lo hi s
  | .wireRangesetCount n => Sys2Proof.Machine.execWireRangesetCount n s
  | .wireVendorsecBitmap m => Sys2Proof.Machine.execWireVendorsecBitmap m s
  | .wireVendorsecRange m => Sys2Proof.Machine.execWireVendorsecRange m s
  | .wireV1VendorsBitmap m => Sys2Proof.Machine.execWireV1VendorsBitmap m s
  | .wireV1VendorsRange m b => Sys2Proof.Machine.execWireV1VendorsRange m b s
  | .wirePubrestrEntry p t => Sys2Proof.Machine.execWirePubrestrEntry p t s
  | .wireRtypeNotallowed => Sys2Proof.Machine.execWireRtypeNotallowed s
  | .wireRtypeRequireconsent => Sys2Proof.Machine.execWireRtypeRequireconsent s
  | .wireRtypeRequireli => Sys2Proof.Machine.execWireRtypeRequireli s
  | .wireRtypeUndefined => Sys2Proof.Machine.execWireRtypeUndefined s
  | .wireSegtagDisclosed => Sys2Proof.Machine.execWireSegtagDisclosed s
  | .wireSegtagAllowed => Sys2Proof.Machine.execWireSegtagAllowed s
  | .wireSegtagPublishertc => Sys2Proof.Machine.execWireSegtagPublishertc s
  | .wireSegtagInvalid000 => Sys2Proof.Machine.execWireSegtagInvalid000 s
  | .wireSegtagInvalid100 => Sys2Proof.Machine.execWireSegtagInvalid100 s
  | .wireSegtagInvalid101 => Sys2Proof.Machine.execWireSegtagInvalid101 s
  | .wireSegtagInvalid110 => Sys2Proof.Machine.execWireSegtagInvalid110 s
  | .wireSegtagInvalid111 => Sys2Proof.Machine.execWireSegtagInvalid111 s
  | .wireLetter v => Sys2Proof.Machine.execWireLetter v s

end Sys2Proof.Machine
end

