-- ==== Sys2Proof/Machine/HostPort.lean ====
section
/-! DEFINITION. The host's accesses (R52, R365): writes of the input state, the issue of a command by a write
of `CMD` (R34), reads, and the reset input (R360). -/

namespace Sys2Proof.Machine

/-! ## Reads -/

/-- A number, as a host read returns it. -/
def hostNumber {n : Nat} (v : BitVec n) : HostValue := .number v.toNat

/-- A set, as a host read returns it: its members in ascending order (R36). -/
def hostSet {n : Nat} (S : IdSet n) : HostValue := .members S.members

/-- A register of the record file (R43 to R48). -/
def Record.value (r : Record) : RecReg → HostValue
  | .kind => hostNumber r.kind
  | .createdAt => hostNumber r.createdAt
  | .updatedAt => hostNumber r.updatedAt
  | .cmpId => hostNumber r.cmpId
  | .cmpVersion => hostNumber r.cmpVersion
  | .consentScreen => hostNumber r.consentScreen
  | .consentLanguage i => hostNumber r.consentLanguage[i]
  | .vendorListVersion => hostNumber r.vendorListVersion
  | .purposesConsent => hostSet r.purposesConsent
  | .v1IsBlocklist => hostNumber r.v1IsBlocklist
  | .v1Vendors => hostSet r.v1Vendors
  | .tcfPolicyVersion => hostNumber r.tcfPolicyVersion
  | .isServiceSpecific => hostNumber r.isServiceSpecific
  | .useNonStandardStacks => hostNumber r.useNonStandardStacks
  | .specialFeatureOptIns => hostSet r.specialFeatureOptIns
  | .purposesLiTransparency => hostSet r.purposesLiTransparency
  | .purposeOneTreatment => hostNumber r.purposeOneTreatment
  | .publisherCountryCode i => hostNumber r.publisherCountryCode[i]
  | .vendorConsents => hostSet r.vendorConsents
  | .vendorLiConsents => hostSet r.vendorLiConsents
  | .disclosedVendors => hostSet r.disclosedVendors
  | .allowedVendors => hostSet r.allowedVendors
  | .publisherPurposesConsent => hostSet r.publisherPurposesConsent
  | .publisherPurposesLiTransparency => hostSet r.publisherPurposesLiTransparency
  | .customPurposesConsent => hostSet r.customPurposesConsent
  | .customPurposesLiTransparency => hostSet r.customPurposesLiTransparency

/-- Entry `i` of the restriction table; an entry at or above `PRCOUNT` is empty (R49). -/
def Results.prAt (r : Results) (i : Nat) : PrEntry := r.pr.getD i {}

/-- A result register (R37 to R49). -/
def Results.value (r : Results) : ResultReg → HostValue
  | .val => hostNumber r.val
  | .valty => hostNumber r.valty
  | .str i => hostNumber r.str[i]
  | .strlen => hostNumber r.strlen
  | .setr => hostSet r.setr
  | .cur => hostNumber r.cur
  | .maxid => hostNumber r.maxid
  | .sel => hostNumber r.sel
  | .segtype => hostNumber r.segtype
  | .ccount => hostNumber r.ccount
  | .record q => r.record.value q
  | .prcount => hostNumber r.prcount
  | .pr i =>
    let e := r.prAt i.toNat
    .restriction e.purposeId.toNat e.rtype.toNat e.vendors.members

/-! ## Which registers an instance has -/

/-- Segment buffer `k` exists (R31). -/
def segExists (k : BitVec 8) : Bool := decide (k.toNat < Config.maxSegs)

/-- Byte `j` of segment buffer `k` exists (R31). -/
def byteExists (k : BitVec 8) (j : BitVec 29) : Bool :=
  segExists k && decide (j.toNat < Config.maxSegBytes)

/-- A result register exists: the restriction table has entries 0 to 4094 (R49). -/
def ResultReg.present : ResultReg → Bool
  | .pr i => decide (i.toNat < 4095)
  | .val | .valty | .str _ | .strlen | .setr | .cur | .maxid | .sel | .segtype | .ccount
  | .record _ | .prcount => true

/-- A register exists in this instance. -/
def HostReg.present : HostReg → Bool
  | .seg k j => byteExists k j
  | .segLen k => segExists k
  | .result r => r.present
  | .nseg | .cmd | .status => true

/-! ## The accesses -/

/-- What a read returns and the state after it. While `BUSY = 1` a result register reads as a free value
(R371; log entry 7); `STATUS` always reads as it is, `CMD` reads as zero (R34). DESIGN CHOICE: a byte of `SEG` at or
beyond `SEGLEN[k]`, or of a buffer `k >= NSEG`, reads as the host last wrote it, where the spec allows any value
(93_implementation_defined.md U13; log entry 25). -/
def State.readReg (s : State) (r : HostReg) : HostValue × State :=
  match r with
  | .seg k j => (hostNumber (s.inp.byte k.toNat j.toNat), s)
  | .segLen k => (.number (s.inp.len k.toNat), s)
  | .nseg => (hostNumber s.inp.nseg, s)
  | .cmd => (.number 0, s)
  | .status => (hostNumber s.status, s)
  | .result q =>
    if s.busy then (Config.busyRead s.busyReads, { s with busyReads := s.busyReads + 1 })
    else (s.res.value q, s)

/-- A host read: the value returned is kept in `readback` (log entry 6). -/
def State.hostRead (s : State) (r : HostReg) : Host.Outcome State Fault Refusal :=
  if r.present then .next { (s.readReg r).2 with readback := some (s.readReg r).1 }
  else .fault .noSuchRegister

/-- A write of `SEG[k][j]` (R31, R52). -/
def State.writeSeg (s : State) (k : BitVec 8) (j : BitVec 29) (b : Byte) : State :=
  { s with inp :=
    { s.inp with mem := Memory.write s.inp.epoch s.inp.mem (byteAddress k.toNat j.toNat) b } }

/-- A write of `SEGLEN[k]`; a value above `MAX_SEG_BYTES` is ignored (R32). -/
def State.writeSegLen (s : State) (k : BitVec 8) (v : BitVec 30) : State :=
  if Config.maxSegBytes < v.toNat then s
  else { s with inp := { s.inp with segLen := s.inp.segLen.set k.toNat v k.isLt } }

/-- A write of `NSEG`; a value above `MAX_SEGS` is ignored (R33). -/
def State.writeNseg (s : State) (v : BitVec 9) : State :=
  if Config.maxSegs < v.toNat then s else { s with inp := { s.inp with nseg := v } }

/-- The command that `CMD` holds: a word of the table runs as its instruction, any other word is rejected
(R34, R120, R332). -/
def State.runCmd (s : State) : Host.Outcome State Fault Refusal :=
  match decodeWord s.cmd with
  | .ok i => exec i s
  | .error _ => .next s.reject

/-- A write of `CMD` is the issue of a command (R34). -/
def State.issue (s : State) (w : Word64) : Host.Outcome State Fault Refusal :=
  { s with cmd := w }.runCmd

/-- A host write of `SEG`, `SEGLEN`, `NSEG` or `CMD`: refused while `BUSY = 1` (R91, R371; log entry 7), a
fault where the instance has no such register (log entry 8). -/
def State.hostWrite (s : State) (present : Bool) (result : Host.Outcome State Fault Refusal) :
    Host.Outcome State Fault Refusal :=
  if s.busy then .refused .hostWriteWhileBusy
  else if present then result
  else .fault .noSuchRegister

/-- One access of the host. A write to a read-only register is ignored, busy or not (R52). -/
def State.hostAccess (s : State) : HostAccess → Host.Outcome State Fault Refusal
  | .writeSeg k j b => s.hostWrite (byteExists k j) (.next (s.writeSeg k j b))
  | .writeSegLen k v => s.hostWrite (segExists k) (.next (s.writeSegLen k v))
  | .writeNseg v => s.hostWrite true (.next (s.writeNseg v))
  | .writeCmd w => s.hostWrite true (s.issue w)
  | .writeStatus _ => .next s
  | .writeResult r _ => if r.present then .next s else .fault .noSuchRegister
  | .read r => s.hostRead r
  | .reset => .next s.pulseReset

/-- One step: the oldest host access, if any; with none the block is idle and holds its state (R351). -/
def State.advance (s : State) : Host.Outcome State Fault Refusal :=
  match s.host with
  | [] => .next s
  | a :: rest => { s with host := rest }.hostAccess a

/-- `s` with an idle block (`BUSY = 0`) and a write of `CMD` as the host's next access. -/
def State.withCommand (s : State) (w : Word64) : State :=
  { s with
    status := s.status &&& 0xFE
    host := .writeCmd w :: s.host }

end Sys2Proof.Machine
end

