-- ==== Sys2Proof/Machine/Step.lean ====
section
/-! DEFINITION. One step of the machine, and where its next instruction is fetched from. -/

namespace Sys2Proof.Machine

/-- One step: one access of the host; a write of `CMD` executes a whole command (R7, R34, R380). -/
def step (s : State) : Host.Outcome State Fault Refusal := s.advance

/-- `s` with a table word where `step` fetches its next instruction: the host's next access writes it to
`CMD` (R34). Every bit above `nbits` is zero. Log entries 5 and 15. -/
def State.withFetchWord (s : State) (nbits w : Nat) : State :=
  s.withCommand (BitVec.ofNat 64 (w % 2 ^ nbits))

end Sys2Proof.Machine
end

