-- ==== Sys2Proof/Format.lean ====
section
/-! DEFINITION. The wire formats as data (Part B of 30_encoding.md): what a well-formed element is, which
bits stand for it, and which record it stands for. The block has no encoder (R5); this is the vocabulary in which
the statements say what the decoders must do. -/

namespace Sys2Proof.Format

/-! ## Range-sets (R137 to R139, R218) -/

/-- An entry of a range-set. -/
inductive RangeItem where
  | single (id : BitVec 16)
  | range (lo hi : BitVec 16)
  deriving DecidableEq, Repr

/-- The bits of an entry: 17 or 33 (R138, R139). -/
def RangeItem.bits : RangeItem → List Bool
  | .single id => encodeWire (.wireRangesetSingle id)
  | .range lo hi => encodeWire (.wireRangesetRange lo hi)

/-- The IDs an entry stands for (R215): inclusive on both ends, none when `lo > hi` (R218). -/
def RangeItem.covers (e : RangeItem) (i : Nat) : Prop :=
  match e with
  | .single id => i = id.toNat
  | .range lo hi => lo.toNat ≤ i ∧ i ≤ hi.toNat

/-- The bits of a range-set (R137): its count, then its entries. -/
def rangeSetBits (items : List RangeItem) : List Bool :=
  encodeWire (.wireRangesetCount (BitVec.ofNat 12 items.length)) ++ items.flatMap RangeItem.bits

/-- The IDs of a range-set (R215). -/
def rangeSetCovers (items : List RangeItem) (i : Nat) : Prop := ∃ e ∈ items, e.covers i

/-! ## Bitmaps (R136) -/

/-- The IDs of a bitmap given as its flags: the 1-based positions of the set ones. -/
def flagsCover (flags : List Bool) (i : Nat) : Prop := 1 ≤ i ∧ flags[i - 1]? = some true

/-! ## Vendor sections (R140) -/

/-- A polymorphic vendor section. -/
inductive VendorData where
  | bitmap (flags : List Bool)
  | range (maxId : BitVec 16) (items : List RangeItem)
  deriving DecidableEq, Repr

/-- The counts fit their fields. -/
def VendorData.fits : VendorData → Prop
  | .bitmap flags => flags.length < 65536
  | .range _ items => items.length < 4096

/-- The bits of a vendor section (R140). -/
def VendorData.bits : VendorData → List Bool
  | .bitmap flags => encodeWire (.wireVendorsecBitmap (BitVec.ofNat 16 flags.length)) ++ flags
  | .range maxId items => encodeWire (.wireVendorsecRange maxId) ++ rangeSetBits items

/-- The IDs of a vendor section (R221). -/
def VendorData.covers (v : VendorData) (i : Nat) : Prop :=
  match v with
  | .bitmap flags => flagsCover flags i
  | .range _ items => rangeSetCovers items i

/-- The `max_id` field (R140). -/
def VendorData.maxId : VendorData → BitVec 16
  | .bitmap flags => BitVec.ofNat 16 flags.length
  | .range maxId _ => maxId

/-- The selector (R140). -/
def VendorData.sel : VendorData → BitVec 1
  | .bitmap _ => 0
  | .range _ _ => 1

/-! ## Publisher restrictions (R141, R142) -/

/-- A publisher-restriction entry; `pad` holds the ignored bits. -/
structure RestrictionData where
  purposeId : BitVec 6
  rtype : BitVec 2
  pad : List Bool
  items : List RangeItem
  deriving DecidableEq, Repr

/-- The counts fit their fields and there are `PR_PAD` ignored bits. -/
def RestrictionData.fits (r : RestrictionData) : Prop :=
  r.pad.length = Config.prPad ∧ r.items.length < 4096

/-- The bits of an entry (R142). -/
def RestrictionData.bits (r : RestrictionData) : List Bool :=
  encodeWire (.wirePubrestrEntry r.purposeId r.rtype) ++ r.pad ++ rangeSetBits r.items

/-- The table entry that stands for it (R49). -/
structure RestrictionData.Matches (r : RestrictionData) (e : Machine.PrEntry) : Prop where
  purposeId : e.purposeId.toNat = r.purposeId.toNat
  rtype : e.rtype = r.rtype
  vendors : ∀ i, e.vendors.mem i = true ↔ rangeSetCovers r.items i

/-- The bits of a publisher-restriction section (R141). -/
def restrictionBits (l : List RestrictionData) : List Bool :=
  fieldBits (BitVec.ofNat 12 l.length) ++ l.flatMap RestrictionData.bits

/-! ## Optional segments (R144 to R146) -/

/-- A Publisher TC payload (R146). -/
structure PubTcData where
  consent : List Bool
  li : List Bool
  customConsent : List Bool
  customLi : List Bool
  deriving DecidableEq, Repr

/-- Two bitmaps of 24 flags, two of `custom_count` flags. -/
def PubTcData.fits (t : PubTcData) : Prop :=
  t.consent.length = 24 ∧ t.li.length = 24 ∧ t.customLi.length = t.customConsent.length ∧
    t.customConsent.length < 64

/-- The bits after the tag (R146). -/
def PubTcData.bits (t : PubTcData) : List Bool :=
  t.consent ++ t.li ++ fieldBits (BitVec.ofNat 6 t.customConsent.length) ++ t.customConsent ++
    t.customLi

/-- An optional segment. -/
inductive SegmentData where
  | disclosed (v : VendorData)
  | allowed (v : VendorData)
  | publisherTc (t : PubTcData)
  deriving DecidableEq, Repr

/-- The payload fits its fields. -/
def SegmentData.fits : SegmentData → Prop
  | .disclosed v => v.fits
  | .allowed v => v.fits
  | .publisherTc t => t.fits

/-- The bits of an optional segment (R144 to R146). -/
def SegmentData.bits : SegmentData → List Bool
  | .disclosed v => encodeWire .wireSegtagDisclosed ++ v.bits
  | .allowed v => encodeWire .wireSegtagAllowed ++ v.bits
  | .publisherTc t => encodeWire .wireSegtagPublishertc ++ t.bits

/-- The last Disclosed Vendors segment of a list (R246). -/
def lastDisclosed (l : List SegmentData) : Option VendorData :=
  (l.filterMap fun | .disclosed v => some v | .allowed _ => none | .publisherTc _ => none).getLast?

/-- The last Allowed Vendors segment of a list (R246). -/
def lastAllowed (l : List SegmentData) : Option VendorData :=
  (l.filterMap fun | .allowed v => some v | .disclosed _ => none | .publisherTc _ => none).getLast?

/-- The last Publisher TC segment of a list (R246). -/
def lastPublisherTc (l : List SegmentData) : Option PubTcData :=
  (l.filterMap fun | .publisherTc t => some t | .disclosed _ => none | .allowed _ => none).getLast?

/-- The IDs of an optional vendor section: none when the segment is absent (R286). -/
def coversOption (v : Option VendorData) (i : Nat) : Prop := ∃ d, v = some d ∧ d.covers i

/-- The IDs of an optional bitmap: none when the segment is absent (R286). -/
def flagsCoverOption (t : Option PubTcData) (get : PubTcData → List Bool) (i : Nat) : Prop :=
  ∃ d, t = some d ∧ flagsCover (get d) i

/-! ## Two-letter codes (R147) -/

/-- A two-letter code by its two letter values. -/
structure Letters where
  first : BitVec 6
  second : BitVec 6
  deriving DecidableEq, Repr

/-- Both values are letters. -/
def Letters.fits (l : Letters) : Prop := l.first.toNat ≤ 25 ∧ l.second.toNat ≤ 25

/-- The bits of a two-letter code. -/
def Letters.bits (l : Letters) : List Bool :=
  encodeWire (.wireLetter l.first) ++ encodeWire (.wireLetter l.second)

/-- The ASCII codes of a two-letter code. -/
def Letters.ascii (l : Letters) : Vector Byte 2 :=
  #v[0x41 + l.first.setWidth 8, 0x41 + l.second.setWidth 8]

/-! ## V1 records (R132, R133) -/

/-- The vendor block of a V1 record (R133). -/
inductive V1VendorData where
  | bitmap (flags : List Bool)
  | range (maxId : BitVec 16) (blocklist : BitVec 1) (items : List RangeItem)
  deriving DecidableEq, Repr

/-- The counts fit their fields. -/
def V1VendorData.fits : V1VendorData → Prop
  | .bitmap flags => flags.length < 65536
  | .range _ _ items => items.length < 4096

/-- The bits of the vendor block, from `max_vendor_id` on (R133). -/
def V1VendorData.bits : V1VendorData → List Bool
  | .bitmap flags => encodeWire (.wireV1VendorsBitmap (BitVec.ofNat 16 flags.length)) ++ flags
  | .range maxId b items => encodeWire (.wireV1VendorsRange maxId b) ++ rangeSetBits items

/-- The IDs of the vendor block (R264). -/
def V1VendorData.covers (v : V1VendorData) (i : Nat) : Prop :=
  match v with
  | .bitmap flags => flagsCover flags i
  | .range _ _ items => rangeSetCovers items i

/-- `is_blocklist`: false in bitmap mode (R133). -/
def V1VendorData.blocklist : V1VendorData → BitVec 1
  | .bitmap _ => 0
  | .range _ b _ => b

/-- The fields of a V1 buffer (R132). -/
structure V1Data where
  createdAt : BitVec 36
  updatedAt : BitVec 36
  cmpId : BitVec 12
  cmpVersion : BitVec 12
  consentScreen : BitVec 6
  consentLanguage : Letters
  vendorListVersion : BitVec 12
  purposesConsent : List Bool
  vendors : V1VendorData
  deriving DecidableEq, Repr

/-- The counts fit their fields and the letters are letters. -/
def V1Data.fits (d : V1Data) : Prop :=
  d.consentLanguage.fits ∧ d.purposesConsent.length = 24 ∧ d.vendors.fits

/-- The bits of a V1 buffer (R132, R133). -/
def V1Data.bits (d : V1Data) : List Bool :=
  encodeWire .wireVersionV1 ++ fieldBits d.createdAt ++ fieldBits d.updatedAt ++ fieldBits d.cmpId ++
    fieldBits d.cmpVersion ++ fieldBits d.consentScreen ++ d.consentLanguage.bits ++
    fieldBits d.vendorListVersion ++ d.purposesConsent ++ d.vendors.bits

/-- The record a V1 buffer stands for (R261): every register of the record file. -/
structure V1Data.Matches (d : V1Data) (r : Machine.Record) : Prop where
  kind : r.kind = 1
  createdAt : r.createdAt.toNat = d.createdAt.toNat
  updatedAt : r.updatedAt.toNat = d.updatedAt.toNat
  cmpId : r.cmpId = d.cmpId
  cmpVersion : r.cmpVersion = d.cmpVersion
  consentScreen : r.consentScreen = d.consentScreen
  consentLanguage : r.consentLanguage = d.consentLanguage.ascii
  vendorListVersion : r.vendorListVersion = d.vendorListVersion
  purposesConsent : ∀ i, r.purposesConsent.mem i = true ↔ flagsCover d.purposesConsent i
  v1IsBlocklist : r.v1IsBlocklist = d.vendors.blocklist
  v1Vendors : ∀ i, r.v1Vendors.mem i = true ↔ d.vendors.covers i
  /-- The registers of the V2 variant stay at their reset values (R43). -/
  v2 : r = { kind := r.kind, createdAt := r.createdAt, updatedAt := r.updatedAt, cmpId := r.cmpId,
             cmpVersion := r.cmpVersion, consentScreen := r.consentScreen,
             consentLanguage := r.consentLanguage, vendorListVersion := r.vendorListVersion,
             purposesConsent := r.purposesConsent, v1IsBlocklist := r.v1IsBlocklist,
             v1Vendors := r.v1Vendors }

/-! ## V2 cores (R134, R135) -/

/-- The fields of a V2 core (R134, R135). -/
structure V2Data where
  createdAt : BitVec 36
  updatedAt : BitVec 36
  cmpId : BitVec 12
  cmpVersion : BitVec 12
  consentScreen : BitVec 6
  consentLanguage : Letters
  vendorListVersion : BitVec 12
  tcfPolicyVersion : BitVec 6
  isServiceSpecific : BitVec 1
  useNonStandardStacks : BitVec 1
  specialFeatureOptIns : List Bool
  purposesConsent : List Bool
  purposesLiTransparency : List Bool
  purposeOneTreatment : BitVec 1
  publisherCountryCode : Letters
  vendorConsents : VendorData
  vendorLiConsents : VendorData
  restrictions : List RestrictionData
  deriving DecidableEq, Repr

/-- The counts fit their fields and the letters are letters. -/
def V2Data.fits (d : V2Data) : Prop :=
  d.consentLanguage.fits ∧ d.specialFeatureOptIns.length = 12 ∧ d.purposesConsent.length = 24 ∧
    d.purposesLiTransparency.length = 24 ∧ d.publisherCountryCode.fits ∧ d.vendorConsents.fits ∧
    d.vendorLiConsents.fits ∧ d.restrictions.length < 4096 ∧ ∀ r ∈ d.restrictions, r.fits

/-- The bits of a V2 core (R134, R135). -/
def V2Data.bits (d : V2Data) : List Bool :=
  encodeWire .wireVersionV2 ++ fieldBits d.createdAt ++ fieldBits d.updatedAt ++ fieldBits d.cmpId ++
    fieldBits d.cmpVersion ++ fieldBits d.consentScreen ++ d.consentLanguage.bits ++
    fieldBits d.vendorListVersion ++ fieldBits d.tcfPolicyVersion ++ fieldBits d.isServiceSpecific ++
    fieldBits d.useNonStandardStacks ++ d.specialFeatureOptIns ++ d.purposesConsent ++
    d.purposesLiTransparency ++ fieldBits d.purposeOneTreatment ++ d.publisherCountryCode.bits ++
    d.vendorConsents.bits ++ d.vendorLiConsents.bits ++ restrictionBits d.restrictions

/-- The record a V2 core with the optional segments `opt` stands for (R281): every register of the record file. -/
structure V2Data.Matches (d : V2Data) (opt : List SegmentData) (r : Machine.Record) : Prop where
  kind : r.kind = 2
  createdAt : r.createdAt.toNat = 100 * d.createdAt.toNat
  updatedAt : r.updatedAt.toNat = 100 * d.updatedAt.toNat
  cmpId : r.cmpId = d.cmpId
  cmpVersion : r.cmpVersion = d.cmpVersion
  consentScreen : r.consentScreen = d.consentScreen
  consentLanguage : r.consentLanguage = d.consentLanguage.ascii
  vendorListVersion : r.vendorListVersion = d.vendorListVersion
  purposesConsent : ∀ i, r.purposesConsent.mem i = true ↔ flagsCover d.purposesConsent i
  /-- The registers of the V1 variant stay at their reset values (R43). -/
  v1 : r.v1IsBlocklist = 0 ∧ r.v1Vendors = IdSet.empty
  tcfPolicyVersion : r.tcfPolicyVersion = d.tcfPolicyVersion
  isServiceSpecific : r.isServiceSpecific = d.isServiceSpecific
  useNonStandardStacks : r.useNonStandardStacks = d.useNonStandardStacks
  specialFeatureOptIns : ∀ i, r.specialFeatureOptIns.mem i = true ↔ flagsCover d.specialFeatureOptIns i
  purposesLiTransparency :
    ∀ i, r.purposesLiTransparency.mem i = true ↔ flagsCover d.purposesLiTransparency i
  purposeOneTreatment : r.purposeOneTreatment = d.purposeOneTreatment
  publisherCountryCode : r.publisherCountryCode = d.publisherCountryCode.ascii
  vendorConsents : ∀ i, r.vendorConsents.mem i = true ↔ d.vendorConsents.covers i
  vendorLiConsents : ∀ i, r.vendorLiConsents.mem i = true ↔ d.vendorLiConsents.covers i
  disclosedVendors : ∀ i, r.disclosedVendors.mem i = true ↔ coversOption (lastDisclosed opt) i
  allowedVendors : ∀ i, r.allowedVendors.mem i = true ↔ coversOption (lastAllowed opt) i
  publisherPurposesConsent : ∀ i, r.publisherPurposesConsent.mem i = true ↔
    flagsCoverOption (lastPublisherTc opt) PubTcData.consent i
  publisherPurposesLiTransparency : ∀ i, r.publisherPurposesLiTransparency.mem i = true ↔
    flagsCoverOption (lastPublisherTc opt) PubTcData.li i
  customPurposesConsent : ∀ i, r.customPurposesConsent.mem i = true ↔
    flagsCoverOption (lastPublisherTc opt) PubTcData.customConsent i
  customPurposesLiTransparency : ∀ i, r.customPurposesLiTransparency.mem i = true ↔
    flagsCoverOption (lastPublisherTc opt) PubTcData.customLi i

end Sys2Proof.Format
end

