-- ==== Sys2Proof/Safety.lean ====
section
/-! DEFINITION. What the statements speak of: what a buffer holds, the three ends of a command written out,
the illegal command words, and the invariant of the machine. -/

namespace Sys2Proof.Machine

/-! ## What a buffer holds -/

/-- Buffer `k` holds these bits from wire bit `s` on, within its capacity. -/
abbrev Input.holds (inp : Input) (k s : Nat) (bits : List Bool) : Prop :=
  s + bits.length ≤ inp.cap k ∧ ∀ i, (h : i < bits.length) → inp.wireBit k (s + i) = bits[i]

/-- The value of `read_bits` by its defining sum (R171). -/
def Input.bitSum (inp : Input) (k s n : Nat) : Nat :=
  ∑ i ∈ Finset.range n, (inp.wireBit k (s + i)).toNat * 2 ^ (n - 1 - i)

/-- The interior bytes `f + 1 .. f + m` of the procedure of R173, each shifted in whole. -/
def Input.interiorBytes (inp : Input) (k f : Nat) : (m acc : Nat) → Nat
  | 0, acc => acc
  | m + 1, acc => inp.interiorBytes k f m acc * 256 + (inp.byte k (f + m + 1)).toNat

/-- The procedure of R173: the first byte's remaining bits, whole interior bytes, the last byte's leading bits. -/
def Input.bytewise (inp : Input) (k s n : Nat) : Nat :=
  let f := s / 8
  let l := (s + n - 1) / 8
  let o := s % 8
  let t := 7 - (s + n - 1) % 8
  if n = 0 then 0
  else if f = l then ((inp.byte k f).toNat >>> t) &&& (2 ^ n - 1)
  else
    inp.interiorBytes k f (l - f - 1) ((inp.byte k f).toNat &&& (2 ^ (8 - o) - 1)) * 2 ^ (8 - t) +
      ((inp.byte k l).toNat >>> t)

/-- Two inputs hold the same loaded bytes: the same `NSEG`, and for every loaded buffer the same `SEGLEN`
and the same bytes below it (R15, R86). -/
def Input.sameLoaded (x y : Input) : Prop :=
  x.nseg = y.nseg ∧ ∀ k, k < x.nseg.toNat → x.len k = y.len k ∧ ∀ j, j < x.len k → x.byte k j = y.byte k j

/-- `y` is `x` with buffer `k` cut short: its `SEGLEN` is smaller, all else is as before. -/
def Input.truncates (x y : Input) (k : Nat) : Prop :=
  y.nseg = x.nseg ∧ (∀ k', k' ≠ k → y.len k' = x.len k') ∧ y.len k ≤ x.len k ∧
    ∀ k' j, y.byte k' j = x.byte k' j

/-- `y` holds in buffer 0 what `x` holds there, and in the buffers 1 and 2 what `x` holds in 2 and 1. -/
def Input.swapsOptional (x y : Input) : Prop :=
  x.nseg = y.nseg ∧ x.len 0 = y.len 0 ∧ x.len 1 = y.len 2 ∧ x.len 2 = y.len 1 ∧
    (∀ j, j < x.len 0 → x.byte 0 j = y.byte 0 j) ∧ (∀ j, j < x.len 1 → x.byte 1 j = y.byte 2 j) ∧
    ∀ j, j < x.len 2 → x.byte 2 j = y.byte 1 j

/-! ## The ends of a command, written out -/

/-- Success (R331): `STATUS` is `DONE`, the result registers are `r`, nothing else changes. -/
def afterSuccess (s : State) (r : Results) : State :=
  { s with status := 0x02, res := r, loc := {} }

/-- A decode error with this code (R330): `DONE`, `ERR` and `ERRCODE`; every result register at its reset value. -/
def afterError (s : State) (code : BitVec 4) : State :=
  { s with status := code ++ 0x6#4, res := {}, loc := {} }

/-- A command error (R332): `DONE` and `CMDERR`; every result register at its reset value. -/
def afterReject (s : State) : State :=
  { s with status := 0x0A, res := {}, loc := {} }

/-! ## Illegal command words -/

/-- The formats of R113 to R119. -/
inductive CommandFormat where
  | z | b | r | f | a | s | g
  deriving DecidableEq, Repr

/-- The thirteen operation codes with their formats (R112); `none` for a reserved code (R121). -/
def formatOf (op : Nat) : Option CommandFormat :=
  match op with
  | 0x01 | 0x20 | 0x21 | 0x22 => some .z
  | 0x10 => some .b
  | 0x11 | 0x14 => some .r
  | 0x12 => some .f
  | 0x13 => some .a
  | 0x15 | 0x16 | 0x17 => some .s
  | 0x18 => some .g
  | _ => none

/-- The tests of R120, item by item, on the fields of the word as numbers (R111) and on `NSEG`. -/
def illegalWord (nseg w : Nat) : Prop :=
  let op := w / 2 ^ 56
  let seg := w / 2 ^ 48 % 2 ^ 8
  let aux := w / 2 ^ 32 % 2 ^ 16
  let start := w % 2 ^ 32
  match formatOf op with
  | none => True
  | some .z => seg ≠ 0 ∨ aux ≠ 0 ∨ start ≠ 0 ∨ (op ≠ 0x01 ∧ nseg = 0)
  | some .b => aux ≠ 0 ∨ nseg ≤ seg
  | some .r => (op = 0x11 ∧ 64 < aux) ∨ nseg ≤ seg
  | some .f => aux / 2 ^ 10 ≠ 0 ∨ aux / 2 ^ 7 % 2 ≠ 0 ∨ 64 < aux % 2 ^ 7 ∨
      8 * 2 ^ (aux / 2 ^ 8 % 4) < aux % 2 ^ 7 ∨ nseg ≤ seg
  | some .a => 8 < aux / 2 ^ 8 ∨ aux % 2 ^ 8 = 0 ∨ 64 < aux % 2 ^ 8 ∨ nseg ≤ seg
  | some .s => aux ≠ 0 ∨ nseg ≤ seg
  | some .g => aux ≠ 0 ∨ start ≠ 0 ∨ nseg ≤ seg

/-! ## Which operation can end how (R328) -/

/-- The error codes an operation can end with (R328). A wire pattern ends with what can go wrong in the part
of the pseudocode that its step runs (R149; log entry 11); a version pattern is past the version test. -/
def errorCodes : Instr → List (BitVec 4)
  | .clr => []
  | .reqb _ _ | .rdb _ _ _ | .rdf _ _ _ _ | .rdfs _ _ _ | .rdrs _ _ | .rdvs _ _ | .rdpr _ _ => [1]
  | .rda _ _ _ _ => [1, 4]
  | .rdseg _ => [1, 6]
  | .decv1 => [1, 2, 4]
  | .decv2 | .dec => [1, 2, 4, 6]
  | .wireVersionV1 => [1, 4]
  | .wireVersionV2 => [1, 4, 6]
  | .wireRangesetSingle _ | .wireRangesetRange _ _ | .wireRangesetCount _ | .wireVendorsecBitmap _
  | .wireVendorsecRange _ | .wireV1VendorsBitmap _ | .wireV1VendorsRange _ _
  | .wirePubrestrEntry _ _ | .wireRtypeNotallowed | .wireRtypeRequireconsent | .wireRtypeRequireli
  | .wireRtypeUndefined | .wireSegtagDisclosed | .wireSegtagAllowed | .wireSegtagPublishertc => [1]
  | .wireSegtagInvalid000 | .wireSegtagInvalid100 | .wireSegtagInvalid101 | .wireSegtagInvalid110
  | .wireSegtagInvalid111 => [1, 6]
  | .wireLetter _ => [1, 4]

/-- The buffer that a command's `CUR` refers to (R40). -/
def cursorBuffer : Instr → Nat
  | .rdb seg _ _ | .rdf seg _ _ _ | .rda seg _ _ _ | .rdfs seg _ _ | .rdrs seg _ | .rdvs seg _
  | .rdpr seg _ | .rdseg seg | .reqb seg _ => seg.toNat
  | _ => 0

/-! ## How an optional segment fails -/

/-- Buffer `k`, which has a tag, holds no optional segment, and this is the error code: 6 for a tag other than 1, 2 and
3 (R242, R327), 1 for a payload that does not fit (R322). -/
def Input.segmentFails (inp : Input) (k : Nat) (code : BitVec 4) : Prop :=
  (inp.bitSum k 0 3 ∉ [1, 2, 3] ∧ code = 6) ∨
  (inp.bitSum k 0 3 ∈ [1, 2, 3] ∧
    (∀ e : Format.SegmentData, e.fits → ¬ inp.holds k 0 e.bits) ∧ code = 1)

/-! ## What a host reads -/

/-- `l` is the list of the members of a set, ascending and none twice (R36). -/
def Lists (l : List Nat) (mem : Nat → Bool) : Prop :=
  l.Pairwise (· < ·) ∧ ∀ i, i ∈ l ↔ mem i = true

/-- The set registers with their membership (R36, R39, R44 to R48). -/
def Results.setRegisters (r : Results) : List (ResultReg × (Nat → Bool)) :=
  [(.setr, r.setr.mem),
   (.record .purposesConsent, r.record.purposesConsent.mem),
   (.record .v1Vendors, r.record.v1Vendors.mem),
   (.record .specialFeatureOptIns, r.record.specialFeatureOptIns.mem),
   (.record .purposesLiTransparency, r.record.purposesLiTransparency.mem),
   (.record .vendorConsents, r.record.vendorConsents.mem),
   (.record .vendorLiConsents, r.record.vendorLiConsents.mem),
   (.record .disclosedVendors, r.record.disclosedVendors.mem),
   (.record .allowedVendors, r.record.allowedVendors.mem),
   (.record .publisherPurposesConsent, r.record.publisherPurposesConsent.mem),
   (.record .publisherPurposesLiTransparency, r.record.publisherPurposesLiTransparency.mem),
   (.record .customPurposesConsent, r.record.customPurposesConsent.mem),
   (.record .customPurposesLiTransparency, r.record.customPurposesLiTransparency.mem)]

/-- The numeric result registers with their values (R37, R38, R40 to R46, R49). -/
def Results.numberRegisters (r : Results) : List (ResultReg × Nat) :=
  [(.val, r.val.toNat), (.valty, r.valty.toNat),
   (.str 0, r.str[0].toNat), (.str 1, r.str[1].toNat), (.str 2, r.str[2].toNat),
   (.str 3, r.str[3].toNat), (.str 4, r.str[4].toNat), (.str 5, r.str[5].toNat),
   (.str 6, r.str[6].toNat), (.str 7, r.str[7].toNat), (.strlen, r.strlen.toNat),
   (.cur, r.cur.toNat), (.maxid, r.maxid.toNat), (.sel, r.sel.toNat),
   (.segtype, r.segtype.toNat), (.ccount, r.ccount.toNat), (.prcount, r.prcount.toNat),
   (.record .kind, r.record.kind.toNat),
   (.record .createdAt, r.record.createdAt.toNat),
   (.record .updatedAt, r.record.updatedAt.toNat),
   (.record .cmpId, r.record.cmpId.toNat),
   (.record .cmpVersion, r.record.cmpVersion.toNat),
   (.record .consentScreen, r.record.consentScreen.toNat),
   (.record (.consentLanguage 0), r.record.consentLanguage[0].toNat),
   (.record (.consentLanguage 1), r.record.consentLanguage[1].toNat),
   (.record .vendorListVersion, r.record.vendorListVersion.toNat),
   (.record .v1IsBlocklist, r.record.v1IsBlocklist.toNat),
   (.record .tcfPolicyVersion, r.record.tcfPolicyVersion.toNat),
   (.record .isServiceSpecific, r.record.isServiceSpecific.toNat),
   (.record .useNonStandardStacks, r.record.useNonStandardStacks.toNat),
   (.record .purposeOneTreatment, r.record.purposeOneTreatment.toNat),
   (.record (.publisherCountryCode 0), r.record.publisherCountryCode[0].toNat),
   (.record (.publisherCountryCode 1), r.record.publisherCountryCode[1].toNat)]

/-! ## The results of RDSEG -/

/-- The result registers of RDSEG for a segment, apart from its ID sets (R245). -/
structure SegmentResult (d : Format.SegmentData) (r : Results) : Prop where
  disclosed : ∀ v, d = .disclosed v →
    (∀ i, r.record.disclosedVendors.mem i = true ↔ v.covers i) ∧
    r = { segtype := 1, maxid := v.maxId, sel := v.sel, cur := BitVec.ofNat 40 d.bits.length
          record := { disclosedVendors := r.record.disclosedVendors } }
  allowed : ∀ v, d = .allowed v →
    (∀ i, r.record.allowedVendors.mem i = true ↔ v.covers i) ∧
    r = { segtype := 2, maxid := v.maxId, sel := v.sel, cur := BitVec.ofNat 40 d.bits.length
          record := { allowedVendors := r.record.allowedVendors } }
  publisherTc : ∀ t, d = .publisherTc t →
    (∀ i, r.record.publisherPurposesConsent.mem i = true ↔ Format.flagsCover t.consent i) ∧
    (∀ i, r.record.publisherPurposesLiTransparency.mem i = true ↔ Format.flagsCover t.li i) ∧
    (∀ i, r.record.customPurposesConsent.mem i = true ↔ Format.flagsCover t.customConsent i) ∧
    (∀ i, r.record.customPurposesLiTransparency.mem i = true ↔ Format.flagsCover t.customLi i) ∧
    r = { segtype := 3, ccount := BitVec.ofNat 6 t.customConsent.length
          cur := BitVec.ofNat 40 d.bits.length
          record :=
            { publisherPurposesConsent := r.record.publisherPurposesConsent
              publisherPurposesLiTransparency := r.record.publisherPurposesLiTransparency
              customPurposesConsent := r.record.customPurposesConsent
              customPurposesLiTransparency := r.record.customPurposesLiTransparency } }

/-! ## The invariant -/

/-- The members of a set lie in `lo .. hi`. -/
def Within {n : Nat} (S : IdSet n) (lo hi : Nat) : Prop := ∀ i, S.mem i = true → lo ≤ i ∧ i ≤ hi

/-- Both bytes are ASCII letters (R44). -/
def TwoLetters (v : Vector Byte 2) : Prop :=
  0x41 ≤ v[0].toNat ∧ v[0].toNat ≤ 0x5A ∧ 0x41 ≤ v[1].toNat ∧ v[1].toNat ≤ 0x5A

/-- What the record file always satisfies (R43 to R48). -/
structure Record.Shaped (r : Record) : Prop where
  kind : r.kind.toNat ≤ 2
  createdAt : r.createdAt.toNat < 2 ^ 43
  updatedAt : r.updatedAt.toNat < 2 ^ 43
  consentLanguage : r.kind ≠ 0 → TwoLetters r.consentLanguage
  publisherCountryCode : r.kind = 2 → TwoLetters r.publisherCountryCode
  purposesConsent : Within r.purposesConsent 1 24
  specialFeatureOptIns : Within r.specialFeatureOptIns 1 12
  purposesLiTransparency : Within r.purposesLiTransparency 1 24
  publisherPurposesConsent : Within r.publisherPurposesConsent 1 24
  publisherPurposesLiTransparency : Within r.publisherPurposesLiTransparency 1 24
  customPurposesConsent : Within r.customPurposesConsent 1 63
  customPurposesLiTransparency : Within r.customPurposesLiTransparency 1 63
  /-- Fields of the V1 variant hold a value only in a V1 record (R43, R45). -/
  v1Only : r.kind ≠ 1 → r.v1IsBlocklist = 0 ∧ r.v1Vendors = IdSet.empty
  /-- The core fields of the V2 variant hold a value only in a V2 record (R43, R46, R47). -/
  v2Only : r.kind ≠ 2 → r.tcfPolicyVersion = 0 ∧ r.isServiceSpecific = 0 ∧
    r.useNonStandardStacks = 0 ∧ r.specialFeatureOptIns = IdSet.empty ∧
    r.purposesLiTransparency = IdSet.empty ∧ r.purposeOneTreatment = 0 ∧
    r.publisherCountryCode = #v[0, 0] ∧ r.vendorConsents = IdSet.empty ∧
    r.vendorLiConsents = IdSet.empty

/-- What the result registers always satisfy (R38, R40, R42, R49). -/
structure Results.Shaped (r : Results) : Prop where
  strlen : r.strlen.toNat ≤ 8
  letters : ∀ i : Fin 8, if i.val < r.strlen.toNat then 0x41 ≤ r.str[i].toNat ∧ r.str[i].toNat ≤ 0x5A
    else r.str[i] = 0
  cur : r.cur.toNat ≤ 2 ^ 32
  segtype : r.segtype.toNat ≤ 3
  record : r.record.Shaped
  prCount : r.pr.length = r.prcount.toNat
  purposeIds : ∀ e ∈ r.pr, e.purposeId.toNat < 64

/-- The values of `STATUS` that a host can observe (R35, R321): reset, success, command error, and the
four errors the block can raise. -/
def observableStatus : List (BitVec 8) := [0x00, 0x02, 0x0A, 0x16, 0x26, 0x46, 0x66]

/-- The invariant of the machine between steps. -/
structure Invariant (s : State) : Prop where
  /-- The buffer memory keeps its canonical form. -/
  memory : Memory.wf s.inp.epoch s.inp.mem
  /-- Every listed cell is a byte that the instance has (R31). -/
  cells : ∀ c ∈ s.inp.mem, ∃ k j, k < Config.maxSegs ∧ j < Config.maxSegBytes ∧
    c.1 = byteAddress k j
  /-- Legal lengths (R32). -/
  lengths : ∀ k, s.inp.len k ≤ Config.maxSegBytes
  /-- An instance has `MAX_SEGS` buffers (R31). -/
  absent : ∀ k, Config.maxSegs ≤ k → s.inp.len k = 0
  /-- A legal segment count (R33). -/
  loaded : s.inp.nseg.toNat ≤ Config.maxSegs
  /-- A host observes one of seven values of `STATUS`, none with `BUSY` set (R35). -/
  status : s.status ∈ observableStatus
  /-- Without success the result registers are at their reset values (R53). -/
  cleared : s.status ≠ 0x02 → s.res = {}
  /-- The local values exist only while a command executes (R57). -/
  locals : s.loc = {}
  results : s.res.Shaped

end Sys2Proof.Machine
end

