-- ==== Sys2Proof/Certificates/Slice0/Obligations.lean ====
section
/-! DEFINITION. The statements for the provers. -/

open Sys2Proof Sys2Proof.Machine Sys2Proof.Format

/-! ## Encodings -/

/-- For every row of the opcode table, decoding its encoding in its context gives the row's instruction back
and leaves the bits after it (R110 to R119, R131 to R147). -/
def Obligations.DecodeInvertsEncode : Prop :=
  ∀ (i : Instr) (rest : List Bool), decode i.kind (encode i ++ rest) = .ok (i, rest)

/-- A command word that decodes is the encoding of what it decodes to, so it has one meaning and no bit of it is
dropped (R122). -/
def Obligations.CommandWordHasOneMeaning : Prop :=
  ∀ (w : Word64) (i : Instr), decodeWord w = .ok i → encodeWord i = some w

/-- Command words written in the worked examples of the rules decode to the commands they stand for
(R177, R178, R192, R196, R208, R225, R226, R278, R245, R306, R308). -/
def Obligations.SampleWordsDecode : Prop :=
  decodeWord 0x0100000000000000 = .ok .clr ∧
  decodeWord 0x10000000000000D0 = .ok (.reqb 0 208) ∧
  decodeWord 0x1100000C0000004E = .ok (.rdb 0 78 12) ∧
  decodeWord 0x1200010C0000004E = .ok (.rdf 0 78 12 1) ∧
  decodeWord 0x130002060000006C = .ok (.rda 0 108 2 6) ∧
  decodeWord 0x1400001800000084 = .ok (.rdfs 0 132 24) ∧
  decodeWord 0x15000000000000AE = .ok (.rdrs 0 174) ∧
  decodeWord 0x16000000000000D5 = .ok (.rdvs 0 213) ∧
  decodeWord 0x1700000000000139 = .ok (.rdpr 0 313) ∧
  decodeWord 0x1801000000000000 = .ok (.rdseg 1) ∧
  decodeWord 0x2200000000000000 = .ok .dec

/-- R121: every operation code outside the thirteen of R112 is illegal, whatever the other fields hold. -/
def Obligations.ReservedOpsAreIllegal : Prop :=
  ∀ (w : Word64) (s : State) (rest : List HostAccess), formatOf (w.toNat / 2 ^ 56) = none →
    s.busy = false → s.host = .writeCmd w :: rest →
    decodeWord w = .error (.reservedOp (w.extractLsb' 56 8)) ∧
      step s = .next (afterReject { s with host := rest, cmd := w })

/-- R120 and R332: a word that one of the five tests of R120 finds illegal is rejected, whatever the
buffers hold. -/
def Obligations.IllegalWordsAreRejected : Prop :=
  ∀ (w : Word64) (s : State) (rest : List HostAccess), illegalWord s.inp.nseg.toNat w.toNat →
    s.busy = false → s.host = .writeCmd w :: rest →
    step s = .next (afterReject { s with host := rest, cmd := w })

/-- The converse: a word that passes the five tests of R120 completes without a command error. -/
def Obligations.LegalWordsAreNotRejected : Prop :=
  ∀ (w : Word64) (s : State) (rest : List HostAccess), ¬ illegalWord s.inp.nseg.toNat w.toNat →
    s.busy = false → s.host = .writeCmd w :: rest →
    ∃ t, step s = .next t ∧ t.cmdErr = false ∧ t.done = true ∧ t.busy = false

/-! ## The step, reset and the host's accesses -/

/-- A write of `CMD` with a word that decodes to `i` runs `i`; around `exec` the step takes the access from
the queue and holds the word in `CMD` (R34). -/
def Obligations.StepRunsDecodedCommand : Prop :=
  ∀ (w : Word64) (i : Instr) (s : State) (rest : List HostAccess), s.host = .writeCmd w :: rest →
    s.busy = false → decodeWord w = .ok i →
    step s = exec i { s with host := rest, cmd := w }

/-- R54: the reset state. Lengths, counts, `CMD`, `STATUS` and every result register are 0 or empty, register by
register; they are also what `{}` stands for in the other statements. That no host access is pending and the
other fields of the model's own are log entries 3, 5, 6, 7 and 10. -/
def Obligations.ResetStateIsAllZero : Prop :=
  State.reset.inp.nseg = 0 ∧ (∀ k, State.reset.inp.len k = 0) ∧ State.reset.cmd = 0 ∧
  State.reset.status = 0 ∧ State.reset.res = {} ∧ State.reset.res.val = 0 ∧
  State.reset.res.valty = 0 ∧ State.reset.res.str = #v[0, 0, 0, 0, 0, 0, 0, 0] ∧
  State.reset.res.strlen = 0 ∧ (∀ i, State.reset.res.setr.mem i = false) ∧
  State.reset.res.cur = 0 ∧ State.reset.res.maxid = 0 ∧ State.reset.res.sel = 0 ∧
  State.reset.res.segtype = 0 ∧ State.reset.res.ccount = 0 ∧
  State.reset.res.record.kind = 0 ∧ State.reset.res.record.createdAt = 0 ∧
  State.reset.res.record.updatedAt = 0 ∧ State.reset.res.record.cmpId = 0 ∧
  State.reset.res.record.cmpVersion = 0 ∧ State.reset.res.record.consentScreen = 0 ∧
  State.reset.res.record.consentLanguage = #v[0, 0] ∧
  State.reset.res.record.vendorListVersion = 0 ∧
  (∀ i, State.reset.res.record.purposesConsent.mem i = false) ∧
  State.reset.res.record.v1IsBlocklist = 0 ∧
  (∀ i, State.reset.res.record.v1Vendors.mem i = false) ∧
  State.reset.res.record.tcfPolicyVersion = 0 ∧ State.reset.res.record.isServiceSpecific = 0 ∧
  State.reset.res.record.useNonStandardStacks = 0 ∧
  (∀ i, State.reset.res.record.specialFeatureOptIns.mem i = false) ∧
  (∀ i, State.reset.res.record.purposesLiTransparency.mem i = false) ∧
  State.reset.res.record.purposeOneTreatment = 0 ∧
  State.reset.res.record.publisherCountryCode = #v[0, 0] ∧
  (∀ i, State.reset.res.record.vendorConsents.mem i = false) ∧
  (∀ i, State.reset.res.record.vendorLiConsents.mem i = false) ∧
  (∀ i, State.reset.res.record.disclosedVendors.mem i = false) ∧
  (∀ i, State.reset.res.record.allowedVendors.mem i = false) ∧
  (∀ i, State.reset.res.record.publisherPurposesConsent.mem i = false) ∧
  (∀ i, State.reset.res.record.publisherPurposesLiTransparency.mem i = false) ∧
  (∀ i, State.reset.res.record.customPurposesConsent.mem i = false) ∧
  (∀ i, State.reset.res.record.customPurposesLiTransparency.mem i = false) ∧
  State.reset.res.prcount = 0 ∧ State.reset.res.pr = [] ∧
  ∀ i, (State.reset.res.prAt i).purposeId = 0 ∧ (State.reset.res.prAt i).rtype = 0 ∧
    ∀ j, (State.reset.res.prAt i).vendors.mem j = false

/-- R32: a host write of `SEGLEN[k]` is kept when the value is at most `MAX_SEG_BYTES` and ignored
when it is above; nothing else changes but the queue. -/
def Obligations.SegLenWriteKeepsLegalValues : Prop :=
  ∀ (k : BitVec 8) (v : BitVec 30) (s : State) (rest : List HostAccess),
    s.host = .writeSegLen k v :: rest → s.busy = false → k.toNat < Config.maxSegs →
    ∃ t, step s = .next t ∧
      t = { s with host := rest, inp := { s.inp with segLen := t.inp.segLen } } ∧
      t.inp.len k.toNat = (if v.toNat ≤ Config.maxSegBytes then v.toNat else s.inp.len k.toNat) ∧
      ∀ k', k' ≠ k.toNat → t.inp.len k' = s.inp.len k'

/-- R33: a host write of `NSEG` is kept when the value is at most `MAX_SEGS` and ignored when it is above. -/
def Obligations.NsegWriteKeepsLegalValues : Prop :=
  ∀ (v : BitVec 9) (s : State) (rest : List HostAccess),
    s.host = .writeNseg v :: rest → s.busy = false →
    step s = .next (if v.toNat ≤ Config.maxSegs
      then { s with host := rest, inp := { s.inp with nseg := v } } else { s with host := rest })

/-- A host write of `SEG[k][j]` is read back there, and every other byte of every buffer is as before
(R31, R52, R90). For the bytes at or beyond `SEGLEN[k]` and in buffers `k >= NSEG` this is the model's choice of log
entry 25. -/
def Obligations.SegWriteChangesOneByte : Prop :=
  ∀ (k : BitVec 8) (j : BitVec 29) (b : Byte) (s : State) (rest : List HostAccess),
    s.host = .writeSeg k j b :: rest → s.busy = false → k.toNat < Config.maxSegs →
    j.toNat < Config.maxSegBytes → Memory.wf s.inp.epoch s.inp.mem →
    ∃ t, step s = .next t ∧ t = { s with host := rest, inp := { s.inp with mem := t.inp.mem } } ∧
      t.inp.byte k.toNat j.toNat = b ∧
      ∀ k' j', j' < 2 ^ 29 → (k' ≠ k.toNat ∨ j' ≠ j.toNat) → t.inp.byte k' j' = s.inp.byte k' j'

/-- R52: a host write to a read-only register is ignored, busy or not. -/
def Obligations.ReadOnlyWritesAreIgnored : Prop :=
  ∀ (a : HostAccess) (s : State) (rest : List HostAccess), s.host = a :: rest →
    ((∃ v, a = .writeStatus v) ∨ ∃ r v, a = .writeResult r v ∧ r.present = true) →
    step s = .next { s with host := rest }

/-- R34: a host read of `CMD` returns zero, whatever the last command word was. -/
def Obligations.CmdReadsAsZero : Prop :=
  ∀ (s : State) (rest : List HostAccess), s.host = .read .cmd :: rest →
    step s = .next { s with host := rest, readback := some (.number 0) }

/-- A host read of `STATUS` returns its value at any time, busy or not (R371). -/
def Obligations.StatusReadsAsItIs : Prop :=
  ∀ (s : State) (rest : List HostAccess), s.host = .read .status :: rest →
    step s = .next { s with host := rest, readback := some (.number s.status.toNat) }

/-- R36: a host read of an ID set, `SETR` or a set of the record, returns its members in ascending order, none
twice. That the value read stands in `readback` is log entry 6. -/
def Obligations.SetReadsAscending : Prop :=
  ∀ (s : State) (rest : List HostAccess), ∀ p ∈ s.res.setRegisters,
    s.host = .read (.result p.1) :: rest → s.busy = false →
    ∃ l : List Nat, Lists l p.2 ∧
      step s = .next { s with host := rest, readback := some (.members l) }

/-- R49: restriction entries at and above `PRCOUNT` read as empty. -/
def Obligations.RestrictionsBeyondCountAreEmpty : Prop :=
  ∀ (i : BitVec 12) (s : State) (rest : List HostAccess), Invariant s →
    s.host = .read (.result (.pr i)) :: rest → s.res.prcount.toNat ≤ i.toNat → i.toNat < 4095 →
    step s = .next { s with host := rest, readback := some (.restriction 0 0 []) }

/-- R360 and R361: the reset input gives the reset state, also when a command is executing. The host's pending
accesses are not the block's and stay (log entry 5). -/
def Obligations.ResetInputResets : Prop :=
  ∀ (s : State) (rest : List HostAccess), s.host = .reset :: rest →
    ∃ t, step s = .next t ∧ t.inp.nseg = 0 ∧ (∀ k, t.inp.len k = 0) ∧ t.cmd = 0 ∧ t.status = 0 ∧
      t.res = {} ∧ t.loc = {} ∧ t.host = rest

/-- A host write while `BUSY = 1` has no meaning (R91): the model refuses it, by the model's choice of
log entry 7. -/
def Obligations.WritesWhileBusyAreRefused : Prop :=
  ∀ (a : HostAccess) (s : State) (rest : List HostAccess), s.host = a :: rest → s.busy = true →
    ((∃ k j b, a = .writeSeg k j b) ∨ (∃ k v, a = .writeSegLen k v) ∨ (∃ v, a = .writeNseg v) ∨
      ∃ w, a = .writeCmd w) →
    step s = .refused .hostWriteWhileBusy

/-- Between commands the block is idle and holds its state (R351): with no host access a step changes
nothing. That a step without an access exists is the model's choice of log entry 5. -/
def Obligations.IdleBlockHoldsItsState : Prop :=
  ∀ s : State, s.host = [] → step s = .next s

/-! ## Invariants and whole-machine rules -/

/-- The invariant holds of the reset state. -/
def Obligations.InvariantHoldsAtReset : Prop := Invariant State.reset

/-- Every step keeps the invariant: the buffer memory stays canonical, lengths and counts stay legal,
`STATUS` is one of seven values, and the result registers keep their shape. -/
def Obligations.EveryStepKeepsInvariant : Prop :=
  ∀ s t : State, Invariant s → step s = .next t → Invariant t

/-- Every instruction, from every state, answers a next state: no command hangs, and `read_bits` is never
evaluated outside its precondition (R372, R375). -/
def Obligations.EveryInstructionAnswersNext : Prop :=
  ∀ (i : Instr) (s : State), ∃ t, exec i s = .next t

/-- No instruction writes `SEG`, `SEGLEN`, `NSEG` or `CMD` (R52, R88), nor anything of the host's: only
`STATUS`, the result registers and the local values can change. -/
def Obligations.InstructionsWriteOnlyResults : Prop :=
  ∀ (i : Instr) (s t : State), exec i s = .next t →
    t = { s with status := t.status, res := t.res, loc := t.loc }

/-- A command ends in success, in a command error or in one of the errors that R328 lists for it; after an
error every result register is at its reset value (R53, R328, R330, R332). -/
def Obligations.CommandsEndAsListed : Prop :=
  ∀ (i : Instr) (s t : State), i.kind = .command → exec i s = .next t →
    t.loc = {} ∧
    (t.status = 0x02 ∨
      (t.res = {} ∧ (t.status = 0x0A ∨ ∃ c ∈ errorCodes i, t.status = c ++ 0x6#4)))

/-- How a wire pattern's own step ends. A pattern either leaves `STATUS` as it is or ends the decode with a command
error or with an error that its rules name, all results cleared (R149, R330); a version pattern decodes the rest
of the record, so it ends as a command does. That a pattern has a step of its own, its extent, its buffer and its
`STATUS` are the model's choices of log entries 10, 11, 12 and 16. -/
def Obligations.ElementsEndAsListed : Prop :=
  (∀ (i : Instr) (s t : State), i.kind ≠ .command → i.kind ≠ .version → exec i s = .next t →
    t.status = s.status ∨ t = afterReject s ∨ ∃ c ∈ errorCodes i, t = afterError s c) ∧
  ∀ (i : Instr) (s t : State), i.kind = .version → exec i s = .next t →
    (∃ r, t = afterSuccess s r) ∨ t = afterReject s ∨ ∃ c ∈ errorCodes i, t = afterError s c

/-- The state after a command is a function of the command, `NSEG`, `SEGLEN` and the loaded bytes alone (R7,
R86): two states that agree on those give the same results and the same `STATUS`. -/
def Obligations.CommandsReadOnlyLoadedBytes : Prop :=
  ∀ (i : Instr) (s s' t : State), i.kind = .command → s.inp.sameLoaded s'.inp → exec i s = .next t →
    ∃ t', exec i s' = .next t' ∧ t'.res = t.res ∧ t'.status = t.status

/-- Truncation (R322): when a command succeeds and its buffer is then cut below the cursor it
reached, the same command ends with `InsufficientLength` and all results cleared. -/
def Obligations.TruncationRaisesInsufficientLength : Prop :=
  ∀ (i : Instr) (s s' t : State), i.kind = .command → exec i s = .next t → t.status = 0x02 →
    s.inp.truncates s'.inp (cursorBuffer i) → s'.inp.cap (cursorBuffer i) < t.res.cur.toNat →
    exec i s' = .next (afterError s' 1)

/-- After a successful command `CUR <= cap(k)` for the buffer it refers to (R40, R95). -/
def Obligations.CursorStaysInItsBuffer : Prop :=
  ∀ (i : Instr) (s t : State), i.kind = .command → exec i s = .next t →
    t.res.cur.toNat ≤ s.inp.cap (cursorBuffer i)

/-! ## Bit Reader and Boundary Checker -/

/-- On its precondition `read_bits` is the defining sum (R171). Outside it R174 allows no value; that the model then
stops by the name `undefinedRead` is log entry 9. -/
def Obligations.ReadBitsIsItsSum : Prop :=
  ∀ (inp : Input) (k s n : Nat),
    (n ≤ 64 ∧ s + n ≤ inp.cap k →
      ∃ v : BitVec n, readBits inp k s n = .ok v ∧ v.toNat = inp.bitSum k s n ∧ v.toNat < 2 ^ n) ∧
    (¬ (n ≤ 64 ∧ s + n ≤ inp.cap k) → readBits inp k s n = .error .undefinedRead)

/-- R172: the Boundary Checker passes exactly when `n <= cap(k)`. -/
def Obligations.RequirePassesWithinCapacity : Prop :=
  ∀ (inp : Input) (k n : Nat),
    (n ≤ 8 * inp.len k → require inp k n = .ok ()) ∧
    (8 * inp.len k < n → require inp k n = .error (.raised .insufficientLength))

/-- R84: reads of different widths over the same bits agree. -/
def Obligations.ReadBitsSplits : Prop :=
  ∀ (inp : Input) (k s a c : Nat) (v : BitVec (a + c)), readBits inp k s (a + c) = .ok v →
    ∃ (x : BitVec a) (y : BitVec c), readBits inp k s a = .ok x ∧ readBits inp k (s + a) c = .ok y ∧
      v.toNat = x.toNat * 2 ^ c + y.toNat

/-- R173: the byte-wise procedure returns the same value as `read_bits` on its whole precondition. -/
def Obligations.BytewiseReaderAgrees : Prop :=
  ∀ (inp : Input) (k s n : Nat) (v : BitVec n), readBits inp k s n = .ok v →
    inp.bytewise k s n = v.toNat

/-! ## The commands -/

/-- R306: CLR clears every result register and touches nothing else. -/
def Obligations.ClrClearsResults : Prop :=
  ∀ s : State, exec .clr s = .next (afterSuccess s {})

/-- R177: REQB succeeds exactly when the buffer has the bits, and gives no result. -/
def Obligations.ReqbTestsCapacity : Prop :=
  ∀ (seg : BitVec 8) (n : BitVec 32) (s : State),
    exec (.reqb seg n) s = .next
      (if s.inp.nseg.toNat ≤ seg.toNat then afterReject s
       else if s.inp.cap seg.toNat < n.toNat then afterError s 1
       else afterSuccess s {})

/-- R178: RDB checks the span, then returns its value, `VALTY = 3` and the cursor. -/
def Obligations.RdbReadsTheSpan : Prop :=
  ∀ (seg : BitVec 8) (start : BitVec 32) (len : BitVec 16) (s : State),
    exec (.rdb seg start len) s = .next
      (if 64 < len.toNat ∨ s.inp.nseg.toNat ≤ seg.toNat then afterReject s
       else if s.inp.cap seg.toNat < start.toNat + len.toNat then afterError s 1
       else afterSuccess s
        { val := BitVec.ofNat 64 (s.inp.bitSum seg.toNat start.toNat len.toNat), valty := 3
          cur := BitVec.ofNat 40 (start.toNat + len.toNat) })

/-- R192: RDF is RDB with a narrowed type that the field must fit, recorded in `VALTY`. -/
def Obligations.RdfReadsTheTypedField : Prop :=
  ∀ (seg : BitVec 8) (start : BitVec 32) (len : BitVec 7) (ty : BitVec 2) (s : State),
    exec (.rdf seg start len ty) s = .next
      (if 64 < len.toNat ∨ 8 * 2 ^ ty.toNat < len.toNat ∨ s.inp.nseg.toNat ≤ seg.toNat
       then afterReject s
       else if s.inp.cap seg.toNat < start.toNat + len.toNat then afterError s 1
       else afterSuccess s
        { val := BitVec.ofNat 64 (s.inp.bitSum seg.toNat start.toNat len.toNat), valty := ty
          cur := BitVec.ofNat 40 (start.toNat + len.toNat) })

/-- R195 and R196: RDA requires the whole span, then tests and returns the letters. -/
def Obligations.RdaReadsTheLetters : Prop :=
  ∀ (seg : BitVec 8) (start : BitVec 32) (cnt w : BitVec 8) (s : State),
    let value := fun i : Nat => s.inp.bitSum seg.toNat (start.toNat + i * w.toNat) w.toNat
    exec (.rda seg start cnt w) s = .next
      (if 8 < cnt.toNat ∨ w.toNat = 0 ∨ 64 < w.toNat ∨ s.inp.nseg.toNat ≤ seg.toNat
       then afterReject s
       else if s.inp.cap seg.toNat < start.toNat + cnt.toNat * w.toNat then afterError s 1
       else if ∃ i < cnt.toNat, 25 < value i then afterError s 4
       else afterSuccess s
        { str := Vector.ofFn fun i : Fin 8 =>
            if i.val < cnt.toNat then BitVec.ofNat 8 (0x41 + value i.val) else 0
          strlen := BitVec.ofNat 4 cnt.toNat
          cur := BitVec.ofNat 40 (start.toNat + cnt.toNat * w.toNat) })

/-- R206 and R208: RDFS returns the 1-based positions of the set flags. -/
def Obligations.RdfsReadsTheFlags : Prop :=
  ∀ (seg : BitVec 8) (start : BitVec 32) (len : BitVec 16) (s : State),
    (s.inp.nseg.toNat ≤ seg.toNat → exec (.rdfs seg start len) s = .next (afterReject s)) ∧
    (seg.toNat < s.inp.nseg.toNat → s.inp.cap seg.toNat < start.toNat + len.toNat →
      exec (.rdfs seg start len) s = .next (afterError s 1)) ∧
    (seg.toNat < s.inp.nseg.toNat → start.toNat + len.toNat ≤ s.inp.cap seg.toNat →
      ∃ S : IdSet16,
        (∀ i, S.mem i = true ↔
          1 ≤ i ∧ i ≤ len.toNat ∧ s.inp.wireBit seg.toNat (start.toNat + (i - 1)) = true) ∧
        exec (.rdfs seg start len) s = .next (afterSuccess s
          { setr := S, cur := BitVec.ofNat 40 (start.toNat + len.toNat) }))

/-- R215, R216, R218 and R225: RDRS decodes every range-set that stands in the buffer to the union of its entries,
and fails with `InsufficientLength` when none stands there. -/
def Obligations.RdrsDecodesRangeSets : Prop :=
  ∀ (seg : BitVec 8) (start : BitVec 32) (s : State),
    (s.inp.nseg.toNat ≤ seg.toNat → exec (.rdrs seg start) s = .next (afterReject s)) ∧
    (seg.toNat < s.inp.nseg.toNat → ∀ items : List RangeItem, items.length < 4096 →
      s.inp.holds seg.toNat start.toNat (rangeSetBits items) →
      ∃ S : IdSet16, (∀ i, S.mem i = true ↔ rangeSetCovers items i) ∧
        exec (.rdrs seg start) s = .next (afterSuccess s
          { setr := S, cur := BitVec.ofNat 40 (start.toNat + (rangeSetBits items).length) })) ∧
    (seg.toNat < s.inp.nseg.toNat →
      (∀ items : List RangeItem, items.length < 4096 →
        ¬ s.inp.holds seg.toNat start.toNat (rangeSetBits items)) →
      exec (.rdrs seg start) s = .next (afterError s 1))

/-- R221 and R226: RDVS decodes every vendor section that stands in the buffer, in either form, and fails with
`InsufficientLength` when none stands there. -/
def Obligations.RdvsDecodesVendorSections : Prop :=
  ∀ (seg : BitVec 8) (start : BitVec 32) (s : State),
    (s.inp.nseg.toNat ≤ seg.toNat → exec (.rdvs seg start) s = .next (afterReject s)) ∧
    (seg.toNat < s.inp.nseg.toNat → ∀ v : VendorData, v.fits →
      s.inp.holds seg.toNat start.toNat v.bits →
      ∃ S : IdSet16, (∀ i, S.mem i = true ↔ v.covers i) ∧
        exec (.rdvs seg start) s = .next (afterSuccess s
          { setr := S, maxid := v.maxId, sel := v.sel
            cur := BitVec.ofNat 40 (start.toNat + v.bits.length) })) ∧
    (seg.toNat < s.inp.nseg.toNat →
      (∀ v : VendorData, v.fits → ¬ s.inp.holds seg.toNat start.toNat v.bits) →
      exec (.rdvs seg start) s = .next (afterError s 1))

/-- R276 and R278: RDPR decodes every publisher-restriction section that stands in the buffer, entries in wire order
and none merged, and fails with `InsufficientLength` when none stands there. `PR_PAD` is 0 (R6, R142; log entry 4). -/
def Obligations.RdprDecodesRestrictions : Prop :=
  Config.prPad = 0 ∧
  ∀ (seg : BitVec 8) (start : BitVec 32) (s : State),
    (s.inp.nseg.toNat ≤ seg.toNat → exec (.rdpr seg start) s = .next (afterReject s)) ∧
    (seg.toNat < s.inp.nseg.toNat → ∀ l : List RestrictionData, l.length < 4096 →
      (∀ r ∈ l, r.fits) → s.inp.holds seg.toNat start.toNat (restrictionBits l) →
      ∃ L : List PrEntry, List.Forall₂ RestrictionData.Matches l L ∧
        exec (.rdpr seg start) s = .next (afterSuccess s
          { prcount := BitVec.ofNat 12 l.length, pr := L
            cur := BitVec.ofNat 40 (start.toNat + (restrictionBits l).length) })) ∧
    (seg.toNat < s.inp.nseg.toNat →
      (∀ l : List RestrictionData, l.length < 4096 → (∀ r ∈ l, r.fits) →
        ¬ s.inp.holds seg.toNat start.toNat (restrictionBits l)) →
      exec (.rdpr seg start) s = .next (afterError s 1))

/-- R242 to R245: RDSEG decodes every optional segment that the buffer holds; otherwise the tag decides between
`InsufficientLength` and `InvalidSegmentDefinition`. -/
def Obligations.RdsegDecodesSegments : Prop :=
  ∀ (seg : BitVec 8) (s : State),
    (s.inp.nseg.toNat ≤ seg.toNat → exec (.rdseg seg) s = .next (afterReject s)) ∧
    (seg.toNat < s.inp.nseg.toNat → s.inp.cap seg.toNat < 3 →
      exec (.rdseg seg) s = .next (afterError s 1)) ∧
    (seg.toNat < s.inp.nseg.toNat → 3 ≤ s.inp.cap seg.toNat →
      s.inp.bitSum seg.toNat 0 3 ∉ [1, 2, 3] → exec (.rdseg seg) s = .next (afterError s 6)) ∧
    (seg.toNat < s.inp.nseg.toNat → ∀ d : SegmentData, d.fits → s.inp.holds seg.toNat 0 d.bits →
      ∃ r : Results, SegmentResult d r ∧ exec (.rdseg seg) s = .next (afterSuccess s r)) ∧
    (seg.toNat < s.inp.nseg.toNat → 3 ≤ s.inp.cap seg.toNat →
      s.inp.bitSum seg.toNat 0 3 ∈ [1, 2, 3] →
      (∀ d : SegmentData, d.fits → ¬ s.inp.holds seg.toNat 0 d.bits) →
      exec (.rdseg seg) s = .next (afterError s 1))

/-- R261, R263 and R264: DECV1 and DEC decode every V1 buffer to its record, timestamps raw, and ignore the
segments after the first (R260, R308); when the letters of the header are letters and no V1 buffer stands there, they end
with `InsufficientLength` (R322). The version pattern of V1 does the same, by the model's choices of log entries
10 and 11. -/
def Obligations.Decv1DecodesV1Records : Prop :=
  (∀ (d : V1Data) (s : State), d.fits → 0 < s.inp.nseg.toNat → s.inp.holds 0 0 d.bits →
    ∃ r : Record, d.Matches r ∧ ∀ i ∈ [Instr.decv1, .dec, .wireVersionV1],
      exec i s = .next (afterSuccess s { record := r, cur := BitVec.ofNat 40 d.bits.length })) ∧
  ∀ s : State, 0 < s.inp.nseg.toNat → 6 ≤ s.inp.cap 0 → s.inp.bitSum 0 0 6 = 1 →
    (173 ≤ s.inp.cap 0 → s.inp.bitSum 0 108 6 ≤ 25 ∧ s.inp.bitSum 0 114 6 ≤ 25) →
    (∀ d : V1Data, d.fits → ¬ s.inp.holds 0 0 d.bits) →
    ∀ i ∈ [Instr.decv1, .dec, .wireVersionV1], exec i s = .next (afterError s 1)

/-- R281, R246, R283 and R286: DECV2 and DEC decode every V2 core with its optional segments to its record:
timestamps times 100, the last segment of each type, defaults for the absent (R308), `PR_PAD` 0 (log entry 4). When no
segment is empty and the letters of the header are letters: with no V2 core in segment 0 they end with
`InsufficientLength`, whatever the optional segments hold; with a core and the first optional segments in
place they end with the error of the first segment that fails, 6 for its tag or 1 for its payload (R322, R327, R340
item 6). The version pattern of V2 does the same, by the model's choices of log entries 10 and 11. -/
def Obligations.Decv2DecodesV2Records : Prop :=
  Config.prPad = 0 ∧
  (∀ (d : V2Data) (opt : List SegmentData) (s : State), d.fits → (∀ e ∈ opt, e.fits) →
    s.inp.nseg.toNat = opt.length + 1 → s.inp.holds 0 0 d.bits →
    (∀ j, (h : j < opt.length) → s.inp.holds (j + 1) 0 opt[j].bits) →
    ∃ (r : Record) (L : List PrEntry), d.Matches opt r ∧
      List.Forall₂ RestrictionData.Matches d.restrictions L ∧
      ∀ i ∈ [Instr.decv2, .dec, .wireVersionV2],
        exec i s = .next (afterSuccess s
          { record := r, cur := BitVec.ofNat 40 d.bits.length
            prcount := BitVec.ofNat 12 d.restrictions.length, pr := L })) ∧
  (∀ s : State, 0 < s.inp.nseg.toNat → 6 ≤ s.inp.cap 0 → s.inp.bitSum 0 0 6 = 2 →
    (∀ k, 1 ≤ k → k < s.inp.nseg.toNat → s.inp.len k ≠ 0) →
    (213 ≤ s.inp.cap 0 → s.inp.bitSum 0 108 6 ≤ 25 ∧ s.inp.bitSum 0 114 6 ≤ 25 ∧
      s.inp.bitSum 0 201 6 ≤ 25 ∧ s.inp.bitSum 0 207 6 ≤ 25) →
    (∀ d : V2Data, d.fits → ¬ s.inp.holds 0 0 d.bits) →
    ∀ i ∈ [Instr.decv2, .dec, .wireVersionV2], exec i s = .next (afterError s 1)) ∧
  ∀ (d : V2Data) (opt : List SegmentData) (code : BitVec 4) (s : State), d.fits →
    (∀ e ∈ opt, e.fits) → opt.length + 1 < s.inp.nseg.toNat →
    (∀ k, 1 ≤ k → k < s.inp.nseg.toNat → s.inp.len k ≠ 0) → s.inp.holds 0 0 d.bits →
    (∀ j, (h : j < opt.length) → s.inp.holds (j + 1) 0 opt[j].bits) →
    s.inp.segmentFails (opt.length + 1) code →
    ∀ i ∈ [Instr.decv2, .dec, .wireVersionV2], exec i s = .next (afterError s code)

/-- With nothing loaded DECV1, DECV2 and DEC are command errors (R120 item 5, R362). -/
def Obligations.NothingLoadedIsRejected : Prop :=
  ∀ s : State, s.inp.nseg = 0 → ∀ i ∈ [Instr.decv1, .decv2, .dec], exec i s = .next (afterReject s)

/-- R323 with R265: an empty core gives `InsufficientLength`, and a version field that the operation does
not accept gives `UnsupportedVersion`, whatever else is wrong. -/
def Obligations.VersionIsTestedFirst : Prop :=
  ∀ s : State, 0 < s.inp.nseg.toNat →
    (s.inp.cap 0 < 6 → ∀ i ∈ [Instr.decv1, .decv2, .dec], exec i s = .next (afterError s 1)) ∧
    (6 ≤ s.inp.cap 0 → s.inp.bitSum 0 0 6 ≠ 1 → exec .decv1 s = .next (afterError s 2)) ∧
    (6 ≤ s.inp.cap 0 → s.inp.bitSum 0 0 6 ≠ 2 → exec .decv2 s = .next (afterError s 2)) ∧
    (6 ≤ s.inp.cap 0 → s.inp.bitSum 0 0 6 ≠ 1 → s.inp.bitSum 0 0 6 ≠ 2 →
      exec .dec s = .next (afterError s 2))

/-- R241: an empty optional segment gives `InsufficientLength` under version 2, before the core is decoded
(R340 item 3); also by
the version pattern of V2 (log entries 10 and 11). -/
def Obligations.EmptySegmentIsAHardError : Prop :=
  ∀ (s : State) (k : Nat), 1 ≤ k → k < s.inp.nseg.toNat → s.inp.len k = 0 → 6 ≤ s.inp.cap 0 →
    s.inp.bitSum 0 0 6 = 2 → ∀ i ∈ [Instr.decv2, .dec, .wireVersionV2], exec i s = .next (afterError s 1)

/-- A header that is too short gives `InsufficientLength` before any letter is tested (R340 item 4); also
by the version patterns (log entries 10 and 11). -/
def Obligations.ShortHeaderBeforeLetters : Prop :=
  ∀ s : State, 0 < s.inp.nseg.toNat → 6 ≤ s.inp.cap 0 →
    (s.inp.bitSum 0 0 6 = 1 → s.inp.cap 0 < 173 →
      ∀ i ∈ [Instr.decv1, .dec, .wireVersionV1], exec i s = .next (afterError s 1)) ∧
    (s.inp.bitSum 0 0 6 = 2 → s.inp.cap 0 < 213 →
      ∀ i ∈ [Instr.decv2, .dec, .wireVersionV2], exec i s = .next (afterError s 1))

/-- A language or country character above 25 gives `InvalidAlphabetOffset` once the header fits, before any
vendor section (R325, R340 items 4 and 5); also by the version patterns (log entries 10 and 11). -/
def Obligations.BadLetterBeforeSections : Prop :=
  ∀ s : State, 0 < s.inp.nseg.toNat →
    (s.inp.bitSum 0 0 6 = 1 → 173 ≤ s.inp.cap 0 →
      (25 < s.inp.bitSum 0 108 6 ∨ 25 < s.inp.bitSum 0 114 6) →
      ∀ i ∈ [Instr.decv1, .dec, .wireVersionV1], exec i s = .next (afterError s 4)) ∧
    (s.inp.bitSum 0 0 6 = 2 → 213 ≤ s.inp.cap 0 →
      (∀ k, 1 ≤ k → k < s.inp.nseg.toNat → s.inp.len k ≠ 0) →
      (25 < s.inp.bitSum 0 108 6 ∨ 25 < s.inp.bitSum 0 114 6 ∨ 25 < s.inp.bitSum 0 201 6 ∨
        25 < s.inp.bitSum 0 207 6) →
      ∀ i ∈ [Instr.decv2, .dec, .wireVersionV2], exec i s = .next (afterError s 4))

/-- Two optional segments of different types commute (R247): with both in the other order a successful
decode gives the same record, restrictions and cursor. -/
def Obligations.DifferentSegmentsCommute : Prop :=
  ∀ s s' t : State, s.inp.nseg = 3 → s.inp.swapsOptional s'.inp →
    s.inp.bitSum 1 0 3 ≠ s.inp.bitSum 2 0 3 → exec .decv2 s = .next t → t.status = 0x02 →
    ∃ t', exec .decv2 s' = .next t' ∧ t'.status = 0x02 ∧ t'.res = t.res

/-! ## The wire patterns, on the local values (log entries 10 to 12) -/

/-- R138, R139 and R216: a single entry adds its ID, a range entry adds every ID of its interval; the cursor
moves by 17 or 33 bits. -/
def Obligations.RangesetEntryPatterns : Prop :=
  ∀ s : State, s.loc.k.toNat < s.inp.nseg.toNat →
    (∀ id : BitVec 16, s.loc.p + 17 ≤ s.inp.cap s.loc.k.toNat →
      ∃ S : IdSet16, (∀ i, S.mem i = true ↔ s.loc.set.mem i = true ∨ i = id.toNat) ∧
        exec (.wireRangesetSingle id) s =
          .next { s with loc := { s.loc with set := S, p := s.loc.p + 17 } }) ∧
    (∀ lo hi : BitVec 16, s.loc.p + 33 ≤ s.inp.cap s.loc.k.toNat →
      ∃ S : IdSet16,
        (∀ i, S.mem i = true ↔ s.loc.set.mem i = true ∨ (lo.toNat ≤ i ∧ i ≤ hi.toNat)) ∧
        exec (.wireRangesetRange lo hi) s =
          .next { s with loc := { s.loc with set := S, p := s.loc.p + 33 } })

/-- R137 and R216: the count pattern is followed by that many entries, read into one set. -/
def Obligations.RangesetCountPattern : Prop :=
  ∀ (items : List RangeItem) (s : State), s.loc.k.toNat < s.inp.nseg.toNat → items.length < 4096 →
    s.inp.holds s.loc.k.toNat (s.loc.p + 12) (items.flatMap RangeItem.bits) →
    ∃ S : IdSet16, (∀ i, S.mem i = true ↔ rangeSetCovers items i) ∧
      exec (.wireRangesetCount (BitVec.ofNat 12 items.length)) s = .next { s with loc :=
        { s.loc with set := S, p := s.loc.p + 12 + (items.flatMap RangeItem.bits).length } }

/-- R140 and R221: a vendor-section header selects a bitmap of `max_id` flags or a range-set. -/
def Obligations.VendorSectionPatterns : Prop :=
  ∀ s : State, s.loc.k.toNat < s.inp.nseg.toNat →
    (∀ (m : BitVec 16) (flags : List Bool), flags.length = m.toNat →
      s.inp.holds s.loc.k.toNat (s.loc.p + 17) flags →
      ∃ S : IdSet16, (∀ i, S.mem i = true ↔ flagsCover flags i) ∧
        exec (.wireVendorsecBitmap m) s = .next { s with loc :=
          { s.loc with set := S, p := s.loc.p + 17 + m.toNat, maxId := m, sel := 0 } }) ∧
    (∀ (m : BitVec 16) (items : List RangeItem), items.length < 4096 →
      s.inp.holds s.loc.k.toNat (s.loc.p + 17) (rangeSetBits items) →
      ∃ S : IdSet16, (∀ i, S.mem i = true ↔ rangeSetCovers items i) ∧
        exec (.wireVendorsecRange m) s = .next { s with loc :=
          { s.loc with set := S, p := s.loc.p + 17 + (rangeSetBits items).length, maxId := m
                       sel := 1 } })

/-- R133 and R264: the V1 vendor block in its two forms; `max_vendor_id` sizes the bitmap and nothing else. -/
def Obligations.V1VendorPatterns : Prop :=
  ∀ s : State, 0 < s.inp.nseg.toNat →
    (∀ (m : BitVec 16) (flags : List Bool), flags.length = m.toNat → s.inp.holds 0 173 flags →
      ∃ S : IdSet16, (∀ i, S.mem i = true ↔ flagsCover flags i) ∧
        exec (.wireV1VendorsBitmap m) s = .next { s with
          res := { s.res with record := { s.res.record with v1IsBlocklist := 0, v1Vendors := S } }
          loc := { s.loc with k := 0, p := 173 + m.toNat } }) ∧
    (∀ (m : BitVec 16) (b : BitVec 1) (items : List RangeItem), items.length < 4096 →
      s.inp.holds 0 174 (rangeSetBits items) →
      ∃ S : IdSet16, (∀ i, S.mem i = true ↔ rangeSetCovers items i) ∧
        exec (.wireV1VendorsRange m b) s = .next { s with
          res := { s.res with record := { s.res.record with v1IsBlocklist := b, v1Vendors := S } }
          loc := { s.loc with k := 0, p := 174 + (rangeSetBits items).length } })

/-- R142 and R276: a restriction header is followed by `PR_PAD` bits, which is 0 of them (log entry 4), and a range-set;
the entry is appended. -/
def Obligations.RestrictionEntryPattern : Prop :=
  Config.prPad = 0 ∧
  ∀ (r : RestrictionData) (s : State), s.loc.k.toNat < s.inp.nseg.toNat → r.fits →
    s.inp.holds s.loc.k.toNat (s.loc.p + 8) (r.pad ++ rangeSetBits r.items) →
    ∃ e : PrEntry, r.Matches e ∧
      exec (.wirePubrestrEntry r.purposeId r.rtype) s = .next { s with loc :=
        { s.loc with rtype := r.rtype, list := s.loc.list ++ [e], set := e.vendors
                     p := s.loc.p + r.bits.length } }

/-- R143: every 2-bit restriction-type code is kept as it is; none is an error. -/
def Obligations.RestrictionTypePatterns : Prop :=
  ∀ s : State, s.loc.k.toNat < s.inp.nseg.toNat → s.loc.p + 2 ≤ s.inp.cap s.loc.k.toNat →
    exec .wireRtypeNotallowed s =
      .next { s with loc := { s.loc with rtype := 0, p := s.loc.p + 2 } } ∧
    exec .wireRtypeRequireconsent s =
      .next { s with loc := { s.loc with rtype := 1, p := s.loc.p + 2 } } ∧
    exec .wireRtypeRequireli s =
      .next { s with loc := { s.loc with rtype := 2, p := s.loc.p + 2 } } ∧
    exec .wireRtypeUndefined s =
      .next { s with loc := { s.loc with rtype := 3, p := s.loc.p + 2 } }

/-- R145, R146 and R246: a known segment tag selects its payload, which is merged into the record. -/
def Obligations.SegmentTagPatterns : Prop :=
  ∀ s : State, s.loc.k.toNat < s.inp.nseg.toNat →
    (∀ v : VendorData, v.fits → s.inp.holds s.loc.k.toNat 3 v.bits →
      ∃ S : IdSet16, (∀ i, S.mem i = true ↔ v.covers i) ∧
        exec .wireSegtagDisclosed s = .next { s with
          res := { s.res with record := { s.res.record with disclosedVendors := S } }
          loc := { s.loc with set := S, p := 3 + v.bits.length, maxId := v.maxId, sel := v.sel } } ∧
        exec .wireSegtagAllowed s = .next { s with
          res := { s.res with record := { s.res.record with allowedVendors := S } }
          loc := { s.loc with set := S, p := 3 + v.bits.length, maxId := v.maxId, sel := v.sel } }) ∧
    (∀ t : PubTcData, t.fits → s.inp.holds s.loc.k.toNat 3 t.bits →
      ∃ A B C D : IdSet64, (∀ i, A.mem i = true ↔ flagsCover t.consent i) ∧
        (∀ i, B.mem i = true ↔ flagsCover t.li i) ∧
        (∀ i, C.mem i = true ↔ flagsCover t.customConsent i) ∧
        (∀ i, D.mem i = true ↔ flagsCover t.customLi i) ∧
        exec .wireSegtagPublishertc s = .next { s with
          res := { s.res with record :=
            { s.res.record with
              publisherPurposesConsent := A, publisherPurposesLiTransparency := B
              customPurposesConsent := C, customPurposesLiTransparency := D } }
          loc := { s.loc with p := 3 + t.bits.length } })

/-- R144: the five other tags raise `InvalidSegmentDefinition`. That a tag has a step of its own, in a loaded
buffer, is the model's choice of log entries 10, 11 and 12. -/
def Obligations.InvalidSegmentTagsRaise : Prop :=
  ∀ s : State, s.loc.k.toNat < s.inp.nseg.toNat → 3 ≤ s.inp.cap s.loc.k.toNat →
    ∀ i ∈ [Instr.wireSegtagInvalid000, .wireSegtagInvalid100, .wireSegtagInvalid101,
        .wireSegtagInvalid110, .wireSegtagInvalid111],
      exec i s = .next (afterError s 6)

/-- R147: a letter value of at most 25 appends its ASCII code; a larger one raises `InvalidAlphabetOffset`. -/
def Obligations.LetterPattern : Prop :=
  ∀ (v : BitVec 6) (s : State), s.loc.k.toNat < s.inp.nseg.toNat →
    s.loc.p + 6 ≤ s.inp.cap s.loc.k.toNat →
    (v.toNat ≤ 25 → exec (.wireLetter v) s = .next { s with loc :=
      { s.loc with out := s.loc.out ++ [BitVec.ofNat 8 (0x41 + v.toNat)], p := s.loc.p + 6 } }) ∧
    (25 < v.toNat → exec (.wireLetter v) s = .next (afterError s 4))

/-! ## The host's reads of the other registers -/

/-- A host read returns the register it names: `SEG`, `SEGLEN` and `NSEG` at any time, the numeric result registers and
the restriction entries below `PRCOUNT` while no command executes (R31 to R33, R37 to R50, R52, R371). That the value
read stands in `readback` is log entry 6; what a byte of `SEG` at or beyond `SEGLEN[k]` or of a buffer `k >= NSEG` reads
as is the model's choice of log entry 25, and of a byte never written that of log entry 3. -/
def Obligations.ReadsReturnTheirRegister : Prop :=
  ∀ (s : State) (rest : List HostAccess),
    (∀ (k : BitVec 8) (j : BitVec 29), k.toNat < Config.maxSegs → j.toNat < Config.maxSegBytes →
      s.host = .read (.seg k j) :: rest →
      step s = .next { s with host := rest, readback := some (.number (s.inp.byte k.toNat j.toNat).toNat) }) ∧
    (∀ k : BitVec 8, k.toNat < Config.maxSegs → s.host = .read (.segLen k) :: rest →
      step s = .next { s with host := rest, readback := some (.number (s.inp.len k.toNat)) }) ∧
    (s.host = .read .nseg :: rest →
      step s = .next { s with host := rest, readback := some (.number s.inp.nseg.toNat) }) ∧
    (∀ p ∈ s.res.numberRegisters, s.host = .read (.result p.1) :: rest → s.busy = false →
      step s = .next { s with host := rest, readback := some (.number p.2) }) ∧
    ∀ (i : BitVec 12) (e : PrEntry), i.toNat < 4095 → s.res.pr[i.toNat]? = some e →
      s.host = .read (.result (.pr i)) :: rest → s.busy = false →
      ∃ l : List Nat, Lists l e.vendors.mem ∧
        step s = .next
          { s with host := rest, readback := some (.restriction e.purposeId.toNat e.rtype.toNat l) }
end

