-- ==== Sys2Proof/Laws/Decode.lean ====
section
/-! SUPPORT. What the pieces of the decoder and the encoder do: fields of bit strings (R83) and the four fields of
a command word (R111). -/

namespace Sys2Proof

set_option Elab.async false

/-! ## Fields of bit strings -/

@[simp] theorem fieldBits_length {n : Nat} (x : BitVec n) : (fieldBits x).length = n := by
  induction n with
  | zero => rfl
  | succ n ih => simp [fieldBits, ih]

/-- Bit `i` of a field, first bit most significant. -/
theorem fieldBits_getElem {n : Nat} (x : BitVec n) (i : Nat) (h : i < (fieldBits x).length) :
    (fieldBits x)[i] = x.getLsbD (n - 1 - i) := by
  induction n generalizing i with
  | zero => simp at h
  | succ n ih =>
    cases i with
    | zero => simp [fieldBits, BitVec.msb_eq_getLsbD_last]
    | succ i =>
      have hi : i < n := by simpa using h
      simp only [fieldBits, List.getElem_cons_succ]
      rw [ih, BitVec.getLsbD_setWidth, decide_eq_true (by omega), Bool.true_and]
      congr 1
      omega

/-- Taking a field off the bits that spell it gives the field and the rest. -/
@[simp] theorem takeField_fieldBits {n : Nat} (x : BitVec n) (rest : List Bool) :
    takeField n (fieldBits x ++ rest) = some (x, rest) := by
  induction n with
  | zero => rw [BitVec.eq_nil x]; rfl
  | succ n ih =>
    simp only [fieldBits, List.cons_append, takeField, ih, Option.map_some]
    congr 2
    rw [← BitVec.cons_msb_setWidth x]
    simp

@[simp] theorem withField_fieldBits {α : Type} {n : Nat} (x : BitVec n) (rest : List Bool)
    (go : BitVec n → List Bool → Except Illegal α) :
    withField n (fieldBits x ++ rest) go = go x rest := by
  simp [withField]

/-- A one-bit field is one bit. -/
@[simp] theorem withField_one {α : Type} (b : Bool) (rest : List Bool)
    (go : BitVec 1 → List Bool → Except Illegal α) :
    withField 1 (b :: rest) go = go (BitVec.ofBool b) rest := by
  cases b <;> rfl

/-! ## Command words -/

@[simp] theorem fieldOp_commandWord (op seg : BitVec 8) (aux : BitVec 16) (start : BitVec 32) :
    fieldOp (commandWord op seg aux start) = op := by
  apply BitVec.eq_of_getLsbD_eq
  intro i hi
  simp only [fieldOp, commandWord, BitVec.getLsbD_extractLsb', BitVec.getLsbD_append]
  simp [hi]
  grind

@[simp] theorem fieldSeg_commandWord (op seg : BitVec 8) (aux : BitVec 16) (start : BitVec 32) :
    fieldSeg (commandWord op seg aux start) = seg := by
  apply BitVec.eq_of_getLsbD_eq
  intro i hi
  simp only [fieldSeg, commandWord, BitVec.getLsbD_extractLsb', BitVec.getLsbD_append]
  simp [hi]
  grind

@[simp] theorem fieldAux_commandWord (op seg : BitVec 8) (aux : BitVec 16) (start : BitVec 32) :
    fieldAux (commandWord op seg aux start) = aux := by
  apply BitVec.eq_of_getLsbD_eq
  intro i hi
  simp only [fieldAux, commandWord, BitVec.getLsbD_extractLsb', BitVec.getLsbD_append]
  simp [hi]

@[simp] theorem fieldStart_commandWord (op seg : BitVec 8) (aux : BitVec 16) (start : BitVec 32) :
    fieldStart (commandWord op seg aux start) = start := by
  apply BitVec.eq_of_getLsbD_eq
  intro i hi
  simp only [fieldStart, commandWord, BitVec.getLsbD_extractLsb', BitVec.getLsbD_append]
  simp [hi]

/-- A word is put together from its four fields (R111). -/
theorem commandWord_fields (w : Word64) :
    commandWord (fieldOp w) (fieldSeg w) (fieldAux w) (fieldStart w) = w := by
  apply BitVec.eq_of_getLsbD_eq
  intro i hi
  simp only [fieldOp, fieldSeg, fieldAux, fieldStart, commandWord, BitVec.getLsbD_extractLsb',
    BitVec.getLsbD_append]
  grind

end Sys2Proof
end

