-- ==== Sys2Proof/Laws/Reader.lean ====
section
/-! SUPPORT. What the Bit Reader and the Boundary Checker can do, once each, and how the bits that a buffer holds
become fields (R82, R83, R171, R172). -/

namespace Sys2Proof.Machine

set_option Elab.async false

/-! ## Bodies of pseudocode -/

/-- A sequence of two bodies succeeds exactly when both do (R12). -/
theorem Dec.bind_ok {α β : Type} {x : Dec α} {f : α → Dec β} {b : β} :
    (x >>= f) = .ok b ↔ ∃ a, x = .ok a ∧ f a = .ok b := by
  cases x <;> simp [bind, Except.bind]

/-- A sequence of two bodies stops where the first of them stops (R12). -/
theorem Dec.bind_error {α β : Type} {x : Dec α} {f : α → Dec β} {e : Stop} :
    (x >>= f) = .error e ↔ x = .error e ∨ ∃ a, x = .ok a ∧ f a = .error e := by
  cases x <;> simp [bind, Except.bind]

@[simp] theorem Dec.ok_bind {α β : Type} (a : α) (f : α → Dec β) :
    ((Except.ok a : Dec α) >>= f) = f a := rfl

@[simp] theorem Dec.error_bind {α β : Type} (e : Stop) (f : α → Dec β) :
    ((Except.error e : Dec α) >>= f) = .error e := rfl

@[simp] theorem Dec.map_ok {α β : Type} (a : α) (f : α → β) :
    Except.map f (Except.ok a : Dec α) = .ok (f a) := rfl

@[simp] theorem Dec.map_error {α β : Type} (e : Stop) (f : α → β) :
    Except.map f (Except.error e : Dec α) = .error e := rfl

/-! ## The Boundary Checker -/

/-- All that `require` can do (R172). -/
theorem require_cases (inp : Input) (k n : Nat) :
    (n ≤ inp.cap k ∧ require inp k n = .ok ()) ∨
    (inp.cap k < n ∧ require inp k n = .error (.raised .insufficientLength)) := by
  unfold require raise
  split
  · exact .inr ⟨‹_›, rfl⟩
  · exact .inl ⟨by omega, rfl⟩

theorem require_pass {inp : Input} {k n : Nat} (h : n ≤ inp.cap k) : require inp k n = .ok () := by
  simp [require, Nat.not_lt.mpr h]

theorem require_fail {inp : Input} {k n : Nat} (h : inp.cap k < n) :
    require inp k n = .error (.raised .insufficientLength) := by
  simp [require, h, raise]

/-! ## The Bit Reader -/

theorem readBits_pass {inp : Input} {k s n : Nat} (hn : n ≤ Config.readMax) (h : s + n ≤ inp.cap k) :
    readBits inp k s n = .ok (inp.span k s n) := by
  simp [readBits, hn, h]

theorem readBit_pass {inp : Input} {k b : Nat} (h : b < inp.cap k) :
    readBit inp k b = .ok (inp.wireBit k b) := by
  simp [readBit, h]

/-- Bit `i` of a span, first wire bit most significant (R83). -/
theorem span_getElem (inp : Input) (k s n i : Nat) (hi : i < n) :
    (inp.span k s n).getLsbD (n - 1 - i) = inp.wireBit k (s + i) := by
  induction n generalizing s i with
  | zero => omega
  | succ n ih =>
    simp only [Input.span, BitVec.getLsbD_cons]
    cases i with
    | zero => simp
    | succ i =>
      rw [if_neg (by omega)]
      have := ih (s + 1) i (by omega)
      rw [show n + 1 - 1 - (i + 1) = n - 1 - i by omega, this]
      congr 1
      omega

/-- A span is determined by its wire bits. -/
theorem span_eq {inp : Input} {k s n : Nat} {v : BitVec n}
    (h : ∀ i, i < n → v.getLsbD (n - 1 - i) = inp.wireBit k (s + i)) : inp.span k s n = v := by
  apply BitVec.eq_of_getLsbD_eq
  intro j hj
  have h1 := span_getElem inp k s n (n - 1 - j) (by omega)
  have h2 := h (n - 1 - j) (by omega)
  rw [show n - 1 - (n - 1 - j) = j by omega] at h1 h2
  rw [h1, h2]

/-- Two buffers with the same wire bits have the same spans. -/
theorem span_congr {x y : Input} {k k' s s' n : Nat}
    (h : ∀ i, i < n → x.wireBit k (s + i) = y.wireBit k' (s' + i)) :
    x.span k s n = y.span k' s' n :=
  span_eq fun i hi => by rw [span_getElem _ _ _ _ _ hi, h i hi]

/-- A span by its first wire bit and the rest, as numbers. -/
theorem span_toNat_succ (inp : Input) (k s n : Nat) :
    (inp.span k s (n + 1)).toNat =
      (inp.wireBit k s).toNat * 2 ^ n + (inp.span k (s + 1) n).toNat := by
  simp only [Input.span, BitVec.toNat_cons]
  rw [Nat.shiftLeft_eq, Nat.mul_comm, ← Nat.two_pow_add_eq_or_of_lt (BitVec.isLt _)]

/-- A span is the sum of its wire bits, each at its weight (R171). -/
theorem span_toNat (inp : Input) (k s n : Nat) : (inp.span k s n).toNat = inp.bitSum k s n := by
  induction n generalizing s with
  | zero => simp [Input.span, Input.bitSum]
  | succ n ih =>
    rw [span_toNat_succ, ih, Input.bitSum, Input.bitSum, Finset.sum_range_succ', Nat.add_comm]
    congr 1
    apply Finset.sum_congr rfl
    intro i hi
    have := Finset.mem_range.mp hi
    rw [show s + 1 + i = s + (i + 1) by omega, show n + 1 - 1 - (i + 1) = n - 1 - i by omega]

/-! ## What a buffer holds -/

theorem holds_append {inp : Input} {k s : Nat} {a b : List Bool} :
    inp.holds k s (a ++ b) ↔ inp.holds k s a ∧ inp.holds k (s + a.length) b := by
  constructor
  · rintro ⟨h, hb⟩
    rw [List.length_append] at h
    refine ⟨⟨by omega, fun i hi => ?_⟩, ⟨by omega, fun i hi => ?_⟩⟩
    · rw [hb i (by simp; omega), List.getElem_append_left hi]
    · rw [Nat.add_assoc, hb (a.length + i) (by simp; omega),
        List.getElem_append_right (by omega)]
      simp
  · rintro ⟨⟨-, ha⟩, ⟨h, hb⟩⟩
    refine ⟨by simp; omega, fun i hi => ?_⟩
    rw [List.length_append] at hi
    by_cases hc : i < a.length
    · rw [ha i hc, List.getElem_append_left hc]
    · have := hb (i - a.length) (by omega)
      rw [show s + a.length + (i - a.length) = s + i by omega] at this
      rw [this, List.getElem_append_right (by omega)]

theorem holds_nil {inp : Input} {k s : Nat} : inp.holds k s [] ↔ s ≤ inp.cap k := by
  simp [Input.holds]

theorem holds_cons {inp : Input} {k s : Nat} {b : Bool} {l : List Bool} :
    inp.holds k s (b :: l) ↔ inp.holds k s [b] ∧ inp.holds k (s + 1) l :=
  holds_append (a := [b])

/-- A buffer that holds the bits of a field holds its span. -/
theorem span_of_holds {inp : Input} {k s n : Nat} {x : BitVec n} (h : inp.holds k s (fieldBits x)) :
    inp.span k s n = x :=
  span_eq fun i hi => by
    rw [h.2 i (by simpa using hi), fieldBits_getElem]

/-- A buffer holds the bits of each of its spans. -/
theorem holds_span {inp : Input} {k s n : Nat} (h : s + n ≤ inp.cap k) :
    inp.holds k s (fieldBits (inp.span k s n)) := by
  refine ⟨by simpa using h, fun i hi => ?_⟩
  rw [fieldBits_getElem, span_getElem _ _ _ _ _ (by simpa using hi)]

/-- A buffer holds each of its bits. -/
theorem holds_bit {inp : Input} {k b : Nat} (h : b < inp.cap k) : inp.holds k b [inp.wireBit k b] := by
  refine ⟨by simp; omega, fun i hi => ?_⟩
  have : i = 0 := by simpa using hi
  subst this
  rfl

/-- A buffer holds every run of its bits. -/
theorem holds_run {inp : Input} {k s n : Nat} (h : s + n ≤ inp.cap k) :
    inp.holds k s ((List.range n).map fun i => inp.wireBit k (s + i)) :=
  ⟨by simpa using h, fun i hi => by simp⟩

/-- Reading a field that a buffer holds gives the field. -/
theorem readBits_of_holds {inp : Input} {k s n : Nat} {x : BitVec n} (hn : n ≤ Config.readMax)
    (h : inp.holds k s (fieldBits x)) : readBits inp k s n = .ok x := by
  rw [readBits_pass hn (by simpa using h.1), span_of_holds h]

/-- Reading one bit that a buffer holds. -/
theorem readBit_of_holds {inp : Input} {k s : Nat} {b : Bool} {l : List Bool}
    (h : inp.holds k s (b :: l)) : readBit inp k s = .ok b := by
  have h1 := h.1
  have h2 := h.2 0 (by simp)
  simp only [List.length_cons] at h1
  rw [readBit_pass (by omega)]
  simpa using h2

end Sys2Proof.Machine
end

