-- ==== Sys2Proof/Laws/State.lean ====
section
/-! SUPPORT. One lemma per field per update of the state, true by definition. -/

namespace Sys2Proof.Machine

/-! ## `start` (R329) -/

@[simp] theorem start_inp (s : State) : s.start.inp = s.inp := rfl
@[simp] theorem start_cmd (s : State) : s.start.cmd = s.cmd := rfl
@[simp] theorem start_status (s : State) : s.start.status = statusExecuting := rfl
@[simp] theorem start_res (s : State) : s.start.res = {} := rfl
@[simp] theorem start_loc (s : State) : s.start.loc = {} := rfl
@[simp] theorem start_host (s : State) : s.start.host = s.host := rfl
@[simp] theorem start_readback (s : State) : s.start.readback = s.readback := rfl
@[simp] theorem start_busyReads (s : State) : s.start.busyReads = s.busyReads := rfl

/-! ## `complete` (R331) -/

@[simp] theorem complete_inp (s : State) (r : Results) : (s.complete r).inp = s.inp := rfl
@[simp] theorem complete_cmd (s : State) (r : Results) : (s.complete r).cmd = s.cmd := rfl
@[simp] theorem complete_status (s : State) (r : Results) : (s.complete r).status = statusSuccess := rfl
@[simp] theorem complete_res (s : State) (r : Results) : (s.complete r).res = r := rfl
@[simp] theorem complete_loc (s : State) (r : Results) : (s.complete r).loc = {} := rfl
@[simp] theorem complete_host (s : State) (r : Results) : (s.complete r).host = s.host := rfl
@[simp] theorem complete_readback (s : State) (r : Results) : (s.complete r).readback = s.readback := rfl
@[simp] theorem complete_busyReads (s : State) (r : Results) : (s.complete r).busyReads = s.busyReads := rfl

/-- A command's start leaves no trace in its successful end. -/
@[simp] theorem start_complete (s : State) (r : Results) : s.start.complete r = s.complete r := rfl

/-! ## `raiseError` (R330) -/

@[simp] theorem raiseError_inp (s : State) (e : DecodeError) : (s.raiseError e).inp = s.inp := rfl
@[simp] theorem raiseError_cmd (s : State) (e : DecodeError) : (s.raiseError e).cmd = s.cmd := rfl
@[simp] theorem raiseError_status (s : State) (e : DecodeError) :
    (s.raiseError e).status = statusRaised e := rfl
@[simp] theorem raiseError_res (s : State) (e : DecodeError) : (s.raiseError e).res = {} := rfl
@[simp] theorem raiseError_loc (s : State) (e : DecodeError) : (s.raiseError e).loc = {} := rfl
@[simp] theorem raiseError_host (s : State) (e : DecodeError) : (s.raiseError e).host = s.host := rfl
@[simp] theorem raiseError_readback (s : State) (e : DecodeError) :
    (s.raiseError e).readback = s.readback := rfl
@[simp] theorem raiseError_busyReads (s : State) (e : DecodeError) :
    (s.raiseError e).busyReads = s.busyReads := rfl

/-- A command's start leaves no trace in its failure. -/
@[simp] theorem start_raiseError (s : State) (e : DecodeError) :
    s.start.raiseError e = s.raiseError e := rfl

/-! ## `reject` (R332) -/

@[simp] theorem reject_inp (s : State) : s.reject.inp = s.inp := rfl
@[simp] theorem reject_cmd (s : State) : s.reject.cmd = s.cmd := rfl
@[simp] theorem reject_status (s : State) : s.reject.status = statusRejected := rfl
@[simp] theorem reject_res (s : State) : s.reject.res = {} := rfl
@[simp] theorem reject_loc (s : State) : s.reject.loc = {} := rfl
@[simp] theorem reject_host (s : State) : s.reject.host = s.host := rfl
@[simp] theorem reject_readback (s : State) : s.reject.readback = s.readback := rfl
@[simp] theorem reject_busyReads (s : State) : s.reject.busyReads = s.busyReads := rfl

/-! ## The reset input (R360) -/

@[simp] theorem pulseReset_nseg (s : State) : s.pulseReset.inp.nseg = 0 := rfl
@[simp] theorem pulseReset_segLen (s : State) :
    s.pulseReset.inp.segLen = Vector.replicate 256 0 := rfl
@[simp] theorem pulseReset_mem (s : State) : s.pulseReset.inp.mem = [] := rfl
@[simp] theorem pulseReset_epoch (s : State) : s.pulseReset.inp.epoch = s.inp.epoch + 1 := rfl
@[simp] theorem pulseReset_cmd (s : State) : s.pulseReset.cmd = 0 := rfl
@[simp] theorem pulseReset_status (s : State) : s.pulseReset.status = 0 := rfl
@[simp] theorem pulseReset_res (s : State) : s.pulseReset.res = {} := rfl
@[simp] theorem pulseReset_loc (s : State) : s.pulseReset.loc = {} := rfl
@[simp] theorem pulseReset_host (s : State) : s.pulseReset.host = s.host := rfl
@[simp] theorem pulseReset_readback (s : State) : s.pulseReset.readback = s.readback := rfl
@[simp] theorem pulseReset_busyReads (s : State) : s.pulseReset.busyReads = s.busyReads := rfl

/-! ## The writes of the host -/

@[simp] theorem writeSeg_epoch (s : State) (k : BitVec 8) (j : BitVec 29) (b : Byte) :
    (s.writeSeg k j b).inp.epoch = s.inp.epoch := rfl
@[simp] theorem writeSeg_segLen (s : State) (k : BitVec 8) (j : BitVec 29) (b : Byte) :
    (s.writeSeg k j b).inp.segLen = s.inp.segLen := rfl
@[simp] theorem writeSeg_nseg (s : State) (k : BitVec 8) (j : BitVec 29) (b : Byte) :
    (s.writeSeg k j b).inp.nseg = s.inp.nseg := rfl
@[simp] theorem writeSeg_status (s : State) (k : BitVec 8) (j : BitVec 29) (b : Byte) :
    (s.writeSeg k j b).status = s.status := rfl
@[simp] theorem writeSeg_res (s : State) (k : BitVec 8) (j : BitVec 29) (b : Byte) :
    (s.writeSeg k j b).res = s.res := rfl
@[simp] theorem writeSeg_loc (s : State) (k : BitVec 8) (j : BitVec 29) (b : Byte) :
    (s.writeSeg k j b).loc = s.loc := rfl

/-! ## The elements -/

@[simp] theorem withSet_inp (s : State) (S : IdSet16) (p : Nat) : (s.withSet S p).inp = s.inp := rfl
@[simp] theorem withSet_status (s : State) (S : IdSet16) (p : Nat) :
    (s.withSet S p).status = s.status := rfl
@[simp] theorem withSet_res (s : State) (S : IdSet16) (p : Nat) : (s.withSet S p).res = s.res := rfl
@[simp] theorem withSet_set (s : State) (S : IdSet16) (p : Nat) : (s.withSet S p).loc.set = S := rfl
@[simp] theorem withSet_p (s : State) (S : IdSet16) (p : Nat) : (s.withSet S p).loc.p = p := rfl
@[simp] theorem withVendorSection_inp (s : State) (v : VendorSection) :
    (s.withVendorSection v).inp = s.inp := rfl
@[simp] theorem withVendorSection_status (s : State) (v : VendorSection) :
    (s.withVendorSection v).status = s.status := rfl
@[simp] theorem withVendorSection_res (s : State) (v : VendorSection) :
    (s.withVendorSection v).res = s.res := rfl
@[simp] theorem withV1Block_inp (s : State) (v : V1Block) : (s.withV1Block v).inp = s.inp := rfl
@[simp] theorem withV1Block_status (s : State) (v : V1Block) :
    (s.withV1Block v).status = s.status := rfl

/-! ## The next command (`withCommand`) -/

@[simp] theorem withCommand_host (s : State) (w : Word64) :
    (s.withCommand w).host = .writeCmd w :: s.host := rfl
@[simp] theorem withCommand_inp (s : State) (w : Word64) : (s.withCommand w).inp = s.inp := rfl
@[simp] theorem withCommand_res (s : State) (w : Word64) : (s.withCommand w).res = s.res := rfl
@[simp] theorem withCommand_loc (s : State) (w : Word64) : (s.withCommand w).loc = s.loc := rfl

end Sys2Proof.Machine
end

