-- ==== Sys2Proof/Laws/Commands.lean ====
section
/-! SUPPORT. What one command, one wire pattern and one host access can do, once each (R329 to R332, R34, R52). -/

namespace Sys2Proof.Machine

set_option Elab.async false

/-! ## The ends of a command, written out -/

theorem complete_start (s : State) (r : Results) : s.start.complete r = afterSuccess s r := rfl

theorem raiseError_eq (s : State) (e : DecodeError) : s.raiseError e = afterError s e.code := by
  cases e <;> rfl

theorem raiseError_start (s : State) (e : DecodeError) :
    s.start.raiseError e = afterError s e.code := by
  cases e <;> rfl

theorem reject_eq (s : State) : s.reject = afterReject s := rfl

/-- All that a command can do: it is illegal and rejected, or its body gives its results, or its body raises an
error, or its body leaves the precondition of `read_bits` (R329 to R332). -/
theorem runCommand_cases (s : State) (legal : Bool) (body : Dec Results) :
    (legal = false ∧ s.runCommand legal body = .next (afterReject s)) ∨
    (∃ r, legal = true ∧ body = .ok r ∧ s.runCommand legal body = .next (afterSuccess s r)) ∨
    (∃ e, legal = true ∧ body = .error (.raised e) ∧
      s.runCommand legal body = .next (afterError s e.code)) ∨
    (legal = true ∧ body = .error .undefinedRead ∧
      s.runCommand legal body = .fault .undefinedRead) := by
  cases legal with
  | false => exact .inl ⟨rfl, rfl⟩
  | true =>
    rcases body with (e | _) | r
    · exact .inr (.inr (.inl ⟨e, rfl, rfl, by rw [← raiseError_start]; rfl⟩))
    · exact .inr (.inr (.inr ⟨rfl, rfl, rfl⟩))
    · exact .inr (.inl ⟨r, rfl, rfl, rfl⟩)

theorem runCommand_ok {s : State} {legal : Bool} {body : Dec Results} {r : Results}
    (hl : legal = true) (h : body = .ok r) : s.runCommand legal body = .next (afterSuccess s r) := by
  subst hl h; rfl

theorem runCommand_error {s : State} {legal : Bool} {body : Dec Results} {e : DecodeError}
    (hl : legal = true) (h : body = .error (.raised e)) :
    s.runCommand legal body = .next (afterError s e.code) := by
  subst hl h; rw [← raiseError_start]; rfl

theorem runCommand_illegal {s : State} {legal : Bool} {body : Dec Results} (hl : legal = false) :
    s.runCommand legal body = .next (afterReject s) := by
  subst hl; rfl

/-- All that a wire pattern can do (R330; log entries 10 and 12). -/
theorem runElement_cases (s : State) (k : BitVec 8) (body : Dec State) :
    (s.inp.nseg.toNat ≤ k.toNat ∧ s.runElement k body = .next (afterReject s)) ∨
    (∃ t, k.toNat < s.inp.nseg.toNat ∧ body = .ok t ∧ s.runElement k body = .next t) ∨
    (∃ e, k.toNat < s.inp.nseg.toNat ∧ body = .error (.raised e) ∧
      s.runElement k body = .next (afterError s e.code)) ∨
    (k.toNat < s.inp.nseg.toNat ∧ body = .error .undefinedRead ∧
      s.runElement k body = .fault .undefinedRead) := by
  unfold State.runElement segLoaded
  by_cases h : k.toNat < s.inp.nseg.toNat
  · rw [if_pos (by simpa using h)]
    rcases body with (e | _) | t
    · exact .inr (.inr (.inl ⟨e, h, rfl, by rw [← raiseError_eq]; rfl⟩))
    · exact .inr (.inr (.inr ⟨h, rfl, rfl⟩))
    · exact .inr (.inl ⟨t, h, rfl, rfl⟩)
  · rw [if_neg (by simpa using h)]
    exact .inl ⟨by omega, rfl⟩

theorem runElement_ok {s t : State} {k : BitVec 8} {body : Dec State}
    (hk : k.toNat < s.inp.nseg.toNat) (h : body = .ok t) : s.runElement k body = .next t := by
  subst h
  simp [State.runElement, segLoaded, hk, State.conclude]

theorem runElement_error {s : State} {k : BitVec 8} {body : Dec State} {e : DecodeError}
    (hk : k.toNat < s.inp.nseg.toNat) (h : body = .error (.raised e)) :
    s.runElement k body = .next (afterError s e.code) := by
  subst h
  simp [State.runElement, segLoaded, hk, State.conclude, raiseError_eq]

/-! ## Host accesses -/

/-- All that a host write can do (R52, R91). -/
theorem hostWrite_cases (s : State) (present : Bool) (result : Host.Outcome State Fault Refusal) :
    (s.busy = true ∧ s.hostWrite present result = .refused .hostWriteWhileBusy) ∨
    (s.busy = false ∧ present = true ∧ s.hostWrite present result = result) ∨
    (s.busy = false ∧ present = false ∧ s.hostWrite present result = .fault .noSuchRegister) := by
  unfold State.hostWrite
  cases s.busy <;> cases present <;> simp

/-- All that a host read can do (R52, R371). -/
theorem hostRead_cases (s : State) (r : HostReg) :
    (r.present = true ∧
      s.hostRead r = .next { (s.readReg r).2 with readback := some (s.readReg r).1 }) ∨
    (r.present = false ∧ s.hostRead r = .fault .noSuchRegister) := by
  unfold State.hostRead
  cases r.present <;> simp

/-- A read of a register changes no register; it may draw one unspecified value (R371). -/
theorem readReg_state (s : State) (r : HostReg) :
    (s.readReg r).2 = s ∨ (s.readReg r).2 = { s with busyReads := s.busyReads + 1 } := by
  cases r <;> simp only [State.readReg, true_or]
  split
  · exact .inr rfl
  · exact .inl rfl

/-- The step takes the oldest access of the host. -/
theorem step_access {s : State} {a : HostAccess} {rest : List HostAccess} (h : s.host = a :: rest) :
    step s = State.hostAccess { s with host := rest } a := by
  simp [step, State.advance, h]

/-- A read of a result register while no command executes returns the register (R52). -/
theorem step_read_result {s : State} {q : ResultReg} {rest : List HostAccess}
    (h : s.host = .read (.result q) :: rest) (hb : s.busy = false) (hq : q.present = true) :
    step s = .next { s with host := rest, readback := some (s.res.value q) } := by
  rw [step_access h]
  simp only [State.hostAccess, State.hostRead, HostReg.present, State.readReg]
  rw [if_pos hq, if_neg (by simpa [State.busy] using hb)]

/-- A legal write of `CMD` by the host issues the command (R34). -/
theorem step_command {s : State} {w : Word64} {rest : List HostAccess} (h : s.host = .writeCmd w :: rest)
    (hb : s.busy = false) : step s = State.runCmd { s with host := rest, cmd := w } := by
  rw [step_access h]
  simp only [State.hostAccess, State.hostWrite]
  rw [if_neg (by simpa [State.busy] using hb), if_pos trivial]
  rfl

end Sys2Proof.Machine
end

