-- ==== Sys2Proof/Laws/Config.lean ====
section
/-! SUPPORT. The ranges of the two open parameters (R6). -/

namespace Sys2Proof.Config

theorem maxSegs_pos : 0 < maxSegs := by
  have := maxSegsBelow256.isLt
  unfold maxSegs
  omega

theorem maxSegs_le : maxSegs ≤ 256 := Nat.sub_le _ _

theorem maxSegBytes_pos : 0 < maxSegBytes := by
  have := maxSegBytesBelow.isLt
  unfold maxSegBytes
  omega

theorem maxSegBytes_le : maxSegBytes ≤ 2 ^ 29 := Nat.sub_le _ _

end Sys2Proof.Config
end

