-- ==== Sys2Proof/Laws/Sets.lean ====
section
/-! SUPPORT. What the set operations do, as facts about membership (R10, R36, R218). -/

namespace Sys2Proof

set_option Elab.async false

theorem idSpace_eq : idSpace = 65536 := rfl

namespace IdSet

theorem ext_mem {n : Nat} {S T : IdSet n} (h : ∀ i, S.mem i = T.mem i) : S = T := by
  cases S; cases T
  congr 1
  exact BitVec.eq_of_getLsbD_eq fun i _ => h i

theorem mem_lt {n : Nat} {S : IdSet n} {i : Nat} (h : S.mem i = true) : i < n :=
  BitVec.lt_of_getLsbD h

@[simp] theorem mem_empty {n i : Nat} : (IdSet.empty : IdSet n).mem i = false := by
  simp [mem, empty]

/-- `S + {i}` has the members of `S` and `i`. -/
@[simp] theorem mem_insert {n : Nat} (S : IdSet n) (i j : Nat) :
    (S.insert i).mem j = (S.mem j || (decide (i = j) && decide (j < n))) := by
  simp only [mem, insert, BitVec.getLsbD_or, BitVec.getLsbD_twoPow]
  by_cases h : i = j
  · subst h; by_cases hi : i < n <;> simp [hi]
  · simp [h]

/-- `{lo .. hi}` has the members between `lo` and `hi`; none when `lo > hi`. -/
@[simp] theorem mem_interval {n lo hi j : Nat} :
    (interval lo hi : IdSet n).mem j = (decide (lo ≤ j) && decide (j ≤ hi) && decide (j < n)) := by
  simp only [mem, interval, BitVec.getLsbD_and, BitVec.getLsbD_ushiftRight, BitVec.getLsbD_shiftLeft,
    BitVec.getLsbD_allOnes]
  rw [Bool.eq_iff_iff]
  simp
  omega

@[simp] theorem mem_union {n : Nat} (S T : IdSet n) (j : Nat) :
    (S.union T).mem j = (S.mem j || T.mem j) := by
  simp [mem, union]

@[simp] theorem mem_narrow {n : Nat} (S : IdSet n) (j : Nat) :
    S.narrow.mem j = (S.mem j && decide (j < 64)) := by
  simp [mem, narrow, BitVec.getLsbD_setWidth, Bool.and_comm]

theorem mem_members {n : Nat} (S : IdSet n) (i : Nat) : i ∈ S.members ↔ S.mem i = true := by
  simp only [members, List.mem_filter, List.mem_range, and_iff_right_iff_imp]
  exact mem_lt

@[simp] theorem members_empty {n : Nat} : (IdSet.empty : IdSet n).members = [] := by
  rw [List.eq_nil_iff_forall_not_mem]
  intro a ha
  simp [mem_members] at ha

theorem members_ascending {n : Nat} (S : IdSet n) : S.members.Pairwise (· < ·) :=
  List.pairwise_lt_range.filter _

end IdSet

namespace Machine

theorem lt_idSpace (x : BitVec 16) : x.toNat < idSpace := x.isLt

theorem mem_addSingle (S : IdSet16) (id : BitVec 16) (i : Nat) :
    (addSingle S id).mem i = true ↔ S.mem i = true ∨ i = id.toNat := by
  have hid := lt_idSpace id
  rw [addSingle, IdSet.mem_insert]
  simp only [Bool.or_eq_true, Bool.and_eq_true, decide_eq_true_eq]
  constructor
  · rintro (h | ⟨h, -⟩)
    · exact .inl h
    · exact .inr h.symm
  · rintro (h | rfl)
    · exact .inl h
    · exact .inr ⟨rfl, hid⟩

theorem mem_addRange (S : IdSet16) (lo hi : BitVec 16) (i : Nat) :
    (addRange S lo hi).mem i = true ↔ S.mem i = true ∨ (lo.toNat ≤ i ∧ i ≤ hi.toNat) := by
  have hhi := lt_idSpace hi
  rw [addRange, IdSet.mem_union, IdSet.mem_interval]
  simp only [Bool.or_eq_true, Bool.and_eq_true, decide_eq_true_eq]
  constructor
  · rintro (h | ⟨h, -⟩)
    · exact .inl h
    · exact .inr h
  · rintro (h | h)
    · exact .inl h
    · exact .inr ⟨h, Nat.lt_of_le_of_lt h.2 hhi⟩

end Machine

end Sys2Proof
end

