-- ==== Sys2Proof/Laws/Fields.lean ====
section
/-! SUPPORT. What the field decoders can do, once each: bitmaps (R206) and alphabet strings (R195). -/

namespace Sys2Proof.Machine

set_option Elab.async false

/-! ## Bitmaps -/

/-- Within the capacity the loop of `flags` gives the 1-based positions of the set flags (R206). -/
theorem flagLoop_spec {inp : Input} {k s n : Nat} (h : s + n ≤ inp.cap k) (hn : n < idSpace) :
    ∃ S, flagLoop inp k s n = .ok S ∧
      ∀ i, S.mem i = true ↔ 1 ≤ i ∧ i ≤ n ∧ inp.wireBit k (s + (i - 1)) = true := by
  induction n with
  | zero => exact ⟨.empty, rfl, fun i => by simp; omega⟩
  | succ n ih =>
    obtain ⟨S, hS, hm⟩ := ih (by omega) (by omega)
    refine ⟨if inp.wireBit k (s + n) then S.insert (n + 1) else S, ?_, fun i => ?_⟩
    · rw [flagLoop, hS, Dec.ok_bind, readBit_pass (by omega), Dec.ok_bind]
    · have hi := hm i
      cases hb : inp.wireBit k (s + n) with
      | false =>
        simp only [Bool.false_eq_true, if_false, hi]
        constructor
        · rintro ⟨h1, h2, h3⟩; exact ⟨h1, by omega, h3⟩
        · rintro ⟨h1, h2, h3⟩
          by_cases hc : i = n + 1
          · subst hc; simp [hb] at h3
          · exact ⟨h1, by omega, h3⟩
      | true =>
        simp only [if_true]
        rw [IdSet.mem_insert]
        simp only [Bool.or_eq_true, Bool.and_eq_true, decide_eq_true_eq, hi]
        constructor
        · rintro (⟨h1, h2, h3⟩ | ⟨rfl, -⟩)
          · exact ⟨h1, by omega, h3⟩
          · exact ⟨by omega, by omega, by simpa using hb⟩
        · rintro ⟨h1, h2, h3⟩
          by_cases hc : i = n + 1
          · exact .inr ⟨hc.symm, by omega⟩
          · exact .inl ⟨h1, by omega, h3⟩

/-- All that `flags` can do (R206). -/
theorem flags_cases (inp : Input) (k s n : Nat) (hn : n < idSpace) :
    (s + n ≤ inp.cap k ∧ ∃ S, flags inp k s n = .ok (S, s + n) ∧
      ∀ i, S.mem i = true ↔ 1 ≤ i ∧ i ≤ n ∧ inp.wireBit k (s + (i - 1)) = true) ∨
    (inp.cap k < s + n ∧ flags inp k s n = .error (.raised .insufficientLength)) := by
  rcases require_cases inp k (s + n) with ⟨h, hr⟩ | ⟨h, hr⟩
  · obtain ⟨S, hS, hm⟩ := flagLoop_spec h hn
    exact .inl ⟨h, S, by rw [flags, hr, Dec.ok_bind, hS, Dec.ok_bind], hm⟩
  · exact .inr ⟨h, by rw [flags, hr, Dec.error_bind]⟩

/-- All that a bitmap for an `IDSET(64)` register can do (R206, R207). -/
theorem shortFlags_cases (inp : Input) (k s n : Nat) (hn : n < 64) :
    (s + n ≤ inp.cap k ∧ ∃ S, shortFlags inp k s n = .ok S ∧
      ∀ i, S.mem i = true ↔ 1 ≤ i ∧ i ≤ n ∧ inp.wireBit k (s + (i - 1)) = true) ∨
    (inp.cap k < s + n ∧ shortFlags inp k s n = .error (.raised .insufficientLength)) := by
  have hs : n < idSpace := Nat.lt_trans hn (by unfold idSpace; omega)
  rcases flags_cases inp k s n hs with ⟨h, S, hS, hm⟩ | ⟨h, hS⟩
  · refine .inl ⟨h, S.narrow, by rw [shortFlags, hS, Dec.ok_bind], fun i => ?_⟩
    rw [IdSet.mem_narrow, Bool.and_eq_true, hm i, decide_eq_true_eq]
    constructor
    · exact fun h => h.1
    · exact fun h => ⟨h, by omega⟩
  · exact .inr ⟨h, by rw [shortFlags, hS, Dec.error_bind]⟩

/-- The set flags that a buffer holds, by position (R136). -/
theorem flagsCover_of_holds {inp : Input} {k s : Nat} {l : List Bool} (h : inp.holds k s l) (i : Nat) :
    Format.flagsCover l i ↔ 1 ≤ i ∧ i ≤ l.length ∧ inp.wireBit k (s + (i - 1)) = true := by
  unfold Format.flagsCover
  constructor
  · rintro ⟨h1, h2⟩
    obtain ⟨hl, he⟩ := List.getElem?_eq_some_iff.mp h2
    exact ⟨h1, by omega, by rw [h.2 _ hl, he]⟩
  · rintro ⟨h1, h2, h3⟩
    have hl : i - 1 < l.length := by omega
    exact ⟨h1, by rw [List.getElem?_eq_getElem hl, ← h.2 _ hl, h3]⟩

/-- A bitmap that a buffer holds decodes to its set flags. -/
theorem flags_of_holds {inp : Input} {k s n : Nat} {l : List Bool} (h : inp.holds k s l)
    (hl : l.length = n) (hn : n < idSpace) :
    ∃ S, flags inp k s n = .ok (S, s + n) ∧ ∀ i, S.mem i = true ↔ Format.flagsCover l i := by
  subst hl
  rcases flags_cases inp k s l.length hn with ⟨-, S, hS, hm⟩ | ⟨hc, -⟩
  · exact ⟨S, hS, fun i => by rw [hm i, flagsCover_of_holds h]⟩
  · exact absurd h.1 (by omega)

/-- A short bitmap that a buffer holds decodes to its set flags. -/
theorem shortFlags_of_holds {inp : Input} {k s n : Nat} {l : List Bool} (h : inp.holds k s l)
    (hl : l.length = n) (hn : n < 64) :
    ∃ S, shortFlags inp k s n = .ok S ∧ ∀ i, S.mem i = true ↔ Format.flagsCover l i := by
  subst hl
  rcases shortFlags_cases inp k s l.length hn with ⟨-, S, hS, hm⟩ | ⟨hc, -⟩
  · exact ⟨S, hS, fun i => by rw [hm i, flagsCover_of_holds h]⟩
  · exact absurd h.1 (by omega)

/-! ## Alphabet strings -/

/-- All that `letter` can do (R147, R195). -/
theorem letter_cases {w : Nat} (v : BitVec w) :
    (v.toNat ≤ 25 ∧ letter v = .ok (BitVec.ofNat 8 (0x41 + v.toNat))) ∨
    (25 < v.toNat ∧ letter v = .error (.raised .invalidAlphabetOffset)) := by
  unfold letter raise
  split
  · exact .inr ⟨‹_›, rfl⟩
  · refine .inl ⟨by omega, ?_⟩
    congr 1
    apply BitVec.eq_of_toNat_eq
    simp [BitVec.toNat_add, BitVec.toNat_setWidth, BitVec.toNat_ofNat]

/-- All that `alpha` can do in a span within the capacity (R195). -/
theorem alpha_cases (inp : Input) (k s cnt w : Nat) (hw : w ≤ 64)
    (h : s + cnt * w ≤ inp.cap k) :
    (∃ l, alpha inp k s cnt w = .ok l ∧ l.length = cnt ∧ ∀ i, (hi : i < l.length) →
      (inp.span k (s + i * w) w).toNat ≤ 25 ∧
        l[i] = BitVec.ofNat 8 (0x41 + (inp.span k (s + i * w) w).toNat)) ∨
    (alpha inp k s cnt w = .error (.raised .invalidAlphabetOffset) ∧
      ∃ i, i < cnt ∧ 25 < (inp.span k (s + i * w) w).toNat) := by
  induction cnt with
  | zero => exact .inl ⟨[], rfl, rfl, by simp⟩
  | succ cnt ih =>
    have hb : s + cnt * w + w ≤ inp.cap k := by rw [Nat.succ_mul] at h; omega
    rw [alpha]
    rcases ih (by omega) with ⟨l, hl, hlen, hv⟩ | ⟨he, i, hi, hv⟩
    · rw [hl, Dec.ok_bind, readBits_pass (by simpa [Config.readMax] using hw) hb, Dec.ok_bind]
      rcases letter_cases (inp.span k (s + cnt * w) w) with ⟨hc, hL⟩ | ⟨hc, hL⟩
      · rw [hL, Dec.ok_bind]
        refine .inl ⟨_, rfl, by simp [hlen], fun i hi => ?_⟩
        by_cases hj : i < l.length
        · rw [List.getElem_append_left hj]
          exact hv i hj
        · have : i = cnt := by simp [hlen] at hi; omega
          subst this
          exact ⟨hc, by rw [List.getElem_append_right (by omega)]; simp⟩
      · rw [hL, Dec.error_bind]
        exact .inr ⟨rfl, cnt, by omega, hc⟩
    · rw [he, Dec.error_bind]
      exact .inr ⟨rfl, i, by omega, hv⟩

end Sys2Proof.Machine
end

