-- ==== Sys2Proof/Laws/Memory.lean ====
section
/-! SUPPORT. The buffer memory: a write is read back, leaves every other address alone, and keeps the
canonical form. -/

namespace Sys2Proof.Machine

set_option Elab.async false

theorem Memory.read_list (e a : Nat) (b : Byte) (m : Memory) (a' : Nat)
    (h : a' = a → Memory.read e m a' = Memory.unlisted e a') :
    Memory.read e (Memory.list e a b m) a' = if a' = a then b else Memory.read e m a' := by
  unfold Memory.list
  split
  · next hb =>
    split
    · next ha => rw [h ha, hb, ha]
    · rfl
  · rfl

/-- An address below every listed one reads as unlisted. -/
theorem Memory.read_below (e : Nat) : (m : Memory) → (a : Nat) → (∀ c ∈ m, a < c.1) →
    Memory.read e m a = Memory.unlisted e a
  | [], _, _ => rfl
  | (x, b) :: rest, a, h => by
    have hx : a < x := h (x, b) (by simp)
    rw [Memory.read, if_neg (by omega)]
    exact read_below e rest a fun c hc => h c (by simp [hc])

theorem Memory.read_write (e : Nat) : (m : Memory) → Memory.wf e m → (a : Nat) → (b : Byte) →
    (a' : Nat) → Memory.read e (Memory.write e m a b) a' = if a' = a then b else Memory.read e m a'
  | [], _, a, b, a' => by
    rw [Memory.write, Memory.read_list]
    intro _; rfl
  | (x, c) :: rest, hwf, a, b, a' => by
    obtain ⟨hs, hn⟩ := hwf
    rw [List.pairwise_cons] at hs
    rw [Memory.write]
    split
    · next h =>
      apply Memory.read_list
      intro he
      apply Memory.read_below
      intro d hd
      rcases List.mem_cons.mp hd with rfl | hd
      · show a' < x; omega
      · have := hs.1 d hd; simp at this; omega
    · split
      · next h1 h2 =>
        subst h2
        rw [Memory.read_list]
        · split
          · rfl
          · next h => rw [Memory.read, if_neg h]
        · intro he
          apply Memory.read_below
          intro d hd
          have := hs.1 d hd; simp at this; omega
      · next h1 h2 =>
        have ih := read_write e rest ⟨hs.2, fun d hd => hn d (by simp [hd])⟩ a b a'
        rw [Memory.read, ih, Memory.read]
        by_cases hx : a' = x
        · subst hx
          simp only [if_true]
          rw [if_neg (by omega)]
        · simp [hx]

theorem Memory.mem_list {e a : Nat} {b : Byte} {m : Memory} {c : Host.Cell}
    (h : c ∈ Memory.list e a b m) : c ∈ m ∨ (c = (a, b) ∧ b ≠ Memory.unlisted e a) := by
  unfold Memory.list at h
  split at h
  · exact .inl h
  · next hb =>
    rcases List.mem_cons.mp h with h | h
    · exact .inr ⟨h, hb⟩
    · exact .inl h

/-- A write lists no cell but the one it writes. -/
theorem Memory.mem_write {e : Nat} : {m : Memory} → {a : Nat} → {b : Byte} → {c : Host.Cell} →
    c ∈ Memory.write e m a b → c ∈ m ∨ (c = (a, b) ∧ b ≠ Memory.unlisted e a)
  | [], a, b, c, h => Memory.mem_list h
  | (x, d) :: rest, a, b, c, h => by
    rw [Memory.write] at h
    split at h
    · exact Memory.mem_list h
    · split at h
      · rcases Memory.mem_list h with h | h
        · exact .inl (by simp [h])
        · exact .inr h
      · rcases List.mem_cons.mp h with h | h
        · exact .inl (by simp [h])
        · rcases mem_write h with h | h
          · exact .inl (by simp [h])
          · exact .inr h

theorem Memory.wf_list {e a : Nat} {b : Byte} {m : Memory} (h : Memory.wf e m)
    (ha : ∀ c ∈ m, a < c.1) : Memory.wf e (Memory.list e a b m) := by
  unfold Memory.list
  split
  · exact h
  · next hb =>
    refine ⟨List.pairwise_cons.mpr ⟨fun c hc => ha c hc, h.1⟩, ?_⟩
    intro c hc
    rcases List.mem_cons.mp hc with rfl | hc
    · exact hb
    · exact h.2 c hc

/-- Every write keeps the canonical form. -/
theorem Memory.wf_write {e : Nat} : {m : Memory} → Memory.wf e m → (a : Nat) → (b : Byte) →
    Memory.wf e (Memory.write e m a b)
  | [], h, a, b => Memory.wf_list h (by simp)
  | (x, c) :: rest, hwf, a, b => by
    have hwf' := hwf
    obtain ⟨hs, hn⟩ := hwf
    rw [List.pairwise_cons] at hs
    have hr : Memory.wf e rest := ⟨hs.2, fun d hd => hn d (by simp [hd])⟩
    rw [Memory.write]
    split
    · next h =>
      apply Memory.wf_list hwf'
      intro d hd
      rcases List.mem_cons.mp hd with rfl | hd
      · exact h
      · have := hs.1 d hd; simp at this; omega
    · split
      · next h1 h2 =>
        subst h2
        exact Memory.wf_list hr fun d hd => hs.1 d hd
      · next h1 h2 =>
        have ih := wf_write hr a b
        refine ⟨List.pairwise_cons.mpr ⟨?_, ih.1⟩, ?_⟩
        · intro d hd
          rcases Memory.mem_write hd with hd | ⟨rfl, -⟩
          · exact hs.1 d hd
          · show x < a; omega
        · intro d hd
          rcases List.mem_cons.mp hd with rfl | hd
          · exact hn _ (by simp)
          · exact ih.2 d hd

/-- The reset memory is canonical. -/
theorem Memory.wf_reset : Memory.wf State.reset.inp.epoch State.reset.inp.mem :=
  ⟨List.Pairwise.nil, by simp [State.reset]⟩

theorem byteAddress_inj {k k' j j' : Nat} (hj : j < 2 ^ 29) (hj' : j' < 2 ^ 29)
    (h : byteAddress k j = byteAddress k' j') : k = k' ∧ j = j' := by
  unfold byteAddress at h
  omega

end Sys2Proof.Machine
end

