-- ==== Sys2Proof/Laws/PerInstr.lean ====
section
/-! SUPPORT. Statements about every instruction, one lemma per constructor. -/

namespace Sys2Proof.Laws.EncodedLength

set_option Elab.async false

/-- How many bits the row of an instruction has in the `encoding` column of the opcode table. -/
def width : Instr → Nat
  | .clr | .reqb _ _ | .rdb _ _ _ | .rdf _ _ _ _ | .rda _ _ _ _ | .rdfs _ _ _ | .rdrs _ _
  | .rdvs _ _ | .rdpr _ _ | .rdseg _ | .decv1 | .decv2 | .dec => 64
  | .wireVersionV1 | .wireVersionV2 => 6
  | .wireRangesetSingle _ => 17
  | .wireRangesetRange _ _ => 33
  | .wireRangesetCount _ => 12
  | .wireVendorsecBitmap _ | .wireVendorsecRange _ => 17
  | .wireV1VendorsBitmap _ => 17
  | .wireV1VendorsRange _ _ => 18
  | .wirePubrestrEntry _ _ => 8
  | .wireRtypeNotallowed | .wireRtypeRequireconsent | .wireRtypeRequireli
  | .wireRtypeUndefined => 2
  | .wireSegtagDisclosed | .wireSegtagAllowed | .wireSegtagPublishertc
  | .wireSegtagInvalid000 | .wireSegtagInvalid100 | .wireSegtagInvalid101
  | .wireSegtagInvalid110 | .wireSegtagInvalid111 => 3
  | .wireLetter _ => 6

/-- The encoder writes as many bits as the row of the opcode table has. -/
def Statement (i : Instr) : Prop := (encode i).length = width i

theorem clr : Statement .clr := by
  simp [Statement, width, encode, encodeWord]

theorem reqb (seg : BitVec 8) (bitCount : BitVec 32) : Statement (.reqb seg bitCount) := by
  simp [Statement, width, encode, encodeWord]

theorem rdb (seg : BitVec 8) (start : BitVec 32) (len : BitVec 16) : Statement (.rdb seg start len) := by
  simp [Statement, width, encode, encodeWord]

theorem rdf (seg : BitVec 8) (start : BitVec 32) (len : BitVec 7) (ty : BitVec 2) : Statement (.rdf seg start len ty) := by
  simp [Statement, width, encode, encodeWord]

theorem rda (seg : BitVec 8) (start : BitVec 32) (cnt : BitVec 8) (w : BitVec 8) : Statement (.rda seg start cnt w) := by
  simp [Statement, width, encode, encodeWord]

theorem rdfs (seg : BitVec 8) (start : BitVec 32) (len : BitVec 16) : Statement (.rdfs seg start len) := by
  simp [Statement, width, encode, encodeWord]

theorem rdrs (seg : BitVec 8) (start : BitVec 32) : Statement (.rdrs seg start) := by
  simp [Statement, width, encode, encodeWord]

theorem rdvs (seg : BitVec 8) (start : BitVec 32) : Statement (.rdvs seg start) := by
  simp [Statement, width, encode, encodeWord]

theorem rdpr (seg : BitVec 8) (start : BitVec 32) : Statement (.rdpr seg start) := by
  simp [Statement, width, encode, encodeWord]

theorem rdseg (seg : BitVec 8) : Statement (.rdseg seg) := by
  simp [Statement, width, encode, encodeWord]

theorem decv1 : Statement .decv1 := by
  simp [Statement, width, encode, encodeWord]

theorem decv2 : Statement .decv2 := by
  simp [Statement, width, encode, encodeWord]

theorem dec : Statement .dec := by
  simp [Statement, width, encode, encodeWord]

theorem wireVersionV1 : Statement .wireVersionV1 := by
  simp [Statement, width, encode, encodeWord, encodeWire]

theorem wireVersionV2 : Statement .wireVersionV2 := by
  simp [Statement, width, encode, encodeWord, encodeWire]

theorem wireRangesetSingle (id : BitVec 16) : Statement (.wireRangesetSingle id) := by
  simp [Statement, width, encode, encodeWord, encodeWire]

theorem wireRangesetRange (lo hi : BitVec 16) : Statement (.wireRangesetRange lo hi) := by
  simp [Statement, width, encode, encodeWord, encodeWire]

theorem wireRangesetCount (n : BitVec 12) : Statement (.wireRangesetCount n) := by
  simp [Statement, width, encode, encodeWord, encodeWire]

theorem wireVendorsecBitmap (maxId : BitVec 16) : Statement (.wireVendorsecBitmap maxId) := by
  simp [Statement, width, encode, encodeWord, encodeWire]

theorem wireVendorsecRange (maxId : BitVec 16) : Statement (.wireVendorsecRange maxId) := by
  simp [Statement, width, encode, encodeWord, encodeWire]

theorem wireV1VendorsBitmap (maxId : BitVec 16) : Statement (.wireV1VendorsBitmap maxId) := by
  simp [Statement, width, encode, encodeWord, encodeWire]

theorem wireV1VendorsRange (maxId : BitVec 16) (blocklist : BitVec 1) : Statement (.wireV1VendorsRange maxId blocklist) := by
  simp [Statement, width, encode, encodeWord, encodeWire]

theorem wirePubrestrEntry (purposeId : BitVec 6) (rtype : BitVec 2) : Statement (.wirePubrestrEntry purposeId rtype) := by
  simp [Statement, width, encode, encodeWord, encodeWire]

theorem wireRtypeNotallowed : Statement .wireRtypeNotallowed := by
  simp [Statement, width, encode, encodeWord, encodeWire]

theorem wireRtypeRequireconsent : Statement .wireRtypeRequireconsent := by
  simp [Statement, width, encode, encodeWord, encodeWire]

theorem wireRtypeRequireli : Statement .wireRtypeRequireli := by
  simp [Statement, width, encode, encodeWord, encodeWire]

theorem wireRtypeUndefined : Statement .wireRtypeUndefined := by
  simp [Statement, width, encode, encodeWord, encodeWire]

theorem wireSegtagDisclosed : Statement .wireSegtagDisclosed := by
  simp [Statement, width, encode, encodeWord, encodeWire]

theorem wireSegtagAllowed : Statement .wireSegtagAllowed := by
  simp [Statement, width, encode, encodeWord, encodeWire]

theorem wireSegtagPublishertc : Statement .wireSegtagPublishertc := by
  simp [Statement, width, encode, encodeWord, encodeWire]

theorem wireSegtagInvalid000 : Statement .wireSegtagInvalid000 := by
  simp [Statement, width, encode, encodeWord, encodeWire]

theorem wireSegtagInvalid100 : Statement .wireSegtagInvalid100 := by
  simp [Statement, width, encode, encodeWord, encodeWire]

theorem wireSegtagInvalid101 : Statement .wireSegtagInvalid101 := by
  simp [Statement, width, encode, encodeWord, encodeWire]

theorem wireSegtagInvalid110 : Statement .wireSegtagInvalid110 := by
  simp [Statement, width, encode, encodeWord, encodeWire]

theorem wireSegtagInvalid111 : Statement .wireSegtagInvalid111 := by
  simp [Statement, width, encode, encodeWord, encodeWire]

theorem wireLetter (v : BitVec 6) : Statement (.wireLetter v) := by
  simp [Statement, width, encode, encodeWord, encodeWire]

end Sys2Proof.Laws.EncodedLength
end

