-- ==== Sys2Proof/Laws/Sections.lean ====
section
/-! SUPPORT. What the section decoders do with what a buffer holds: range-sets (R216), vendor sections (R221) and
publisher restrictions (R276). For each: the element that stands in the buffer decodes to its value, and when the
decoder stops it stops with `InsufficientLength`. -/

namespace Sys2Proof.Machine

set_option Elab.async false

open Sys2Proof.Format

/-! ## Range-sets -/

/-- Reading the entries that a buffer holds adds the IDs of each (R216). -/
theorem rangeEntries_of_holds {inp : Input} {k : Nat} (items : List RangeItem) {p : Nat} (S : IdSet16)
    (h : inp.holds k p (items.flatMap RangeItem.bits)) :
    ∃ T, rangeEntries inp k items.length p S =
        .ok (T, p + (items.flatMap RangeItem.bits).length) ∧
      ∀ i, T.mem i = true ↔ S.mem i = true ∨ rangeSetCovers items i := by
  induction items generalizing p S with
  | nil => exact ⟨S, rfl, fun i => by simp [rangeSetCovers]⟩
  | cons e items ih =>
    rw [List.flatMap_cons, holds_append] at h
    obtain ⟨he, hr⟩ := h
    have hcap := he.1
    have hrcap := hr.1
    cases e with
    | single id =>
      simp only [RangeItem.bits, encodeWire] at he hr hcap hrcap
      simp only [List.length_cons, fieldBits_length] at hr hcap hrcap
      have hd := readBit_of_holds he
      rw [holds_cons] at he
      obtain ⟨T, hT, hm⟩ := ih (addSingle S id) hr
      refine ⟨T, ?_, fun i => ?_⟩
      · rw [List.length_cons, rangeEntries, require_pass (by omega), Dec.ok_bind, hd, Dec.ok_bind,
          if_pos rfl, require_pass (by omega), Dec.ok_bind,
          readBits_of_holds (by decide) he.2, Dec.ok_bind, hT]
        simp only [List.flatMap_cons, List.length_append, RangeItem.bits, encodeWire,
          List.length_cons, fieldBits_length, Nat.add_assoc]
      · rw [hm, mem_addSingle]
        simp only [rangeSetCovers, List.mem_cons, exists_eq_or_imp, RangeItem.covers, or_assoc]
    | range lo hi =>
      simp only [RangeItem.bits, encodeWire] at he hr hcap hrcap
      simp only [List.length_cons, List.length_append, fieldBits_length] at hr hcap hrcap
      have hd := readBit_of_holds he
      rw [holds_cons, holds_append] at he
      obtain ⟨-, hlo, hhi⟩ := he
      simp only [fieldBits_length] at hhi
      obtain ⟨T, hT, hm⟩ := ih (addRange S lo hi) hr
      refine ⟨T, ?_, fun i => ?_⟩
      · rw [List.length_cons, rangeEntries, require_pass (by omega), Dec.ok_bind, hd, Dec.ok_bind,
          if_neg (by decide), require_pass (by omega), Dec.ok_bind,
          readBits_of_holds (by decide) hlo, Dec.ok_bind,
          readBits_of_holds (by decide) hhi, Dec.ok_bind, hT]
        simp only [List.flatMap_cons, List.length_append, RangeItem.bits, encodeWire,
          List.length_cons, fieldBits_length, Nat.add_assoc]
      · rw [hm, mem_addRange]
        simp only [rangeSetCovers, List.mem_cons, exists_eq_or_imp, RangeItem.covers, or_assoc]

/-- All that reading range-set entries can do: they stand in the buffer, or the buffer is too short (R216). -/
theorem rangeEntries_cases (inp : Input) (k n p : Nat) (S : IdSet16) (hp : p ≤ inp.cap k) :
    (∃ items : List RangeItem, items.length = n ∧ inp.holds k p (items.flatMap RangeItem.bits)) ∨
    rangeEntries inp k n p S = .error (.raised .insufficientLength) := by
  induction n generalizing p S with
  | zero => exact .inl ⟨[], rfl, holds_nil.mpr hp⟩
  | succ n ih =>
    rw [rangeEntries]
    rcases require_cases inp k (p + 1) with ⟨h1, hr⟩ | ⟨-, hr⟩
    · rw [hr, Dec.ok_bind, readBit_pass (by omega), Dec.ok_bind]
      have hbit := holds_bit (inp := inp) (k := k) (b := p) (by omega)
      cases hd : inp.wireBit k p with
      | false =>
        rw [if_pos rfl]
        rw [hd] at hbit
        rcases require_cases inp k (p + 17) with ⟨h2, hr⟩ | ⟨-, hr⟩
        · rw [hr, Dec.ok_bind, readBits_pass (by decide) (by omega), Dec.ok_bind]
          rcases ih (p + 17) (addSingle S (inp.span k (p + 1) 16)) (by omega) with
            ⟨items, hl, hh⟩ | he
          · refine .inl ⟨.single (inp.span k (p + 1) 16) :: items, by simp [hl], ?_⟩
            rw [List.flatMap_cons, holds_append]
            simp only [RangeItem.bits, encodeWire, List.length_cons, fieldBits_length]
            rw [holds_cons]
            exact ⟨⟨hbit, holds_span (by omega)⟩, hh⟩
          · exact .inr he
        · rw [hr, Dec.error_bind]
          exact .inr rfl
      | true =>
        rw [if_neg (by decide)]
        rw [hd] at hbit
        rcases require_cases inp k (p + 33) with ⟨h2, hr⟩ | ⟨-, hr⟩
        · rw [hr, Dec.ok_bind, readBits_pass (by decide) (by omega), Dec.ok_bind,
            readBits_pass (by decide) (by omega), Dec.ok_bind]
          rcases ih (p + 33)
            (addRange S (inp.span k (p + 1) 16) (inp.span k (p + 17) 16)) (by omega) with
            ⟨items, hl, hh⟩ | he
          · refine .inl
              ⟨.range (inp.span k (p + 1) 16) (inp.span k (p + 17) 16) :: items, by simp [hl], ?_⟩
            rw [List.flatMap_cons, holds_append]
            simp only [RangeItem.bits, encodeWire, List.length_cons, List.length_append,
              fieldBits_length]
            rw [holds_cons, holds_append]
            refine ⟨⟨hbit, holds_span (by omega), ?_⟩, hh⟩
            rw [fieldBits_length]
            exact holds_span (by omega)
          · exact .inr he
        · rw [hr, Dec.error_bind]
          exact .inr rfl
    · rw [hr, Dec.error_bind]
      exact .inr rfl

/-- A range-set that a buffer holds decodes to the union of its entries (R216). -/
theorem rangeSet_of_holds {inp : Input} {k p : Nat} {items : List RangeItem}
    (hn : items.length < 4096) (h : inp.holds k p (rangeSetBits items)) :
    ∃ T, rangeSet inp k p = .ok (T, p + (rangeSetBits items).length) ∧
      ∀ i, T.mem i = true ↔ rangeSetCovers items i := by
  have hcap := h.1
  simp only [rangeSetBits, encodeWire, List.length_append, fieldBits_length] at hcap
  rw [rangeSetBits, holds_append] at h
  simp only [encodeWire, fieldBits_length] at h
  obtain ⟨T, hT, hm⟩ := rangeEntries_of_holds items .empty h.2
  refine ⟨T, ?_, fun i => by rw [hm]; simp⟩
  rw [rangeSet, require_pass (by omega), Dec.ok_bind, readBits_of_holds (by decide) h.1,
    Dec.ok_bind, BitVec.toNat_ofNat, Nat.mod_eq_of_lt (by omega), hT]
  simp only [rangeSetBits, encodeWire, List.length_append, fieldBits_length, Nat.add_assoc]

/-- All that `range_set` can do (R216). -/
theorem rangeSet_cases (inp : Input) (k p : Nat) :
    (∃ items : List RangeItem, items.length < 4096 ∧ inp.holds k p (rangeSetBits items)) ∨
    rangeSet inp k p = .error (.raised .insufficientLength) := by
  rw [rangeSet]
  rcases require_cases inp k (p + 12) with ⟨h1, hr⟩ | ⟨-, hr⟩
  · rw [hr, Dec.ok_bind, readBits_pass (by decide) (by omega), Dec.ok_bind]
    rcases rangeEntries_cases inp k (inp.span k p 12).toNat (p + 12) .empty (by omega) with
      ⟨items, hl, hh⟩ | he
    · have hlt : items.length < 4096 := by rw [hl]; exact (inp.span k p 12).isLt
      refine .inl ⟨items, hlt, ?_⟩
      rw [rangeSetBits, holds_append]
      simp only [encodeWire, fieldBits_length]
      refine ⟨?_, hh⟩
      rw [hl, BitVec.ofNat_toNat, BitVec.setWidth_eq]
      exact holds_span (by omega)
    · exact .inr he
  · rw [hr, Dec.error_bind]
    exact .inr rfl

/-! ## Vendor sections -/

/-- The value that a vendor section stands for (R221). -/
structure VendorSection.Of (v : VendorSection) (d : VendorData) (p : Nat) : Prop where
  maxId : v.maxId = d.maxId
  sel : v.sel = d.sel
  next : v.next = p + d.bits.length
  vendors : ∀ i, v.vendors.mem i = true ↔ d.covers i

/-- A vendor section that a buffer holds decodes to its value (R221). -/
theorem vendorSection_of_holds {inp : Input} {k p : Nat} {d : VendorData} (hf : d.fits)
    (h : inp.holds k p d.bits) : ∃ v, vendorSection inp k p = .ok v ∧ v.Of d p := by
  have hcap := h.1
  cases d with
  | bitmap flags =>
    simp only [VendorData.bits, encodeWire, List.length_append, fieldBits_length,
      List.length_singleton] at hcap
    simp only [VendorData.bits, encodeWire] at h
    rw [holds_append, holds_append] at h
    simp only [List.length_append, fieldBits_length, List.length_singleton] at h
    obtain ⟨⟨hm, hs⟩, hb⟩ := h
    have hlen : (BitVec.ofNat 16 flags.length).toNat = flags.length := by
      rw [BitVec.toNat_ofNat, Nat.mod_eq_of_lt hf]
    obtain ⟨S, hS, hmem⟩ := flags_of_holds hb hlen.symm (lt_idSpace _)
    refine ⟨{ vendors := S, next := p + 17 + flags.length, maxId := BitVec.ofNat 16 flags.length,
              sel := 0 }, ?_, rfl, rfl, ?_, hmem⟩
    · rw [vendorSection, require_pass (by omega), Dec.ok_bind, readBits_of_holds (by decide) hm,
        Dec.ok_bind, readBit_of_holds hs, Dec.ok_bind, if_pos rfl, vendorBitmap, hS, Dec.ok_bind, hlen]
    · simp [VendorData.bits, encodeWire]
      omega
  | range maxId items =>
    simp only [VendorData.bits, encodeWire, List.length_append, fieldBits_length,
      List.length_singleton] at hcap
    simp only [VendorData.bits, encodeWire] at h
    rw [holds_append, holds_append] at h
    simp only [List.length_append, fieldBits_length, List.length_singleton] at h
    obtain ⟨⟨hm, hs⟩, hb⟩ := h
    obtain ⟨S, hS, hmem⟩ := rangeSet_of_holds hf hb
    refine ⟨{ vendors := S, next := p + 17 + (rangeSetBits items).length, maxId := maxId,
              sel := 1 }, ?_, rfl, rfl, ?_, hmem⟩
    · rw [vendorSection, require_pass (by omega), Dec.ok_bind, readBits_of_holds (by decide) hm,
        Dec.ok_bind, readBit_of_holds hs, Dec.ok_bind, if_neg (by decide), vendorRange, hS, Dec.ok_bind]
    · simp [VendorData.bits, encodeWire]
      omega

/-- All that `vendor_section` can do (R221). -/
theorem vendorSection_cases (inp : Input) (k p : Nat) :
    (∃ d : VendorData, d.fits ∧ inp.holds k p d.bits) ∨
    vendorSection inp k p = .error (.raised .insufficientLength) := by
  rw [vendorSection]
  rcases require_cases inp k (p + 17) with ⟨h1, hr⟩ | ⟨-, hr⟩
  · rw [hr, Dec.ok_bind, readBits_pass (by decide) (by omega), Dec.ok_bind,
      readBit_pass (by omega), Dec.ok_bind]
    have hbit := holds_bit (inp := inp) (k := k) (b := p + 16) (by omega)
    have hmax := holds_span (inp := inp) (k := k) (s := p) (n := 16) (by omega)
    cases hd : inp.wireBit k (p + 16) with
    | false =>
      rw [if_pos rfl, vendorBitmap]
      rw [hd] at hbit
      rcases flags_cases inp k (p + 17) (inp.span k p 16).toNat (lt_idSpace _) with
        ⟨h2, -⟩ | ⟨-, he⟩
      · have hlen : ((List.range (inp.span k p 16).toNat).map
            fun i => inp.wireBit k (p + 17 + i)).length = (inp.span k p 16).toNat := by simp
        refine .inl ⟨.bitmap _, by rw [VendorData.fits, hlen]; exact (inp.span k p 16).isLt, ?_⟩
        rw [VendorData.bits, encodeWire, hlen, BitVec.ofNat_toNat, BitVec.setWidth_eq, holds_append,
          holds_append]
        simp only [List.length_append, fieldBits_length, List.length_singleton]
        exact ⟨⟨hmax, hbit⟩, holds_run h2⟩
      · rw [he, Dec.error_bind]
        exact .inr rfl
    | true =>
      rw [if_neg (by decide), vendorRange]
      rw [hd] at hbit
      rcases rangeSet_cases inp k (p + 17) with ⟨items, hl, hh⟩ | he
      · refine .inl ⟨.range (inp.span k p 16) items, hl, ?_⟩
        rw [VendorData.bits, encodeWire, holds_append, holds_append]
        simp only [List.length_append, fieldBits_length, List.length_singleton]
        exact ⟨⟨hmax, hbit⟩, hh⟩
      · rw [he, Dec.error_bind]
        exact .inr rfl
  · rw [hr, Dec.error_bind]
    exact .inr rfl

/-! ## Publisher restrictions -/

/-- Reading the restriction entries that a buffer holds appends the entry of each (R276). -/
theorem prEntries_of_holds {inp : Input} {k : Nat} (l : List RestrictionData) {p : Nat} (L : List PrEntry)
    (hf : ∀ r ∈ l, r.fits) (h : inp.holds k p (l.flatMap RestrictionData.bits)) :
    ∃ M, prEntries inp k l.length p L =
        .ok (L ++ M, p + (l.flatMap RestrictionData.bits).length) ∧
      List.Forall₂ RestrictionData.Matches l M := by
  induction l generalizing p L with
  | nil => exact ⟨[], by simp [prEntries], .nil⟩
  | cons r l ih =>
    rw [List.flatMap_cons, holds_append] at h
    obtain ⟨he, hr⟩ := h
    obtain ⟨hpad, hitems⟩ := hf r (by simp)
    have hcap := he.1
    have hb : r.bits.length = 8 + Config.prPad + (rangeSetBits r.items).length := by
      simp [RestrictionData.bits, encodeWire, hpad]
      omega
    rw [RestrictionData.bits, encodeWire, holds_append, holds_append, holds_append] at he
    simp only [List.length_append, fieldBits_length, hpad] at he
    obtain ⟨⟨⟨hp, ht⟩, -⟩, hset⟩ := he
    obtain ⟨S, hS, hm⟩ := rangeSet_of_holds hitems hset
    obtain ⟨M, hM, hF⟩ := ih (p := p + r.bits.length)
      (L ++ [{ purposeId := r.purposeId.setWidth 8, rtype := r.rtype, vendors := S }])
      (fun x hx => hf x (by simp [hx])) hr
    refine ⟨{ purposeId := r.purposeId.setWidth 8, rtype := r.rtype, vendors := S } :: M, ?_,
      .cons ⟨?_, rfl, hm⟩ hF⟩
    · rw [List.length_cons, prEntries, require_pass (by omega), Dec.ok_bind,
        readBits_of_holds (by decide) hp, Dec.ok_bind, readBits_of_holds (by decide) ht, Dec.ok_bind,
        prEntry, show p + 8 + Config.prPad = p + (6 + 2 + Config.prPad) by omega, hS, Dec.ok_bind,
        Dec.ok_bind, show p + (6 + 2 + Config.prPad) + (rangeSetBits r.items).length =
          p + r.bits.length by omega]
      simp only [hM]
      simp [Nat.add_assoc]
    · rw [BitVec.toNat_setWidth, Nat.mod_eq_of_lt]
      have := r.purposeId.isLt
      omega

/-- All that reading restriction entries can do (R276). -/
theorem prEntries_cases (inp : Input) (k n p : Nat) (L : List PrEntry) (hp : p ≤ inp.cap k) :
    (∃ l : List RestrictionData, l.length = n ∧ (∀ r ∈ l, r.fits) ∧
      inp.holds k p (l.flatMap RestrictionData.bits)) ∨
    prEntries inp k n p L = .error (.raised .insufficientLength) := by
  induction n generalizing p L with
  | zero => exact .inl ⟨[], rfl, by simp, holds_nil.mpr hp⟩
  | succ n ih =>
    rw [prEntries]
    rcases require_cases inp k (p + 8 + Config.prPad) with ⟨h1, hr⟩ | ⟨-, hr⟩
    · rw [hr, Dec.ok_bind, readBits_pass (by decide) (by omega), Dec.ok_bind,
        readBits_pass (by decide) (by omega), Dec.ok_bind, prEntry]
      rcases rangeSet_cases inp k (p + 8 + Config.prPad) with ⟨items, hl, hh⟩ | he
      · obtain ⟨S, hS, -⟩ := rangeSet_of_holds hl hh
        rw [hS, Dec.ok_bind, Dec.ok_bind]
        rcases ih (p + 8 + Config.prPad + (rangeSetBits items).length)
          (L ++ [{ purposeId := (inp.span k p 6).setWidth 8, rtype := inp.span k (p + 6) 2
                   vendors := S }]) hh.1 with ⟨l, hn, hf, hh'⟩ | he
        · have hpad : ((List.range Config.prPad).map
              fun i => inp.wireBit k (p + 8 + i)).length = Config.prPad := by simp
          refine .inl ⟨{ purposeId := inp.span k p 6, rtype := inp.span k (p + 6) 2
                         pad := (List.range Config.prPad).map fun i => inp.wireBit k (p + 8 + i)
                         items := items } :: l, by simp [hn], ?_, ?_⟩
          · intro r hr
            rcases List.mem_cons.mp hr with rfl | hr
            · exact ⟨hpad, hl⟩
            · exact hf r hr
          · rw [List.flatMap_cons, holds_append]
            constructor
            · rw [RestrictionData.bits, encodeWire, holds_append, holds_append, holds_append]
              simp only [List.length_append, fieldBits_length, hpad]
              refine ⟨⟨⟨holds_span (by omega), holds_span (by omega)⟩, holds_run (by omega)⟩, ?_⟩
              rw [show p + (6 + 2 + Config.prPad) = p + 8 + Config.prPad by omega]
              exact hh
            · simp only [RestrictionData.bits, encodeWire, List.length_append, fieldBits_length, hpad]
              rw [show p + (6 + 2 + Config.prPad + (rangeSetBits items).length) =
                p + 8 + Config.prPad + (rangeSetBits items).length by omega]
              exact hh'
        · exact .inr he
      · rw [he, Dec.error_bind, Dec.error_bind]
        exact .inr rfl
    · rw [hr, Dec.error_bind]
      exact .inr rfl

/-- A publisher-restriction section that a buffer holds decodes to its entries in order (R276). -/
theorem pubRestrictions_of_holds {inp : Input} {k p : Nat} {l : List RestrictionData}
    (hn : l.length < 4096) (hf : ∀ r ∈ l, r.fits) (h : inp.holds k p (restrictionBits l)) :
    ∃ L, pubRestrictions inp k p = .ok (L, p + (restrictionBits l).length) ∧
      List.Forall₂ RestrictionData.Matches l L := by
  have hcap := h.1
  simp only [restrictionBits, List.length_append, fieldBits_length] at hcap
  rw [restrictionBits, holds_append, fieldBits_length] at h
  obtain ⟨L, hL, hF⟩ := prEntries_of_holds l [] hf h.2
  refine ⟨L, ?_, hF⟩
  rw [pubRestrictions, require_pass (by omega), Dec.ok_bind, readBits_of_holds (by decide) h.1,
    Dec.ok_bind, BitVec.toNat_ofNat, Nat.mod_eq_of_lt (by omega), hL]
  simp [restrictionBits, Nat.add_assoc]

/-- All that `pub_restrictions` can do (R276). -/
theorem pubRestrictions_cases (inp : Input) (k p : Nat) :
    (∃ l : List RestrictionData, l.length < 4096 ∧ (∀ r ∈ l, r.fits) ∧
      inp.holds k p (restrictionBits l)) ∨
    pubRestrictions inp k p = .error (.raised .insufficientLength) := by
  rw [pubRestrictions]
  rcases require_cases inp k (p + 12) with ⟨h1, hr⟩ | ⟨-, hr⟩
  · rw [hr, Dec.ok_bind, readBits_pass (by decide) (by omega), Dec.ok_bind]
    rcases prEntries_cases inp k (inp.span k p 12).toNat (p + 12) [] (by omega) with
      ⟨l, hl, hf, hh⟩ | he
    · refine .inl ⟨l, by rw [hl]; exact (inp.span k p 12).isLt, hf, ?_⟩
      rw [restrictionBits, holds_append, fieldBits_length, hl, BitVec.ofNat_toNat,
        BitVec.setWidth_eq]
      exact ⟨holds_span (by omega), hh⟩
    · exact .inr he
  · rw [hr, Dec.error_bind]
    exact .inr rfl

end Sys2Proof.Machine
end

