-- ==== Sys2Proof/Laws/Segments.lean ====
section
/-! SUPPORT. What the decoders of the optional segments do with what a buffer holds (R243, R244). -/

namespace Sys2Proof.Machine

set_option Elab.async false

open Sys2Proof.Format

/-! ## Publisher TC -/

/-- The value that a Publisher TC payload stands for (R244). -/
structure PubTc.Of (v : PubTc) (d : PubTcData) : Prop where
  consent : ∀ i, v.consent.mem i = true ↔ flagsCover d.consent i
  li : ∀ i, v.li.mem i = true ↔ flagsCover d.li i
  customConsent : ∀ i, v.customConsent.mem i = true ↔ flagsCover d.customConsent i
  customLi : ∀ i, v.customLi.mem i = true ↔ flagsCover d.customLi i
  count : v.count = BitVec.ofNat 6 d.customConsent.length
  next : v.next = 3 + d.bits.length

theorem flagsCover_nil (i : Nat) : ¬ flagsCover [] i := by
  simp [flagsCover]

theorem PubTcData.bits_length {d : PubTcData} (hf : d.fits) :
    d.bits.length = 54 + 2 * d.customConsent.length := by
  obtain ⟨h1, h2, h3, -⟩ := hf
  simp only [PubTcData.bits, List.length_append, fieldBits_length, h1, h2, h3]
  omega

/-- A Publisher TC payload that a buffer holds decodes to its value (R244). -/
theorem pubTc_of_holds {inp : Input} {k : Nat} {d : PubTcData} (hf : d.fits)
    (h : inp.holds k 3 d.bits) : ∃ v, pubTc inp k = .ok v ∧ v.Of d := by
  have hcap := h.1
  rw [PubTcData.bits_length hf] at hcap
  have hbits := PubTcData.bits_length hf
  obtain ⟨h1, h2, h3, h4⟩ := hf
  rw [PubTcData.bits, holds_append, holds_append, holds_append, holds_append] at h
  simp only [List.length_append, fieldBits_length, h1, h2] at h
  obtain ⟨⟨⟨⟨ha, hb⟩, hc⟩, hd⟩, he⟩ := h
  obtain ⟨A, hA, mA⟩ := shortFlags_of_holds ha h1 (by omega)
  obtain ⟨B, hB, mB⟩ := shortFlags_of_holds hb h2 (by omega)
  have hlen : (BitVec.ofNat 6 d.customConsent.length).toNat = d.customConsent.length := by
    rw [BitVec.toNat_ofNat, Nat.mod_eq_of_lt (by omega)]
  rw [pubTc, require_pass (by omega), Dec.ok_bind, hA, Dec.ok_bind, hB, Dec.ok_bind,
    readBits_of_holds (by decide) hc, Dec.ok_bind]
  by_cases h0 : BitVec.ofNat 6 d.customConsent.length = 0
  · have hz : d.customConsent.length = 0 := by rw [← hlen, h0]; rfl
    rw [if_pos h0]
    refine ⟨_, rfl, mA, mB, fun i => ?_, fun i => ?_, h0.symm, by simp [hbits, hz]⟩
    · rw [List.length_eq_zero_iff.mp hz]
      simp [flagsCover_nil]
    · rw [hz] at h3
      rw [List.length_eq_zero_iff.mp h3]
      simp [flagsCover_nil]
  · rw [if_neg h0, hlen, require_pass (by omega), Dec.ok_bind]
    obtain ⟨C, hC, mC⟩ := shortFlags_of_holds hd rfl (by omega)
    obtain ⟨D, hD, mD⟩ := shortFlags_of_holds he h3 (by omega)
    rw [show 3 + (24 + 24 + 6) = 57 by omega] at hC
    rw [show 3 + (24 + 24 + 6 + d.customConsent.length) = 57 + d.customConsent.length by omega] at hD
    rw [hC, Dec.ok_bind, hD, Dec.ok_bind]
    exact ⟨_, rfl, mA, mB, mC, mD, rfl, by rw [hbits]; simp; omega⟩

/-- All that `pub_tc` can do (R244). -/
theorem pubTc_cases (inp : Input) (k : Nat) :
    (∃ d : PubTcData, d.fits ∧ inp.holds k 3 d.bits) ∨
    pubTc inp k = .error (.raised .insufficientLength) := by
  let run := fun s n => (List.range n).map fun i => inp.wireBit k (s + i)
  have hrun : ∀ s n, (run s n).length = n := by simp [run]
  rcases require_cases inp k 57 with ⟨h1, hr⟩ | ⟨-, hr⟩
  · have hc := (inp.span k 51 6).isLt
    let d : PubTcData := ⟨run 3 24, run 27 24, run 57 (inp.span k 51 6).toNat,
      run (57 + (inp.span k 51 6).toNat) (inp.span k 51 6).toNat⟩
    have hf : d.fits := ⟨hrun _ _, hrun _ _, by simp [d, hrun], by simp only [d, hrun]; omega⟩
    have hd : 57 + 2 * (inp.span k 51 6).toNat ≤ inp.cap k → inp.holds k 3 d.bits := by
      intro h2
      rw [PubTcData.bits, holds_append, holds_append, holds_append, holds_append]
      simp only [List.length_append, fieldBits_length, d, hrun, BitVec.ofNat_toNat,
        BitVec.setWidth_eq]
      refine ⟨⟨⟨⟨holds_run (by omega), holds_run (by omega)⟩, holds_span (by omega)⟩,
        holds_run (by omega)⟩, ?_⟩
      rw [show 3 + (24 + 24 + 6 + (inp.span k 51 6).toNat) = 57 + (inp.span k 51 6).toNat by omega]
      exact holds_run (by omega)
    rcases require_cases inp k (57 + 2 * (inp.span k 51 6).toNat) with ⟨h2, -⟩ | ⟨h2, hr2⟩
    · exact .inl ⟨d, hf, hd h2⟩
    · obtain ⟨A, hA, -⟩ := (shortFlags_cases inp k 3 24 (by omega)).resolve_right (by omega) |>.2
      obtain ⟨B, hB, -⟩ := (shortFlags_cases inp k 27 24 (by omega)).resolve_right (by omega) |>.2
      refine .inr ?_
      rw [pubTc, hr, Dec.ok_bind, hA, Dec.ok_bind, hB, Dec.ok_bind,
        readBits_pass (by decide) (by omega), Dec.ok_bind]
      by_cases h0 : inp.span k 51 6 = 0
      · rw [h0] at h2
        exact absurd h2 (by simpa using h1)
      · rw [if_neg h0, hr2, Dec.error_bind]
  · exact .inr (by rw [pubTc, hr, Dec.error_bind])

/-! ## Segments -/

/-- The value that an optional segment stands for (R243). -/
def Segment.Of : Segment → SegmentData → Prop
  | .disclosed v, .disclosed d => v.Of d 3
  | .allowed v, .allowed d => v.Of d 3
  | .publisherTc v, .publisherTc d => v.Of d
  | _, _ => False

/-- The 3-bit tag of an optional segment (R144). -/
def tagOf : SegmentData → BitVec 3
  | .disclosed _ => 1
  | .allowed _ => 2
  | .publisherTc _ => 3

/-- The payload of an optional segment (R145, R146). -/
def payloadBits : SegmentData → List Bool
  | .disclosed v => v.bits
  | .allowed v => v.bits
  | .publisherTc t => t.bits

theorem SegmentData.bits_eq (d : SegmentData) : d.bits = fieldBits (tagOf d) ++ payloadBits d := by
  cases d <;> rfl

/-- The payload that stands behind a known tag decodes to its value (R243). -/
theorem segmentPayload_of_holds {inp : Input} {k : Nat} {d : SegmentData} (hf : d.fits)
    (h : inp.holds k 3 (payloadBits d)) :
    ∃ r, segmentPayload inp k (tagOf d) = .ok r ∧ r.Of d := by
  cases d with
  | disclosed v =>
    obtain ⟨r, hr, ho⟩ := vendorSection_of_holds hf h
    exact ⟨.disclosed r, by simp [segmentPayload, tagOf, hr], ho⟩
  | allowed v =>
    obtain ⟨r, hr, ho⟩ := vendorSection_of_holds hf h
    exact ⟨.allowed r, by simp [segmentPayload, tagOf, hr], ho⟩
  | publisherTc t =>
    obtain ⟨r, hr, ho⟩ := pubTc_of_holds hf h
    exact ⟨.publisherTc r, by simp [segmentPayload, tagOf, hr], ho⟩

/-- An optional segment that a buffer holds decodes to its value (R243). -/
theorem segment_of_holds {inp : Input} {k : Nat} {d : SegmentData} (hf : d.fits)
    (h : inp.holds k 0 d.bits) : ∃ r, segment inp k = .ok r ∧ r.Of d := by
  rw [SegmentData.bits_eq, holds_append, fieldBits_length] at h
  have hcap := h.1.1
  rw [fieldBits_length] at hcap
  rw [segment, require_pass (by omega), Dec.ok_bind, readBits_of_holds (by decide) h.1, Dec.ok_bind]
  exact segmentPayload_of_holds hf h.2

/-- All that `segmentPayload` can do (R242, R243). -/
theorem segmentPayload_cases (inp : Input) (k : Nat) (tag : BitVec 3) :
    (∃ d : SegmentData, d.fits ∧ tagOf d = tag ∧ inp.holds k 3 (payloadBits d)) ∨
    (tag ∈ [1#3, 2#3, 3#3] ∧
      segmentPayload inp k tag = .error (.raised .insufficientLength)) ∨
    (tag ∉ [1#3, 2#3, 3#3] ∧
      segmentPayload inp k tag = .error (.raised .invalidSegmentDefinition)) := by
  unfold segmentPayload
  split
  · rcases vendorSection_cases inp k 3 with ⟨d, hf, h⟩ | h
    · exact .inl ⟨.disclosed d, hf, rfl, h⟩
    · exact .inr (.inl ⟨by decide, by rw [h]; rfl⟩)
  · rcases vendorSection_cases inp k 3 with ⟨d, hf, h⟩ | h
    · exact .inl ⟨.allowed d, hf, rfl, h⟩
    · exact .inr (.inl ⟨by decide, by rw [h]; rfl⟩)
  · rcases pubTc_cases inp k with ⟨d, hf, h⟩ | h
    · exact .inl ⟨.publisherTc d, hf, rfl, h⟩
    · exact .inr (.inl ⟨by decide, by rw [h]; rfl⟩)
  · rename_i h1 h2 h3
    exact .inr (.inr ⟨by simp; exact ⟨h1, h2, h3⟩, rfl⟩)

/-- All that `segment` can do (R243). -/
theorem segment_cases (inp : Input) (k : Nat) :
    (∃ d : SegmentData, d.fits ∧ inp.holds k 0 d.bits) ∨
    (inp.cap k < 3 ∧ segment inp k = .error (.raised .insufficientLength)) ∨
    (3 ≤ inp.cap k ∧ inp.span k 0 3 ∈ [1#3, 2#3, 3#3] ∧
      segment inp k = .error (.raised .insufficientLength)) ∨
    (3 ≤ inp.cap k ∧ inp.span k 0 3 ∉ [1#3, 2#3, 3#3] ∧
      segment inp k = .error (.raised .invalidSegmentDefinition)) := by
  rw [segment]
  rcases require_cases inp k 3 with ⟨h1, hr⟩ | ⟨h1, hr⟩
  · rw [hr, Dec.ok_bind, readBits_pass (by decide) (by omega), Dec.ok_bind]
    rcases segmentPayload_cases inp k (inp.span k 0 3) with ⟨d, hf, ht, hh⟩ | ⟨hm, he⟩ | ⟨hm, he⟩
    · refine .inl ⟨d, hf, ?_⟩
      rw [SegmentData.bits_eq, holds_append, fieldBits_length, ht]
      exact ⟨holds_span (by omega), hh⟩
    · exact .inr (.inr (.inl ⟨h1, hm, he⟩))
    · exact .inr (.inr (.inr ⟨h1, hm, he⟩))
  · exact .inr (.inl ⟨h1, by rw [hr, Dec.error_bind]⟩)

end Sys2Proof.Machine
end

