-- ==== Sys2Proof/Laws/Records.lean ====
section
/-! SUPPORT. What the V1 and V2 assemblers do with what the buffers hold (R261, R281). -/

namespace Sys2Proof.Machine

set_option Elab.async false

open Sys2Proof.Format

/-! ## Fields of segment 0 -/

/-- All that reading the version field can do (R131). -/
theorem versionField_cases (inp : Input) :
    (6 ≤ inp.cap 0 ∧ versionField inp = .ok (inp.span 0 0 6)) ∨
    (inp.cap 0 < 6 ∧ versionField inp = .error (.raised .insufficientLength)) := by
  rcases require_cases inp 0 6 with ⟨h, hr⟩ | ⟨h, hr⟩
  · exact .inl ⟨h, by rw [versionField, hr, Dec.ok_bind, readBits_pass (by decide) (by omega)]⟩
  · exact .inr ⟨h, by rw [versionField, hr, Dec.error_bind]⟩

theorem flagField_pass {inp : Input} {b : Nat} (h : b < inp.cap 0) :
    flagField inp b = .ok (inp.span 0 b 1) := by
  rw [flagField, readBit_pass h, Dec.map_ok]
  congr 1
  simp only [Input.span]
  cases inp.wireBit 0 b <;> rfl

theorem flagField_of_holds {inp : Input} {b : Nat} {x : BitVec 1} (h : inp.holds 0 b (fieldBits x)) :
    flagField inp b = .ok x := by
  have := h.1
  rw [fieldBits_length] at this
  rw [flagField_pass (by omega), span_of_holds h]

theorem letter_byte (v : BitVec 6) : BitVec.ofNat 8 (0x41 + v.toNat) = 0x41 + v.setWidth 8 := by
  apply BitVec.eq_of_toNat_eq
  simp [BitVec.toNat_add, BitVec.toNat_setWidth, BitVec.toNat_ofNat]

/-- All that reading a two-letter field within the capacity can do (R195). -/
theorem lettersField_cases (inp : Input) (b : Nat) (h : b + 12 ≤ inp.cap 0) :
    (Letters.fits ⟨inp.span 0 b 6, inp.span 0 (b + 6) 6⟩ ∧
      lettersField inp b = .ok (Letters.ascii ⟨inp.span 0 b 6, inp.span 0 (b + 6) 6⟩)) ∨
    (¬ Letters.fits ⟨inp.span 0 b 6, inp.span 0 (b + 6) 6⟩ ∧
      lettersField inp b = .error (.raised .invalidAlphabetOffset)) := by
  rcases alpha_cases inp 0 b 2 6 (by omega) (by omega) with ⟨l, hl, hn, hv⟩ | ⟨he, i, hi, hv⟩
  · have h0 := hv 0 (by omega)
    have h1 := hv 1 (by omega)
    simp only [Nat.zero_mul, Nat.add_zero, Nat.one_mul] at h0 h1
    refine .inl ⟨⟨h0.1, h1.1⟩, ?_⟩
    rw [lettersField, hl, Dec.map_ok]
    congr 1
    rw [twoLetters, Letters.ascii, List.getD_eq_getElem _ _ (by omega),
      List.getD_eq_getElem _ _ (by omega), h0.2, h1.2, letter_byte, letter_byte]
  · refine .inr ⟨fun hf => ?_, by rw [lettersField, he, Dec.map_error]⟩
    obtain ⟨h0, h1⟩ := hf
    simp only at h0 h1
    have : i = 0 ∨ i = 1 := by omega
    rcases this with rfl | rfl
    · simp at hv
      omega
    · simp at hv
      omega

/-- A two-letter code that the buffer holds decodes to its ASCII codes. -/
theorem lettersField_of_holds {inp : Input} {b : Nat} {l : Letters} (hf : l.fits)
    (h : inp.holds 0 b l.bits) : lettersField inp b = .ok l.ascii := by
  have hcap := h.1
  simp only [Letters.bits, encodeWire, List.length_append, fieldBits_length] at hcap
  rw [Letters.bits, encodeWire, holds_append, fieldBits_length] at h
  have h1 := span_of_holds h.1
  have h2 := span_of_holds h.2
  rcases lettersField_cases inp b (by omega) with ⟨-, hl⟩ | ⟨hb, -⟩
  · rw [hl, h1, h2]
  · rw [h1, h2] at hb
    exact absurd hf hb

theorem toNat_setWidth_64 (t : BitVec 36) : (t.setWidth 64).toNat = t.toNat := by
  rw [BitVec.toNat_setWidth, Nat.mod_eq_of_lt (Nat.lt_of_lt_of_le t.isLt (by decide))]

/-- A run of bits as a bitmap. -/
def runBits (inp : Input) (k s n : Nat) : List Bool := (List.range n).map fun i => inp.wireBit k (s + i)

@[simp] theorem runBits_length (inp : Input) (k s n : Nat) : (runBits inp k s n).length = n := by
  simp [runBits]

/-! ## V1 -/

/-- The bits of a V1 buffer after its version field (R132, R133). -/
def v1Rest (d : V1Data) : List Bool :=
  fieldBits d.createdAt ++ (fieldBits d.updatedAt ++ (fieldBits d.cmpId ++ (fieldBits d.cmpVersion ++
    (fieldBits d.consentScreen ++ (d.consentLanguage.bits ++ (fieldBits d.vendorListVersion ++
    (d.purposesConsent ++ d.vendors.bits)))))))

theorem V1Data.bits_eq (d : V1Data) : d.bits = fieldBits 1#6 ++ v1Rest d := by
  simp only [V1Data.bits, v1Rest, encodeWire, List.append_assoc]

/-- The value that a V1 vendor block stands for (R264). -/
structure V1Block.Of (v : V1Block) (d : V1VendorData) : Prop where
  blocklist : v.blocklist = d.blocklist
  next : v.next = 156 + d.bits.length
  vendors : ∀ i, v.vendors.mem i = true ↔ d.covers i

/-- `max_vendor_id` of a V1 vendor block (R133). -/
def v1MaxId : V1VendorData → BitVec 16
  | .bitmap flags => BitVec.ofNat 16 flags.length
  | .range maxId _ _ => maxId

/-- A V1 vendor block that the buffer holds decodes to its value (R261 step 4). -/
theorem v1Vendors_of_holds {inp : Input} {d : V1VendorData} (hf : d.fits)
    (h : inp.holds 0 156 d.bits) :
    inp.holds 0 156 (fieldBits (v1MaxId d)) ∧
      ∃ v, v1Vendors inp (v1MaxId d) = .ok v ∧ v.Of d := by
  have hcap := h.1
  cases d with
  | bitmap flags =>
    simp only [V1VendorData.bits, encodeWire, List.length_append, fieldBits_length,
      List.length_singleton] at hcap
    simp only [V1VendorData.bits, encodeWire] at h
    rw [holds_append, holds_append] at h
    simp only [List.length_append, fieldBits_length, List.length_singleton] at h
    obtain ⟨⟨hm, hs⟩, hb⟩ := h
    have hlen : (BitVec.ofNat 16 flags.length).toNat = flags.length := by
      rw [BitVec.toNat_ofNat, Nat.mod_eq_of_lt hf]
    obtain ⟨S, hS, hmem⟩ := flags_of_holds hb hlen.symm (lt_idSpace _)
    refine ⟨hm, { blocklist := 0, vendors := S, next := 173 + flags.length }, ?_, rfl, ?_, hmem⟩
    · simp only [v1MaxId]
      rw [v1Vendors, readBit_of_holds hs, Dec.ok_bind, if_pos rfl, v1Bitmap, hS, Dec.ok_bind, hlen]
    · simp [V1VendorData.bits, encodeWire]
      omega
  | range maxId b items =>
    simp only [V1VendorData.bits, encodeWire, List.length_append, List.length_cons,
      fieldBits_length] at hcap
    simp only [V1VendorData.bits, encodeWire] at h
    rw [holds_append, holds_append, holds_cons] at h
    simp only [List.length_append, List.length_cons, fieldBits_length] at h
    obtain ⟨⟨hm, hs, hbl⟩, hb⟩ := h
    obtain ⟨S, hS, hmem⟩ := rangeSet_of_holds hf hb
    refine ⟨hm, { blocklist := b, vendors := S, next := 174 + (rangeSetBits items).length }, ?_,
      rfl, ?_, hmem⟩
    · simp only [v1MaxId]
      rw [v1Vendors, readBit_of_holds hs, Dec.ok_bind, if_neg (by decide), require_pass (by omega),
        Dec.ok_bind, flagField_of_holds hbl, Dec.ok_bind, v1Range, hS, Dec.ok_bind]
    · simp [V1VendorData.bits, encodeWire]
      omega

/-- A V1 buffer decodes to its record (R261). -/
theorem v1Record_of_holds {inp : Input} {d : V1Data} (hf : d.fits) (h : inp.holds 0 6 (v1Rest d)) :
    ∃ r, d.Matches r ∧
      v1Record inp = .ok { record := r, cur := BitVec.ofNat 40 d.bits.length } := by
  have hcap := h.1
  obtain ⟨hl, hp, hv⟩ := hf
  have hlb : d.consentLanguage.bits.length = 12 := by simp [Letters.bits, encodeWire]
  have hlen : d.bits.length = 156 + d.vendors.bits.length := by
    simp only [V1Data.bits, encodeWire, List.length_append, fieldBits_length, hlb, hp]
  rw [v1Rest] at h
  simp only [v1Rest, List.length_append, fieldBits_length, hlb, hp] at hcap
  repeat rw [holds_append] at h
  simp only [fieldBits_length, hlb, hp, Nat.reduceAdd] at h
  obtain ⟨h1, h2, h3, h4, h5, h6, h7, h8, h9⟩ := h
  obtain ⟨P, hP, mP⟩ := shortFlags_of_holds h8 hp (by omega)
  obtain ⟨hm, v, hV, ho⟩ := v1Vendors_of_holds hv h9
  have hv17 : 17 ≤ d.vendors.bits.length := by
    cases d.vendors <;> simp [V1VendorData.bits, encodeWire] <;> omega
  have he : v1Record inp = .ok
      { cur := BitVec.ofNat 40 d.bits.length
        record :=
          { kind := 1
            createdAt := d.createdAt.setWidth 64
            updatedAt := d.updatedAt.setWidth 64
            cmpId := d.cmpId
            cmpVersion := d.cmpVersion
            consentScreen := d.consentScreen
            consentLanguage := d.consentLanguage.ascii
            vendorListVersion := d.vendorListVersion
            purposesConsent := P
            v1IsBlocklist := v.blocklist
            v1Vendors := v.vendors } } := by
    rw [v1Record, require_pass (by simp [Config.v1HdrBits]; omega), Dec.ok_bind,
      readBits_of_holds (by decide) h1, Dec.ok_bind, readBits_of_holds (by decide) h2, Dec.ok_bind,
      readBits_of_holds (by decide) h3, Dec.ok_bind, readBits_of_holds (by decide) h4, Dec.ok_bind,
      readBits_of_holds (by decide) h5, Dec.ok_bind, lettersField_of_holds hl h6, Dec.ok_bind,
      readBits_of_holds (by decide) h7, Dec.ok_bind, hP, Dec.ok_bind,
      readBits_of_holds (by decide) hm, Dec.ok_bind, hV, Dec.ok_bind, ho.next, ← hlen]
    rfl
  refine ⟨_, ?_, he⟩
  refine ⟨rfl, ?_, ?_, rfl, rfl, rfl, rfl, rfl, mP, ho.blocklist, ho.vendors, rfl⟩
  · exact toNat_setWidth_64 _
  · exact toNat_setWidth_64 _

/-- All that the V1 vendor block can do once its selector is within the capacity (R261 step 4). -/
theorem v1Vendors_cases (inp : Input) (h : 173 ≤ inp.cap 0) :
    (∃ d : V1VendorData, d.fits ∧ inp.holds 0 156 d.bits) ∨
    v1Vendors inp (inp.span 0 156 16) = .error (.raised .insufficientLength) := by
  rw [v1Vendors, readBit_pass (by omega), Dec.ok_bind]
  have hbit := holds_bit (inp := inp) (k := 0) (b := 172) (by omega)
  have hmax := holds_span (inp := inp) (k := 0) (s := 156) (n := 16) (by omega)
  cases hd : inp.wireBit 0 172 with
  | false =>
    rw [if_pos rfl, v1Bitmap]
    rw [hd] at hbit
    rcases flags_cases inp 0 173 (inp.span 0 156 16).toNat (lt_idSpace _) with ⟨h2, -⟩ | ⟨-, he⟩
    · refine .inl ⟨.bitmap (runBits inp 0 173 (inp.span 0 156 16).toNat), ?_, ?_⟩
      · rw [V1VendorData.fits, runBits_length]
        exact (inp.span 0 156 16).isLt
      · rw [V1VendorData.bits, encodeWire, runBits_length, BitVec.ofNat_toNat, BitVec.setWidth_eq,
          holds_append, holds_append]
        simp only [List.length_append, fieldBits_length, List.length_singleton]
        exact ⟨⟨hmax, hbit⟩, holds_run h2⟩
    · rw [he, Dec.error_bind]
      exact .inr rfl
  | true =>
    rw [if_neg (by decide)]
    rw [hd] at hbit
    rcases require_cases inp 0 174 with ⟨h1, hr⟩ | ⟨-, hr⟩
    · rw [hr, Dec.ok_bind, flagField_pass (by omega), Dec.ok_bind, v1Range]
      rcases rangeSet_cases inp 0 174 with ⟨items, hl, hh⟩ | he
      · refine .inl ⟨.range (inp.span 0 156 16) (inp.span 0 173 1) items, hl, ?_⟩
        rw [V1VendorData.bits, encodeWire, holds_append, holds_append, holds_cons]
        simp only [List.length_append, List.length_cons, fieldBits_length]
        exact ⟨⟨hmax, hbit, holds_span (by omega)⟩, hh⟩
      · rw [he, Dec.error_bind]
        exact .inr rfl
    · rw [hr, Dec.error_bind]
      exact .inr rfl

/-- All that the V1 assembler can do after the version field: the header is too short; or a letter is none; or the
vendor block is too short; or a V1 buffer stands there (R261, R340). -/
theorem v1Record_cases (inp : Input) :
    (inp.cap 0 < 173 ∧ v1Record inp = .error (.raised .insufficientLength)) ∨
    (173 ≤ inp.cap 0 ∧ ¬ Letters.fits ⟨inp.span 0 108 6, inp.span 0 114 6⟩ ∧
      v1Record inp = .error (.raised .invalidAlphabetOffset)) ∨
    (173 ≤ inp.cap 0 ∧ Letters.fits ⟨inp.span 0 108 6, inp.span 0 114 6⟩ ∧
      v1Record inp = .error (.raised .insufficientLength)) ∨
    (173 ≤ inp.cap 0 ∧ Letters.fits ⟨inp.span 0 108 6, inp.span 0 114 6⟩ ∧
      ∃ d : V1Data, d.fits ∧ inp.holds 0 6 (v1Rest d)) := by
  rcases require_cases inp 0 Config.v1HdrBits with ⟨h1, hr⟩ | ⟨h1, hr⟩
  · have h : 173 ≤ inp.cap 0 := h1
    have hstart : v1Record inp = (do
        let consentLanguage ← lettersField inp 108
        let vendorListVersion ← readBits inp 0 120 12
        let purposesConsent ← shortFlags inp 0 132 24
        let maxId ← readBits inp 0 156 16
        let v ← v1Vendors inp maxId
        .ok
          { cur := cursor v.next
            record :=
              { kind := 1
                createdAt := (inp.span 0 6 36).setWidth 64
                updatedAt := (inp.span 0 42 36).setWidth 64
                cmpId := inp.span 0 78 12
                cmpVersion := inp.span 0 90 12
                consentScreen := inp.span 0 102 6
                consentLanguage := consentLanguage
                vendorListVersion := vendorListVersion
                purposesConsent := purposesConsent
                v1IsBlocklist := v.blocklist
                v1Vendors := v.vendors } }) := by
      rw [v1Record, hr, Dec.ok_bind, readBits_pass (by decide) (by omega), Dec.ok_bind,
        readBits_pass (by decide) (by omega), Dec.ok_bind, readBits_pass (by decide) (by omega),
        Dec.ok_bind, readBits_pass (by decide) (by omega), Dec.ok_bind,
        readBits_pass (by decide) (by omega), Dec.ok_bind]
    rw [hstart]
    rcases lettersField_cases inp 108 (by omega) with ⟨hf, hl⟩ | ⟨hb, hl⟩
    · obtain ⟨P, hP, -⟩ := (shortFlags_cases inp 0 132 24 (by omega)).resolve_right (by omega) |>.2
      rw [hl, Dec.ok_bind, readBits_pass (by decide) (by omega), Dec.ok_bind, hP, Dec.ok_bind,
        readBits_pass (by decide) (by omega), Dec.ok_bind]
      rcases v1Vendors_cases inp h with ⟨v, hv, hh⟩ | he
      · refine .inr (.inr (.inr ⟨h, hf, ⟨inp.span 0 6 36, inp.span 0 42 36, inp.span 0 78 12,
          inp.span 0 90 12, inp.span 0 102 6, ⟨inp.span 0 108 6, inp.span 0 114 6⟩,
          inp.span 0 120 12, runBits inp 0 132 24, v⟩, ⟨hf, runBits_length _ _ _ _, hv⟩, ?_⟩))
        rw [v1Rest, Letters.bits]
        simp only [encodeWire]
        repeat rw [holds_append]
        simp only [List.length_append, fieldBits_length, runBits_length, Nat.reduceAdd]
        exact ⟨holds_span (by omega), holds_span (by omega), holds_span (by omega),
          holds_span (by omega), holds_span (by omega),
          ⟨holds_span (by omega), holds_span (by omega)⟩, holds_span (by omega),
          holds_run (by omega), hh⟩
      · rw [he, Dec.error_bind]
        exact .inr (.inr (.inl ⟨h, hf, rfl⟩))
    · rw [hl, Dec.error_bind]
      exact .inr (.inl ⟨h, hb, rfl⟩)
  · exact .inl ⟨h1, by rw [v1Record, hr, Dec.error_bind]⟩

/-! ## V2 -/

/-- The fixed fields of a V2 core after its version field (R134). -/
def v2FixedBits (d : V2Data) : List Bool :=
  fieldBits d.createdAt ++ (fieldBits d.updatedAt ++ (fieldBits d.cmpId ++ (fieldBits d.cmpVersion ++
    (fieldBits d.consentScreen ++ (d.consentLanguage.bits ++ (fieldBits d.vendorListVersion ++
    (fieldBits d.tcfPolicyVersion ++ (fieldBits d.isServiceSpecific ++
    (fieldBits d.useNonStandardStacks ++ (d.specialFeatureOptIns ++ (d.purposesConsent ++
    (d.purposesLiTransparency ++ (fieldBits d.purposeOneTreatment ++
    d.publisherCountryCode.bits)))))))))))))

theorem V2Data.bits_eq (d : V2Data) : d.bits = fieldBits 2#6 ++ (v2FixedBits d ++
    (d.vendorConsents.bits ++ (d.vendorLiConsents.bits ++ restrictionBits d.restrictions))) := by
  simp only [V2Data.bits, v2FixedBits, encodeWire, List.append_assoc]

theorem v2FixedBits_length {d : V2Data} (hf : d.fits) : (v2FixedBits d).length = 207 := by
  obtain ⟨-, h1, h2, h3, -⟩ := hf
  simp [v2FixedBits, Letters.bits, encodeWire, h1, h2, h3]

/-- The record that the fixed fields of a V2 core stand for, with these sets (R281 step 3). -/
def v2FixedRecord (d : V2Data) (features purposes li : IdSet64) : Record :=
  { kind := 2
    createdAt := scaledTime d.createdAt
    updatedAt := scaledTime d.updatedAt
    cmpId := d.cmpId
    cmpVersion := d.cmpVersion
    consentScreen := d.consentScreen
    consentLanguage := d.consentLanguage.ascii
    vendorListVersion := d.vendorListVersion
    tcfPolicyVersion := d.tcfPolicyVersion
    isServiceSpecific := d.isServiceSpecific
    useNonStandardStacks := d.useNonStandardStacks
    specialFeatureOptIns := features
    purposesConsent := purposes
    purposesLiTransparency := li
    purposeOneTreatment := d.purposeOneTreatment
    publisherCountryCode := d.publisherCountryCode.ascii }

/-- The fixed fields of a V2 core decode to their record (R281 step 3). -/
theorem v2Fixed_of_holds {inp : Input} {d : V2Data} (hf : d.fits)
    (h : inp.holds 0 6 (v2FixedBits d)) :
    ∃ F P L, v2Fixed inp = .ok (v2FixedRecord d F P L) ∧
      (∀ i, F.mem i = true ↔ flagsCover d.specialFeatureOptIns i) ∧
      (∀ i, P.mem i = true ↔ flagsCover d.purposesConsent i) ∧
      ∀ i, L.mem i = true ↔ flagsCover d.purposesLiTransparency i := by
  have hcap := h.1
  rw [v2FixedBits_length hf] at hcap
  obtain ⟨hl, hF, hP, hL, hc, -⟩ := hf
  have hl12 : d.consentLanguage.bits.length = 12 := by simp [Letters.bits, encodeWire]
  rw [v2FixedBits] at h
  repeat rw [holds_append] at h
  simp only [fieldBits_length, hl12, hF, hP, hL, Nat.reduceAdd] at h
  obtain ⟨h1, h2, h3, h4, h5, h6, h7, h8, h9, h10, h11, h12, h13, h14, h15⟩ := h
  obtain ⟨F, eF, mF⟩ := shortFlags_of_holds h11 hF (by omega)
  obtain ⟨P, eP, mP⟩ := shortFlags_of_holds h12 hP (by omega)
  obtain ⟨L, eL, mL⟩ := shortFlags_of_holds h13 hL (by omega)
  refine ⟨F, P, L, ?_, mF, mP, mL⟩
  rw [v2Fixed, require_pass (by simp [Config.v2HdrBits]; omega), Dec.ok_bind,
    readBits_of_holds (by decide) h1, Dec.ok_bind, readBits_of_holds (by decide) h2, Dec.ok_bind,
    readBits_of_holds (by decide) h3, Dec.ok_bind, readBits_of_holds (by decide) h4, Dec.ok_bind,
    readBits_of_holds (by decide) h5, Dec.ok_bind, lettersField_of_holds hl h6, Dec.ok_bind,
    readBits_of_holds (by decide) h7, Dec.ok_bind, readBits_of_holds (by decide) h8, Dec.ok_bind,
    flagField_of_holds h9, Dec.ok_bind, flagField_of_holds h10, Dec.ok_bind, eF, Dec.ok_bind, eP,
    Dec.ok_bind, eL, Dec.ok_bind, flagField_of_holds h14, Dec.ok_bind,
    lettersField_of_holds hc h15, Dec.ok_bind, v2FixedRecord]

/-- All that decoding the fixed fields of a V2 core can do (R281 step 3, R340). -/
theorem v2Fixed_cases (inp : Input) :
    (inp.cap 0 < 213 ∧ v2Fixed inp = .error (.raised .insufficientLength)) ∨
    (213 ≤ inp.cap 0 ∧ ¬ (Letters.fits ⟨inp.span 0 108 6, inp.span 0 114 6⟩ ∧
        Letters.fits ⟨inp.span 0 201 6, inp.span 0 207 6⟩) ∧
      v2Fixed inp = .error (.raised .invalidAlphabetOffset)) ∨
    (213 ≤ inp.cap 0 ∧ Letters.fits ⟨inp.span 0 108 6, inp.span 0 114 6⟩ ∧
      Letters.fits ⟨inp.span 0 201 6, inp.span 0 207 6⟩ ∧
      ∀ v1 v2 l, v1.fits → v2.fits → l.length < 4096 → (∀ r ∈ l, r.fits) →
        ∃ d : V2Data, d.fits ∧ inp.holds 0 6 (v2FixedBits d) ∧ d.vendorConsents = v1 ∧
          d.vendorLiConsents = v2 ∧ d.restrictions = l) := by
  rcases require_cases inp 0 Config.v2HdrBits with ⟨h1, hr⟩ | ⟨h1, hr⟩
  · have h : 213 ≤ inp.cap 0 := h1
    obtain ⟨F, eF, -⟩ := (shortFlags_cases inp 0 140 12 (by omega)).resolve_right (by omega) |>.2
    obtain ⟨P, eP, -⟩ := (shortFlags_cases inp 0 152 24 (by omega)).resolve_right (by omega) |>.2
    obtain ⟨L, eL, -⟩ := (shortFlags_cases inp 0 176 24 (by omega)).resolve_right (by omega) |>.2
    rcases lettersField_cases inp 108 (by omega) with ⟨hf, hl⟩ | ⟨hb, hl⟩
    · rcases lettersField_cases inp 201 (by omega) with ⟨hf', hl'⟩ | ⟨hb', hl'⟩
      · refine .inr (.inr ⟨h, hf, hf', fun v1 v2 l hv1 hv2 hn hl => ?_⟩)
        refine ⟨⟨inp.span 0 6 36, inp.span 0 42 36, inp.span 0 78 12,
          inp.span 0 90 12, inp.span 0 102 6, ⟨inp.span 0 108 6, inp.span 0 114 6⟩,
          inp.span 0 120 12, inp.span 0 132 6, inp.span 0 138 1, inp.span 0 139 1,
          runBits inp 0 140 12, runBits inp 0 152 24, runBits inp 0 176 24, inp.span 0 200 1,
          ⟨inp.span 0 201 6, inp.span 0 207 6⟩, v1, v2, l⟩,
          ⟨hf, runBits_length _ _ _ _, runBits_length _ _ _ _, runBits_length _ _ _ _, hf', hv1, hv2,
            hn, hl⟩, ?_, rfl, rfl, rfl⟩
        rw [v2FixedBits, Letters.bits, Letters.bits]
        simp only [encodeWire]
        repeat rw [holds_append]
        simp only [List.length_append, fieldBits_length, runBits_length, Nat.reduceAdd]
        exact ⟨holds_span (by omega), holds_span (by omega), holds_span (by omega),
          holds_span (by omega), holds_span (by omega),
          ⟨holds_span (by omega), holds_span (by omega)⟩, holds_span (by omega),
          holds_span (by omega), holds_span (by omega), holds_span (by omega),
          holds_run (by omega), holds_run (by omega), holds_run (by omega),
          holds_span (by omega), holds_span (by omega), holds_span (by omega)⟩
      · refine .inr (.inl ⟨h, fun hc => ?_, ?_⟩)
        · exact hb' hc.2
        · rw [v2Fixed, hr, Dec.ok_bind, readBits_pass (by decide) (by omega), Dec.ok_bind,
            readBits_pass (by decide) (by omega), Dec.ok_bind, readBits_pass (by decide) (by omega),
            Dec.ok_bind, readBits_pass (by decide) (by omega), Dec.ok_bind,
            readBits_pass (by decide) (by omega), Dec.ok_bind, hl, Dec.ok_bind,
            readBits_pass (by decide) (by omega), Dec.ok_bind,
            readBits_pass (by decide) (by omega), Dec.ok_bind, flagField_pass (by omega),
            Dec.ok_bind, flagField_pass (by omega), Dec.ok_bind, eF, Dec.ok_bind, eP, Dec.ok_bind,
            eL, Dec.ok_bind, flagField_pass (by omega), Dec.ok_bind, hl', Dec.error_bind]
    · refine .inr (.inl ⟨h, fun hc => ?_, ?_⟩)
      · exact hb hc.1
      · rw [v2Fixed, hr, Dec.ok_bind, readBits_pass (by decide) (by omega), Dec.ok_bind,
          readBits_pass (by decide) (by omega), Dec.ok_bind, readBits_pass (by decide) (by omega),
          Dec.ok_bind, readBits_pass (by decide) (by omega), Dec.ok_bind,
          readBits_pass (by decide) (by omega), Dec.ok_bind, hl, Dec.error_bind]
  · exact .inl ⟨h1, by rw [v2Fixed, hr, Dec.error_bind]⟩

/-- All that the test for empty optional segments can do (R241). -/
theorem noEmptySegment_cases (inp : Input) (n : Nat) :
    ((∀ k, 1 ≤ k → k ≤ n → inp.len k ≠ 0) ∧ noEmptySegment inp n = .ok ()) ∨
    ((∃ k, 1 ≤ k ∧ k ≤ n ∧ inp.len k = 0) ∧
      noEmptySegment inp n = .error (.raised .insufficientLength)) := by
  induction n with
  | zero => exact .inl ⟨fun k h1 h2 => by omega, rfl⟩
  | succ n ih =>
    rw [noEmptySegment]
    rcases ih with ⟨h, he⟩ | ⟨⟨k, h1, h2, h3⟩, he⟩
    · rw [he, Dec.ok_bind]
      by_cases h0 : inp.len (n + 1) = 0
      · rw [if_pos h0]
        exact .inr ⟨⟨n + 1, by omega, by omega, h0⟩, rfl⟩
      · rw [if_neg h0]
        refine .inl ⟨fun k h1 h2 => ?_, rfl⟩
        by_cases hk : k = n + 1
        · subst hk; exact h0
        · exact h k h1 (by omega)
    · rw [he, Dec.error_bind]
      exact .inr ⟨⟨k, h1, by omega, h3⟩, rfl⟩

/-- What the record registers are after merging the optional segments `opt` into `r0` (R246, R286). -/
structure MergeOf (opt : List SegmentData) (r0 r : Record) : Prop where
  rest : r = { r0 with
    disclosedVendors := r.disclosedVendors
    allowedVendors := r.allowedVendors
    publisherPurposesConsent := r.publisherPurposesConsent
    publisherPurposesLiTransparency := r.publisherPurposesLiTransparency
    customPurposesConsent := r.customPurposesConsent
    customPurposesLiTransparency := r.customPurposesLiTransparency }
  disclosed : ∀ i, r.disclosedVendors.mem i = true ↔ coversOption (lastDisclosed opt) i
  allowed : ∀ i, r.allowedVendors.mem i = true ↔ coversOption (lastAllowed opt) i
  consent : ∀ i, r.publisherPurposesConsent.mem i = true ↔
    flagsCoverOption (lastPublisherTc opt) PubTcData.consent i
  li : ∀ i, r.publisherPurposesLiTransparency.mem i = true ↔
    flagsCoverOption (lastPublisherTc opt) PubTcData.li i
  customConsent : ∀ i, r.customPurposesConsent.mem i = true ↔
    flagsCoverOption (lastPublisherTc opt) PubTcData.customConsent i
  customLi : ∀ i, r.customPurposesLiTransparency.mem i = true ↔
    flagsCoverOption (lastPublisherTc opt) PubTcData.customLi i

theorem lastDisclosed_snoc (opt : List SegmentData) (e : SegmentData) :
    lastDisclosed (opt ++ [e]) =
      match e with
      | .disclosed v => some v
      | .allowed _ => lastDisclosed opt
      | .publisherTc _ => lastDisclosed opt := by
  cases e <;> simp [lastDisclosed]

theorem lastAllowed_snoc (opt : List SegmentData) (e : SegmentData) :
    lastAllowed (opt ++ [e]) =
      match e with
      | .disclosed _ => lastAllowed opt
      | .allowed v => some v
      | .publisherTc _ => lastAllowed opt := by
  cases e <;> simp [lastAllowed]

theorem lastPublisherTc_snoc (opt : List SegmentData) (e : SegmentData) :
    lastPublisherTc (opt ++ [e]) =
      match e with
      | .disclosed _ => lastPublisherTc opt
      | .allowed _ => lastPublisherTc opt
      | .publisherTc t => some t := by
  cases e <;> simp [lastPublisherTc]

/-- Merging one more segment (R246). -/
theorem MergeOf.snoc {opt : List SegmentData} {r0 r : Record} {e : SegmentData} {v : Segment}
    (h : MergeOf opt r0 r) (hv : v.Of e) : MergeOf (opt ++ [e]) r0 (merge v r) := by
  obtain ⟨h0, h1, h2, h3, h4, h5, h6⟩ := h
  cases v with
  | disclosed v =>
    cases e with
    | disclosed d =>
      refine ⟨?_, fun i => ?_, ?_, ?_, ?_, ?_, ?_⟩
      · rw [h0]; rfl
      · simpa [merge, lastDisclosed_snoc, coversOption] using hv.vendors i
      all_goals simpa [merge, lastAllowed_snoc, lastPublisherTc_snoc]
    | allowed d => exact hv.elim
    | publisherTc d => exact hv.elim
  | allowed v =>
    cases e with
    | allowed d =>
      refine ⟨?_, ?_, fun i => ?_, ?_, ?_, ?_, ?_⟩
      · rw [h0]; rfl
      · simpa [merge, lastDisclosed_snoc]
      · simpa [merge, lastAllowed_snoc, coversOption] using hv.vendors i
      all_goals simpa [merge, lastPublisherTc_snoc]
    | disclosed d => exact hv.elim
    | publisherTc d => exact hv.elim
  | publisherTc v =>
    cases e with
    | publisherTc d =>
      refine ⟨?_, ?_, ?_, fun i => ?_, fun i => ?_, fun i => ?_, fun i => ?_⟩
      · rw [h0]; rfl
      · simpa [merge, lastDisclosed_snoc]
      · simpa [merge, lastAllowed_snoc]
      · simpa [merge, lastPublisherTc_snoc, flagsCoverOption] using hv.consent i
      · simpa [merge, lastPublisherTc_snoc, flagsCoverOption] using hv.li i
      · simpa [merge, lastPublisherTc_snoc, flagsCoverOption] using hv.customConsent i
      · simpa [merge, lastPublisherTc_snoc, flagsCoverOption] using hv.customLi i
    | disclosed d => exact hv.elim
    | allowed d => exact hv.elim

/-- Optional segments that stand in their buffers are merged in order (R246, R281 step 5). -/
theorem mergeSegments_of_holds {inp : Input} (opt : List SegmentData) {r0 : Record}
    (h0 : MergeOf [] r0 r0) (hf : ∀ e ∈ opt, e.fits)
    (hh : ∀ j, (h : j < opt.length) → inp.holds (j + 1) 0 opt[j].bits) :
    ∃ r, mergeSegments inp opt.length r0 = .ok r ∧ MergeOf opt r0 r := by
  induction opt using List.reverseRecOn with
  | nil => exact ⟨r0, rfl, h0⟩
  | append_singleton opt e ih =>
    obtain ⟨r, hr, hm⟩ := ih (fun x hx => hf x (by simp [hx])) fun j hj => by
      have := hh j (by simp; omega)
      rwa [List.getElem_append_left hj] at this
    have he := hh opt.length (by simp)
    rw [List.getElem_append_right (by omega)] at he
    simp only [Nat.sub_self, List.getElem_singleton] at he
    obtain ⟨v, hv, ho⟩ := segment_of_holds (hf e (by simp)) he
    refine ⟨merge v r, ?_, hm.snoc ho⟩
    rw [List.length_append, List.length_singleton, mergeSegments, hr, Dec.ok_bind, hv, Dec.ok_bind]

/-- All that merging the optional segments can do (R281 step 5): each of them stands in its buffer, or one stops
with its error. -/
theorem mergeSegments_cases (inp : Input) (n : Nat) (r0 : Record) :
    (∃ opt : List SegmentData, opt.length = n ∧ (∀ e ∈ opt, e.fits) ∧
      (∀ j, (h : j < opt.length) → inp.holds (j + 1) 0 opt[j].bits) ∧
      ∃ r, mergeSegments inp n r0 = .ok r) ∨
    mergeSegments inp n r0 = .error (.raised .insufficientLength) ∨
    mergeSegments inp n r0 = .error (.raised .invalidSegmentDefinition) := by
  induction n with
  | zero => exact .inl ⟨[], rfl, by simp, by simp, r0, rfl⟩
  | succ n ih =>
    rw [mergeSegments]
    rcases ih with ⟨opt, hn, hf, hh, r, hr⟩ | he | he
    · rw [hr, Dec.ok_bind]
      rcases segment_cases inp (n + 1) with ⟨d, hd, hs⟩ | ⟨-, he⟩ | ⟨-, -, he⟩ | ⟨-, -, he⟩
      · obtain ⟨v, hv, -⟩ := segment_of_holds hd hs
        rw [hv, Dec.ok_bind]
        refine .inl ⟨opt ++ [d], by simp [hn], fun e he => ?_, fun j hj => ?_, _, rfl⟩
        · rcases List.mem_append.mp he with he | he
          · exact hf e he
          · rw [List.mem_singleton.mp he]
            exact hd
        · by_cases hc : j < opt.length
          · rw [List.getElem_append_left hc]
            exact hh j hc
          · have : j = n := by
              rw [List.length_append, List.length_singleton] at hj
              omega
            subst this
            rw [List.getElem_append_right (by omega)]
            simpa [hn] using hs
      · rw [he, Dec.error_bind]; exact .inr (.inl rfl)
      · rw [he, Dec.error_bind]; exact .inr (.inl rfl)
      · rw [he, Dec.error_bind]; exact .inr (.inr rfl)
    · rw [he, Dec.error_bind]; exact .inr (.inl rfl)
    · rw [he, Dec.error_bind]; exact .inr (.inr rfl)

/-- What a V2 core is, in segment 0 after the version field (R134, R135). -/
structure V2CoreHolds (inp : Input) (d : V2Data) : Prop where
  fits : d.fits
  fixed : inp.holds 0 6 (v2FixedBits d)
  sections : inp.holds 0 213
    (d.vendorConsents.bits ++ (d.vendorLiConsents.bits ++ restrictionBits d.restrictions))

/-- What a V2 core and its optional segments are, in the buffers after the version field (R281). -/
structure V2Holds (inp : Input) (d : V2Data) (opt : List SegmentData) : Prop extends
    V2CoreHolds inp d where
  optFits : ∀ e ∈ opt, e.fits
  count : inp.nseg.toNat - 1 = opt.length
  segments : ∀ j, (h : j < opt.length) → inp.holds (j + 1) 0 opt[j].bits

theorem SegmentData.bits_pos (d : SegmentData) : 0 < d.bits.length := by
  rw [SegmentData.bits_eq, List.length_append, fieldBits_length]
  omega

/-- A V2 core with its optional segments decodes to its record (R281). -/
theorem v2Record_of_holds {inp : Input} {d : V2Data} {opt : List SegmentData} (h : V2Holds inp d opt) :
    ∃ r L, d.Matches opt r ∧ List.Forall₂ RestrictionData.Matches d.restrictions L ∧
      v2Record inp = .ok
        { record := r, cur := BitVec.ofNat 40 d.bits.length
          prcount := BitVec.ofNat 12 d.restrictions.length, pr := L } := by
  obtain ⟨⟨hf, hfix, hsec⟩, ho, hn, hseg⟩ := h
  obtain ⟨F, P, T, hF, mF, mP, mT⟩ := v2Fixed_of_holds hf hfix
  have hlen : d.bits.length = 213 + (d.vendorConsents.bits.length +
      (d.vendorLiConsents.bits.length + (restrictionBits d.restrictions).length)) := by
    rw [V2Data.bits_eq]
    simp only [List.length_append, fieldBits_length, v2FixedBits_length hf]
    omega
  obtain ⟨-, -, -, -, -, hv1, hv2, hr, hrf⟩ := hf
  rw [holds_append, holds_append] at hsec
  obtain ⟨hc, hl, hp⟩ := hsec
  obtain ⟨v1, e1, o1⟩ := vendorSection_of_holds hv1 hc
  obtain ⟨v2, e2, o2⟩ := vendorSection_of_holds hv2 hl
  obtain ⟨L, eL, mL⟩ := pubRestrictions_of_holds hr hrf hp
  have hne : noEmptySegment inp (inp.nseg.toNat - 1) = .ok () := by
    rcases noEmptySegment_cases inp (inp.nseg.toNat - 1) with ⟨-, he⟩ | ⟨⟨k, h1, h2, h3⟩, -⟩
    · exact he
    · have hb := (hseg (k - 1) (by omega)).1
      rw [show k - 1 + 1 = k by omega, Input.cap, h3] at hb
      have := SegmentData.bits_pos (opt[k - 1]'(by omega))
      omega
  obtain ⟨r, er, hm⟩ := mergeSegments_of_holds opt
    (r0 := { v2FixedRecord d F P T with vendorConsents := v1.vendors, vendorLiConsents := v2.vendors })
    ⟨rfl, fun i => by simp [v2FixedRecord, lastDisclosed, coversOption],
      fun i => by simp [v2FixedRecord, lastAllowed, coversOption],
      fun i => by simp [v2FixedRecord, lastPublisherTc, flagsCoverOption],
      fun i => by simp [v2FixedRecord, lastPublisherTc, flagsCoverOption],
      fun i => by simp [v2FixedRecord, lastPublisherTc, flagsCoverOption],
      fun i => by simp [v2FixedRecord, lastPublisherTc, flagsCoverOption]⟩ ho hseg
  have hscale : ∀ t : BitVec 36, (scaledTime t).toNat = 100 * t.toNat := by
    intro t
    have := t.isLt
    rw [scaledTime, BitVec.toNat_mul, toNat_setWidth_64]
    change 100 * t.toNat % 2 ^ 64 = 100 * t.toNat
    omega
  refine ⟨r, L, ?_, mL, ?_⟩
  · obtain ⟨h0, h1, h2, h3, h4, h5, h6⟩ := hm
    refine ⟨?_, ?_, ?_, ?_, ?_, ?_, ?_, ?_, ?_, ?_, ?_, ?_, ?_, ?_, ?_, ?_, ?_, ?_, ?_, h1, h2, h3, h4,
      h5, h6⟩ <;> rw [h0]
    · rfl
    · exact hscale _
    · exact hscale _
    · rfl
    · rfl
    · rfl
    · rfl
    · rfl
    · exact mP
    · exact ⟨rfl, rfl⟩
    · rfl
    · rfl
    · rfl
    · exact mF
    · exact mT
    · rfl
    · rfl
    · exact o1.vendors
    · exact o2.vendors
  · rw [v2Record, hne, Dec.ok_bind, hF, Dec.ok_bind, show Config.v2HdrBits = 213 from rfl, e1,
      Dec.ok_bind, o1.next, e2, Dec.ok_bind, o2.next, eL, Dec.ok_bind]
    simp only [hn, er, Dec.ok_bind, cursor, mL.length_eq]
    rw [hlen]
    simp only [Nat.add_assoc]

/-- The first optional segment that fails ends the merging with its error, whatever comes after it (R281 step 5). -/
theorem mergeSegments_error {inp : Input} {n m : Nat} {r0 r : Record} {e : Stop}
    (h : mergeSegments inp n r0 = .ok r) (he : segment inp (n + 1) = .error e) (hn : n + 1 ≤ m) :
    mergeSegments inp m r0 = .error e := by
  induction m with
  | zero => omega
  | succ m ih =>
    rw [mergeSegments]
    by_cases hm : n = m
    · subst hm
      rw [h, Dec.ok_bind, he, Dec.error_bind]
    · rw [ih (by omega), Dec.error_bind]

/-- A segment of this error code fails with it (R242, R322, R327). -/
theorem segment_of_fails {inp : Input} {k : Nat} {code : BitVec 4} (h : inp.segmentFails k code)
    (h3 : 3 ≤ inp.cap k) : ∃ e : DecodeError, e.code = code ∧ segment inp k = .error (.raised e) := by
  have hmem : inp.bitSum k 0 3 ∈ [1, 2, 3] ↔ inp.span k 0 3 ∈ [1#3, 2#3, 3#3] := by
    rw [← span_toNat]
    simp only [List.mem_cons, List.not_mem_nil, or_false, ← BitVec.toNat_inj]
    rfl
  rcases segment_cases inp k with ⟨d, hd, hs⟩ | ⟨hc, -⟩ | ⟨-, ht, he⟩ | ⟨-, ht, he⟩
  · rcases h with ⟨ht, -⟩ | ⟨-, hno, -⟩
    · rw [SegmentData.bits_eq, holds_append] at hs
      rw [hmem, span_of_holds hs.1] at ht
      cases d <;> simp [tagOf] at ht
    · exact absurd hs (hno d hd)
  · omega
  · rcases h with ⟨ht', -⟩ | ⟨-, -, hc⟩
    · exact absurd (hmem.mpr ht) ht'
    · exact ⟨.insufficientLength, hc.symm, he⟩
  · rcases h with ⟨-, hc⟩ | ⟨ht', -⟩
    · exact ⟨.invalidSegmentDefinition, hc.symm, he⟩
    · exact absurd (hmem.mp ht') ht

/-- With no empty segment and letters in the header, a core that is none ends the decode with `InsufficientLength`,
and a core goes on to the optional segments (R281 steps 3 to 5, R340 item 6). -/
theorem v2Record_core_cases {inp : Input}
    (hne : ∀ k, 1 ≤ k → k < inp.nseg.toNat → inp.len k ≠ 0)
    (hl : 213 ≤ inp.cap 0 → Letters.fits ⟨inp.span 0 108 6, inp.span 0 114 6⟩ ∧
      Letters.fits ⟨inp.span 0 201 6, inp.span 0 207 6⟩) :
    ((∀ d, ¬ V2CoreHolds inp d) ∧ v2Record inp = .error (.raised .insufficientLength)) ∨
    ((∃ d, V2CoreHolds inp d) ∧ ∃ r0, MergeOf [] r0 r0 ∧
      ∀ e, mergeSegments inp (inp.nseg.toNat - 1) r0 = .error e → v2Record inp = .error e) := by
  have he : noEmptySegment inp (inp.nseg.toNat - 1) = .ok () := by
    rcases noEmptySegment_cases inp (inp.nseg.toNat - 1) with ⟨-, he⟩ | ⟨⟨k, h1, h2, h3⟩, -⟩
    · exact he
    · exact absurd h3 (hne k h1 (by omega))
  by_cases hd : ∃ d, V2CoreHolds inp d
  · refine .inr ⟨hd, ?_⟩
    obtain ⟨d, hf, hfix, hsec⟩ := hd
    obtain ⟨F, P, T, hF, -⟩ := v2Fixed_of_holds hf hfix
    obtain ⟨-, -, -, -, -, hv1, hv2, hr, hrf⟩ := hf
    rw [holds_append, holds_append] at hsec
    obtain ⟨hc, hli, hp⟩ := hsec
    obtain ⟨v1, e1, o1⟩ := vendorSection_of_holds hv1 hc
    obtain ⟨v2, e2, o2⟩ := vendorSection_of_holds hv2 hli
    obtain ⟨L, eL, -⟩ := pubRestrictions_of_holds hr hrf hp
    refine ⟨{ v2FixedRecord d F P T with vendorConsents := v1.vendors, vendorLiConsents := v2.vendors },
      ?_, fun e hm => ?_⟩
    · refine ⟨rfl, ?_, ?_, ?_, ?_, ?_, ?_⟩ <;> intro i <;>
        simp [v2FixedRecord, lastDisclosed, lastAllowed, lastPublisherTc, coversOption, flagsCoverOption]
    · rw [v2Record, he, Dec.ok_bind, hF, Dec.ok_bind, show Config.v2HdrBits = 213 from rfl, e1,
        Dec.ok_bind, o1.next, e2, Dec.ok_bind, o2.next, eL, Dec.ok_bind]
      simp only [hm, Dec.error_bind]
  · have hno : ∀ d, ¬ V2CoreHolds inp d := fun d h => hd ⟨d, h⟩
    refine .inl ⟨hno, ?_⟩
    rcases v2Fixed_cases inp with ⟨-, hF⟩ | ⟨h, hb, -⟩ | ⟨-, -, -, hd⟩
    · rw [v2Record, he, Dec.ok_bind, hF, Dec.error_bind]
    · exact absurd (hl h) hb
    · obtain ⟨d0, hf0, hh0, -⟩ := hd (.bitmap []) (.bitmap []) [] (by simp [VendorData.fits])
        (by simp [VendorData.fits]) (by simp) (by simp)
      obtain ⟨F, P, T, hF, -⟩ := v2Fixed_of_holds hf0 hh0
      rw [v2Record, he, Dec.ok_bind, hF, Dec.ok_bind, show Config.v2HdrBits = 213 from rfl]
      rcases vendorSection_cases inp 0 213 with ⟨v1, f1, h1⟩ | h1
      · obtain ⟨w1, e1, o1⟩ := vendorSection_of_holds f1 h1
        rw [e1, Dec.ok_bind, o1.next]
        rcases vendorSection_cases inp 0 (213 + v1.bits.length) with ⟨v2, f2, h2⟩ | h2
        · obtain ⟨w2, e2, o2⟩ := vendorSection_of_holds f2 h2
          rw [e2, Dec.ok_bind, o2.next]
          rcases pubRestrictions_cases inp 0 (213 + v1.bits.length + v2.bits.length) with
            ⟨l, hn, fl, h3⟩ | h3
          · obtain ⟨d, hdf, hdh, rfl, rfl, rfl⟩ := hd v1 v2 l f1 f2 hn fl
            refine absurd ⟨hdf, hdh, ?_⟩ (hno d)
            rw [holds_append, holds_append]
            exact ⟨h1, h2, h3⟩
          · rw [h3, Dec.error_bind]
        · rw [h2, Dec.error_bind]
      · rw [h1, Dec.error_bind]

/-- A core and the optional segments before a failing one in place, the decode ends with that segment's error (R340
item 6). -/
theorem v2Record_segment_error {inp : Input} {d : V2Data} {opt : List SegmentData} {e : Stop}
    (hc : V2CoreHolds inp d) (ho : ∀ e ∈ opt, e.fits) (hn : opt.length + 1 < inp.nseg.toNat)
    (hne : ∀ k, 1 ≤ k → k < inp.nseg.toNat → inp.len k ≠ 0)
    (hs : ∀ j, (h : j < opt.length) → inp.holds (j + 1) 0 opt[j].bits)
    (he : segment inp (opt.length + 1) = .error e) : v2Record inp = .error e := by
  have hl : Letters.fits ⟨inp.span 0 108 6, inp.span 0 114 6⟩ ∧
      Letters.fits ⟨inp.span 0 201 6, inp.span 0 207 6⟩ := by
    have hcap := hc.fixed.1
    rw [v2FixedBits_length hc.fits] at hcap
    obtain ⟨F, P, T, hF, -⟩ := v2Fixed_of_holds hc.fits hc.fixed
    rcases v2Fixed_cases inp with ⟨h, -⟩ | ⟨-, -, h⟩ | ⟨-, h1, h2, -⟩
    · omega
    · rw [hF] at h; cases h
    · exact ⟨h1, h2⟩
  rcases v2Record_core_cases hne fun _ => hl with ⟨h, -⟩ | ⟨-, r0, h0, hm⟩
  · exact absurd hc (h d)
  · obtain ⟨r, hr, -⟩ := mergeSegments_of_holds opt h0 ho hs
    exact hm e (mergeSegments_error hr he (by omega))

/-- All that the V2 assembler can do after the version field, in its order (R281, R340). -/
theorem v2Record_cases (inp : Input) :
    ((∃ k, 1 ≤ k ∧ k < inp.nseg.toNat ∧ inp.len k = 0) ∧
      v2Record inp = .error (.raised .insufficientLength)) ∨
    (inp.cap 0 < 213 ∧ v2Record inp = .error (.raised .insufficientLength)) ∨
    ((∀ k, 1 ≤ k → k < inp.nseg.toNat → inp.len k ≠ 0) ∧ 213 ≤ inp.cap 0 ∧
      ¬ (Letters.fits ⟨inp.span 0 108 6, inp.span 0 114 6⟩ ∧
        Letters.fits ⟨inp.span 0 201 6, inp.span 0 207 6⟩) ∧
      v2Record inp = .error (.raised .invalidAlphabetOffset)) ∨
    ((∀ k, 1 ≤ k → k < inp.nseg.toNat → inp.len k ≠ 0) ∧ 213 ≤ inp.cap 0 ∧
      Letters.fits ⟨inp.span 0 108 6, inp.span 0 114 6⟩ ∧
      Letters.fits ⟨inp.span 0 201 6, inp.span 0 207 6⟩ ∧
      (v2Record inp = .error (.raised .insufficientLength) ∨
       v2Record inp = .error (.raised .invalidSegmentDefinition) ∨
       ∃ d opt, V2Holds inp d opt)) := by
  rcases noEmptySegment_cases inp (inp.nseg.toNat - 1) with ⟨hne, he⟩ | ⟨⟨k, h1, h2, h3⟩, he⟩
  · have hne' : ∀ k, 1 ≤ k → k < inp.nseg.toNat → inp.len k ≠ 0 := fun k h1 h2 =>
      hne k h1 (by omega)
    rcases v2Fixed_cases inp with ⟨h, hF⟩ | ⟨h, hb, hF⟩ | ⟨h, hl, hc, -⟩
    · exact .inr (.inl ⟨h, by rw [v2Record, he, Dec.ok_bind, hF, Dec.error_bind]⟩)
    · exact .inr (.inr (.inl ⟨hne', h, hb, by rw [v2Record, he, Dec.ok_bind, hF, Dec.error_bind]⟩))
    · refine .inr (.inr (.inr ⟨hne', h, hl, hc, ?_⟩))
      rcases v2Record_core_cases hne' fun _ => ⟨hl, hc⟩ with ⟨-, he⟩ | ⟨⟨d, hd⟩, r0, -, hm⟩
      · exact .inl he
      · rcases mergeSegments_cases inp (inp.nseg.toNat - 1) r0 with ⟨opt, ho, fo, hs, -⟩ | he | he
        · exact .inr (.inr ⟨d, opt, hd, fo, ho.symm, hs⟩)
        · exact .inl (hm _ he)
        · exact .inr (.inl (hm _ he))
  · exact .inl ⟨⟨k, h1, by omega, h3⟩, by rw [v2Record, he, Dec.error_bind]⟩

end Sys2Proof.Machine
end

