-- ==== Sys2Proof/Tests/Slice0.lean ====
section
/-! SUPPORT. Small tests. Expected values come from the worked examples and vectors of 95_test_vectors.md
(its numbers stand in the comments) and from the encodings of 30_encoding.md. The last part shows, for each
statement with hypotheses, a state and operands that meet them. -/

namespace Sys2Proof.Tests

set_option Elab.async false

open Sys2Proof.Machine Sys2Proof.Format

/-! ## Helpers -/

/-- The buffers, one list of bytes each, as cells. -/
def cells (l : List (List Nat)) : Memory :=
  l.zipIdx.flatMap fun (b, k) => b.zipIdx.map fun (x, j) => (byteAddress k j, BitVec.ofNat 8 x)

/-- The machine after reset with these buffers loaded. -/
def loaded (l : List (List Nat)) : State :=
  { inp :=
      { mem := cells l
        segLen := l.zipIdx.foldl (fun v (b, k) => v.setIfInBounds k (BitVec.ofNat 30 b.length))
          (Vector.replicate 256 0)
        nseg := BitVec.ofNat 9 l.length } }

/-- A machine with these accesses of the host to come. -/
def hosted (s : State) (l : List HostAccess) : State := { s with host := l }

/-- The result registers after a step that ended in a next state. -/
def results (o : Host.Outcome State Fault Refusal) : Option Results :=
  match o with
  | .next t => some t.res
  | .fault _ => none
  | .refused _ => none

/-- `STATUS` after a step that ended in a next state. -/
def status (o : Host.Outcome State Fault Refusal) : Option (BitVec 8) :=
  match o with
  | .next t => some t.status
  | .fault _ => none
  | .refused _ => none

/-- The local values after a step that ended in a next state. -/
def locals (o : Host.Outcome State Fault Refusal) : Option Locals :=
  match o with
  | .next t => some t.loc
  | .fault _ => none
  | .refused _ => none

/-- A set by its members. -/
def ids {n : Nat} (l : List Nat) : IdSet n := ⟨BitVec.ofNat n (l.foldl (fun a i => a + 2 ^ i) 0)⟩

/-- Bits written as digits, first wire bit first. -/
def bits (l : List Nat) : List Bool := l.map (· == 1)

/-! ## Buffers of 95_test_vectors.md section 1 -/

/-- B-V1. -/
def v1 : List Nat :=
  [0x04, 0xE1, 0x05, 0x10, 0x0C, 0x8E, 0x10, 0x51, 0x00, 0xC8, 0x01, 0xC0, 0x04, 0x31,
   0x0D, 0x00, 0x8E, 0x00, 0x00, 0x00, 0x7D, 0xBC, 0x00, 0x40, 0x01, 0x20]

/-- B-V1B. -/
def v1Bitmap : List Nat :=
  [0x04, 0x00, 0x00, 0x00, 0x00, 0x40, 0x00, 0x00, 0x00, 0x0B, 0xFF, 0xC0, 0x03, 0xF0,
   0x19, 0x00, 0x1F, 0xFF, 0xFF, 0xF0, 0x01, 0x44, 0x00, 0x00, 0x80]

/-- B-V2. -/
def v2 : List Nat :=
  [0x08, 0xEB, 0xC5, 0xC8, 0x60, 0x4E, 0xBC, 0x5C, 0x86, 0x04, 0x06, 0xC0, 0x00, 0x01,
   0x0D, 0x00, 0xF0, 0x80, 0x00, 0xE0, 0x00, 0x00, 0x00, 0x00, 0x00, 0x00, 0x00, 0x00,
   0x41, 0x14, 0x00, 0x20, 0x8A, 0x00, 0x00]

/-- B-V2X. -/
def v2x : List Nat :=
  [0x08, 0xEE, 0x6B, 0x28, 0x00, 0x0E, 0xE6, 0xB2, 0x80, 0x04, 0x4B, 0x00, 0x14, 0x10,
   0xC4, 0x02, 0xA0, 0xA4, 0x01, 0xA0, 0x00, 0x01, 0x40, 0x00, 0x00, 0x8A, 0x88, 0x0F,
   0xA4, 0x00, 0x80, 0x00, 0xF0, 0x00, 0xA0, 0x00, 0xC0, 0x00, 0x42, 0x80, 0x18, 0x20,
   0x00, 0x80, 0x01, 0xC2, 0xC0, 0x06, 0x00, 0x14, 0x00, 0x16, 0x0A, 0x00, 0x00]

/-- B-V2X-L. -/
def v2xBadLanguage : List Nat :=
  [0x08, 0xEE, 0x6B, 0x28, 0x00, 0x0E, 0xE6, 0xB2, 0x80, 0x04, 0x4B, 0x00, 0x14, 0x16,
   0x84, 0x02, 0xA0, 0xA4, 0x01, 0xA0, 0x00, 0x01, 0x40, 0x00, 0x00, 0x8A, 0x88, 0x0F,
   0xA4, 0x00, 0x80, 0x00, 0xF0, 0x00, 0xA0, 0x00, 0xC0, 0x00, 0x42, 0x80, 0x18, 0x20,
   0x00, 0x80, 0x01, 0xC2, 0xC0, 0x06, 0x00, 0x14, 0x00, 0x16, 0x0A, 0x00, 0x00]

/-- B-V2X-C. -/
def v2xBadCountry : List Nat :=
  [0x08, 0xEE, 0x6B, 0x28, 0x00, 0x0E, 0xE6, 0xB2, 0x80, 0x04, 0x4B, 0x00, 0x14, 0x10,
   0xC4, 0x02, 0xA0, 0xA4, 0x01, 0xA0, 0x00, 0x01, 0x40, 0x00, 0x00, 0x8B, 0xF8, 0x0F,
   0xA4, 0x00, 0x80, 0x00, 0xF0, 0x00, 0xA0, 0x00, 0xC0, 0x00, 0x42, 0x80, 0x18, 0x20,
   0x00, 0x80, 0x01, 0xC2, 0xC0, 0x06, 0x00, 0x14, 0x00, 0x16, 0x0A, 0x00, 0x00]

/-- B-RSA. -/
def rangeA : List Nat :=
  [0x00, 0x28, 0x00, 0x18, 0x00, 0x28, 0x00, 0x10]

/-- B-RSB. -/
def rangeB : List Nat :=
  [0x00, 0x48, 0x00, 0x38, 0x00, 0x28, 0x00, 0x01, 0xFF, 0xFF, 0xFF, 0xFE, 0xFF, 0xFF]

/-- B-VSF. -/
def vendorF : List Nat :=
  [0x00, 0x0A, 0x22, 0x80]

/-- B-VSH. -/
def vendorH : List Nat :=
  [0x00, 0x03, 0x80, 0x0C, 0x01, 0x90, 0x01, 0x98]

/-- B-DISC. -/
def disc : List Nat :=
  [0x20, 0x00, 0xA9, 0x80]

/-- B-ALLOW. -/
def allow : List Nat :=
  [0x40, 0x01, 0x90, 0x02, 0x00, 0x06, 0x40, 0x00, 0x80, 0x00, 0xC0]

/-- B-PTC. -/
def ptc : List Nat :=
  [0x70, 0x00, 0x00, 0x28, 0x00, 0x00, 0x01, 0xD6]

/-! ## WellFormed refuses what breaks a limit -/

theorem test_wellFormed_rdb_len_64 : Instr.wellFormed (.rdb 0 0 64) = true := by decide

theorem test_wellFormed_rdb_len_65 : Instr.wellFormed (.rdb 0 0 65) = false := by decide

theorem test_wellFormed_rdf_len_64 : Instr.wellFormed (.rdf 0 0 64 3) = true := by decide

theorem test_wellFormed_rdf_len_65 : Instr.wellFormed (.rdf 0 0 65 3) = false := by decide

theorem test_wellFormed_rdf_u8_len_9 : Instr.wellFormed (.rdf 0 0 9 0) = false := by decide

theorem test_wellFormed_rda_cnt_9 : Instr.wellFormed (.rda 0 0 9 6) = false := by decide

theorem test_wellFormed_rda_w_0 : Instr.wellFormed (.rda 0 0 2 0) = false := by decide

theorem test_wellFormed_rda_w_65 : Instr.wellFormed (.rda 0 0 2 65) = false := by decide

theorem test_wellFormed_rda_limits : Instr.wellFormed (.rda 0 0 8 64) = true := by decide

theorem test_wellFormed_letter_25 : Instr.wellFormed (.wireLetter 25) = true := by decide

theorem test_wellFormed_letter_26 : Instr.wellFormed (.wireLetter 26) = false := by decide

/-! ## Decoding, each row from bits written out by its encoding -/

theorem test_decode_clr : decodeWord 0x0100000000000000 = .ok (.clr) := by rfl

theorem test_decode_reqb : decodeWord 0x10070000000000D1 = .ok (.reqb 7 0xD1) := by rfl

theorem test_decode_rdb : decodeWord 0x1102002400000006 = .ok (.rdb 2 6 36) := by rfl

theorem test_decode_rdf : decodeWord 0x1203032480000006 = .ok (.rdf 3 0x80000006 36 3) := by rfl

theorem test_decode_rda : decodeWord 0x130102060000006C = .ok (.rda 1 108 2 6) := by rfl

theorem test_decode_rdfs : decodeWord 0x1400FFFF00000084 = .ok (.rdfs 0 132 0xFFFF) := by rfl

theorem test_decode_rdrs : decodeWord 0x15000000000000AE = .ok (.rdrs 0 174) := by rfl

theorem test_decode_rdvs : decodeWord 0x16FF0000000000D5 = .ok (.rdvs 255 213) := by rfl

theorem test_decode_rdpr : decodeWord 0x1700000000000139 = .ok (.rdpr 0 313) := by rfl

theorem test_decode_rdseg : decodeWord 0x1801000000000000 = .ok (.rdseg 1) := by rfl

theorem test_decode_decv1 : decodeWord 0x2000000000000000 = .ok (.decv1) := by rfl

theorem test_decode_decv2 : decodeWord 0x2100000000000000 = .ok (.decv2) := by rfl

theorem test_decode_dec : decodeWord 0x2200000000000000 = .ok (.dec) := by rfl

theorem test_decode_wireVersionV1 :
    decode .version (bits [0, 0, 0, 0, 0, 1]) = .ok (.wireVersionV1, []) := by rfl

theorem test_decode_wireVersionV2 :
    decode .version (bits [0, 0, 0, 0, 1, 0]) = .ok (.wireVersionV2, []) := by rfl

theorem test_decode_wireRangesetSingle :
    decode .rangesetEntry (bits [0, 0, 0, 0, 0, 0, 0, 0, 0, 0, 0, 0, 0, 1, 0, 0, 1,
      ]) = .ok (.wireRangesetSingle 9, []) := by rfl

theorem test_decode_wireRangesetRange :
    decode .rangesetEntry (bits [1, 0, 0, 0, 0, 0, 0, 0, 0, 0, 0, 0, 0, 0, 0, 1, 1,
      0, 0, 0, 0, 0, 0, 0, 0, 0, 0, 0, 0, 0, 1, 0, 1]) = .ok (.wireRangesetRange 3 5, []) := by rfl

theorem test_decode_wireRangesetCount :
    decode .rangesetCount (bits [1, 0, 0, 0, 0, 0, 0, 0, 0, 0, 1, 0,
      ]) = .ok (.wireRangesetCount 2050, []) := by rfl

theorem test_decode_wireVendorsecBitmap :
    decode .vendorSection (bits [0, 0, 0, 0, 0, 0, 0, 0, 0, 0, 0, 0, 1, 0, 0, 0, 0,
      ]) = .ok (.wireVendorsecBitmap 8, []) := by rfl

theorem test_decode_wireVendorsecRange :
    decode .vendorSection (bits [0, 0, 0, 0, 0, 0, 0, 1, 1, 1, 1, 1, 0, 1, 0, 0, 1,
      ]) = .ok (.wireVendorsecRange 500, []) := by rfl

theorem test_decode_wireV1VendorsBitmap :
    decode .v1Vendors (bits [0, 0, 0, 0, 0, 0, 0, 0, 0, 0, 0, 1, 0, 1, 0, 0, 0,
      ]) = .ok (.wireV1VendorsBitmap 20, []) := by rfl

theorem test_decode_wireV1VendorsRange :
    decode .v1Vendors (bits [0, 0, 0, 0, 0, 1, 1, 1, 1, 1, 0, 1, 1, 0, 1, 1, 1,
      1]) = .ok (.wireV1VendorsRange 2011 1, []) := by rfl

theorem test_decode_wirePubrestrEntry :
    decode .pubrestrEntry (bits [0, 0, 0, 0, 1, 0, 1, 1,
      ]) = .ok (.wirePubrestrEntry 2 3, []) := by rfl

theorem test_decode_wireRtypeNotallowed :
    decode .rtype (bits [0, 0]) = .ok (.wireRtypeNotallowed, []) := by rfl

theorem test_decode_wireRtypeRequireconsent :
    decode .rtype (bits [0, 1]) = .ok (.wireRtypeRequireconsent, []) := by rfl

theorem test_decode_wireRtypeRequireli :
    decode .rtype (bits [1, 0]) = .ok (.wireRtypeRequireli, []) := by rfl

theorem test_decode_wireRtypeUndefined :
    decode .rtype (bits [1, 1]) = .ok (.wireRtypeUndefined, []) := by rfl

theorem test_decode_wireSegtagDisclosed :
    decode .segtag (bits [0, 0, 1]) = .ok (.wireSegtagDisclosed, []) := by rfl

theorem test_decode_wireSegtagAllowed :
    decode .segtag (bits [0, 1, 0]) = .ok (.wireSegtagAllowed, []) := by rfl

theorem test_decode_wireSegtagPublishertc :
    decode .segtag (bits [0, 1, 1]) = .ok (.wireSegtagPublishertc, []) := by rfl

theorem test_decode_wireSegtagInvalid000 :
    decode .segtag (bits [0, 0, 0]) = .ok (.wireSegtagInvalid000, []) := by rfl

theorem test_decode_wireSegtagInvalid100 :
    decode .segtag (bits [1, 0, 0]) = .ok (.wireSegtagInvalid100, []) := by rfl

theorem test_decode_wireSegtagInvalid101 :
    decode .segtag (bits [1, 0, 1]) = .ok (.wireSegtagInvalid101, []) := by rfl

theorem test_decode_wireSegtagInvalid110 :
    decode .segtag (bits [1, 1, 0]) = .ok (.wireSegtagInvalid110, []) := by rfl

theorem test_decode_wireSegtagInvalid111 :
    decode .segtag (bits [1, 1, 1]) = .ok (.wireSegtagInvalid111, []) := by rfl

theorem test_decode_wireLetter :
    decode .letter (bits [0, 0, 1, 1, 0, 1]) = .ok (.wireLetter 13, []) := by rfl

theorem test_decode_illegal_reserved : decodeWord 0x1900000000000000 = .error (.reservedOp 0x19) := by rfl

theorem test_decode_illegal_rdf_zero_bit : decodeWord 0x1200050C0000004E = .error (.nonZeroField 0x12) := by rfl

theorem test_decode_illegal_rdseg_start : decodeWord 0x1801000000000001 = .error (.nonZeroField 0x18) := by rfl

/-! ## The host's interface -/

theorem test_table_word : decodeTableWord 64 0x1801000000000000 = some (.rdseg 1) := by rfl

/-- V38's word right after reset: nothing is loaded. -/
theorem test_step_rejects_from_reset :
    status (step (State.reset.withFetchWord 64 0x1802000000000000)) = some 0x0A := by decide +kernel

theorem test_step_runs_word :
    results (step ((loaded [v1]).withFetchWord 64 0x110000100000009C)) =
      some { val := 2011, valty := 3, cur := 172 } := by decide +kernel

theorem test_host_reads_set_ascending :
    (IdSet.members (ids [9, 4, 5] : IdSet64)) = [4, 5, 9] := by decide +kernel

/-! ## One command on a small state -/

/-- V104 family, R306. -/
theorem test_clr_clears :
    results (exec (.clr) (loaded [])) =
      some {} := by decide +kernel

theorem test_clr_status : status (exec .clr State.reset) = some 0x02 := by decide +kernel

/-- V2. -/
theorem test_reqb_at_capacity :
    status (exec (.reqb 0 208) (loaded [v1])) =
      some 0x02 := by decide +kernel

/-- V3. -/
theorem test_reqb_beyond_capacity :
    status (exec (.reqb 0 209) (loaded [v1])) =
      some 0x16 := by decide +kernel

/-- V10. -/
theorem test_rdb_crosses_bytes :
    results (exec (.rdb 0 3 64) (loaded [v1])) =
      some { val := 2812542499198894728, valty := 3, cur := 67 } := by decide +kernel

/-- V12. -/
theorem test_rdb_one_bit_too_far :
    status (exec (.rdb 0 145 64) (loaded [v1])) =
      some 0x16 := by decide +kernel

/-- V118. -/
theorem test_rdf_u32 :
    results (exec (.rdf 0 6 32 2) (loaded [v1])) =
      some { val := 943801347, valty := 2, cur := 38 } := by decide +kernel

/-- V117. -/
theorem test_rdf_type_too_narrow :
    status (exec (.rdf 0 6 36 2) (loaded [v1])) =
      some 0x0A := by decide +kernel

/-- V122. -/
theorem test_rda_letters :
    results (exec (.rda 0 6 3 6) (loaded [v1])) =
      some { str := #v[0x4F, 0x45, 0x46, 0, 0, 0, 0, 0], strlen := 3, cur := 24 } := by decide +kernel

/-- V130. -/
theorem test_rda_bad_letter :
    status (exec (.rda 0 201 2 6) (loaded [v2xBadCountry])) =
      some 0x46 := by decide +kernel

/-- V132. -/
theorem test_rdfs_flags :
    results (exec (.rdfs 0 132 24) (loaded [v1])) =
      some { setr := ids [1, 2, 3], cur := 156 } := by decide +kernel

/-- V136. -/
theorem test_rdfs_beyond_capacity :
    status (exec (.rdfs 0 200 9) (loaded [v1])) =
      some 0x16 := by decide +kernel

/-- V17. -/
theorem test_rdrs_overlap :
    results (exec (.rdrs 0 0) (loaded [rangeA])) =
      some { setr := ids [3, 4, 5], cur := 62 } := by decide +kernel

/-- V19. -/
theorem test_rdrs_extremes :
    results (exec (.rdrs 0 0) (loaded [rangeB])) =
      some { setr := ids [0, 65534, 65535], cur := 112 } := by decide +kernel

/-- V141. -/
theorem test_rdvs_bitmap :
    results (exec (.rdvs 0 0) (loaded [vendorF])) =
      some { setr := ids [2, 6, 8], maxid := 10, sel := 0, cur := 27 } := by decide +kernel

/-- V143. -/
theorem test_rdvs_range :
    results (exec (.rdvs 0 0) (loaded [vendorH])) =
      some { setr := ids [100, 101, 102], maxid := 3, sel := 1, cur := 62 } := by decide +kernel

/-- V40. -/
theorem test_rdpr_entries :
    results (exec (.rdpr 0 313) (loaded [v2x])) =
      some { prcount := 3, cur := 435
             pr := [{ purposeId := 1, rtype := 0, vendors := ids [7] },
                    { purposeId := 2, rtype := 3, vendors := ids [10, 11] },
                    { purposeId := 1, rtype := 1, vendors := ids [] }] } := by decide +kernel

/-- V41. -/
theorem test_rdpr_empty :
    results (exec (.rdpr 0 263) (loaded [v2])) =
      some { prcount := 0, cur := 275 } := by decide +kernel

/-- V30. -/
theorem test_rdseg_disclosed :
    results (exec (.rdseg 1) (loaded [v2, disc])) =
      some { segtype := 1, maxid := 5, sel := 0, cur := 25
             record := { disclosedVendors := ids [1, 4, 5] } } := by decide +kernel

/-- V32. -/
theorem test_rdseg_publisher :
    results (exec (.rdseg 1) (loaded [v2, ptc])) =
      some { segtype := 3, ccount := 3, cur := 63
             record :=
              { publisherPurposesConsent := ids [1, 24], publisherPurposesLiTransparency := ids [2]
                customPurposesConsent := ids [1, 3], customPurposesLiTransparency := ids [2, 3] } } := by decide +kernel

/-- V50, example E1. -/
theorem test_decv1_example :
    results (exec (.decv1) (loaded [v1])) =
      some { cur := 203
             record :=
              { kind := 1, createdAt := 15100821554, updatedAt := 15100821554, cmpId := 7
                cmpVersion := 1, consentScreen := 3, consentLanguage := #v[0x45, 0x4E]
                vendorListVersion := 8, purposesConsent := ids [1, 2, 3], v1IsBlocklist := 1
                v1Vendors := ids [9] } } := by decide +kernel

/-- V52 turned round: a V2 buffer. -/
theorem test_decv1_wrong_version :
    status (exec (.decv1) (loaded [v2])) =
      some 0x26 := by decide +kernel

/-- Example E2. -/
theorem test_decv2_example :
    results (exec (.decv2) (loaded [v2])) =
      some { cur := 275
             record :=
              { kind := 2, createdAt := 1582243059300, updatedAt := 1582243059300, cmpId := 27
                consentLanguage := #v[0x45, 0x4E], vendorListVersion := 15, tcfPolicyVersion := 2
                purposesConsent := ids [1, 2, 3], publisherCountryCode := #v[0x41, 0x41]
                vendorConsents := ids [2, 6, 8], vendorLiConsents := ids [2, 6, 8] } } := by decide +kernel

/-- The letter fault of B-V2X-L. -/
theorem test_decv2_bad_language :
    status (exec (.decv2) (loaded [v2xBadLanguage])) =
      some 0x46 := by decide +kernel

/-- V61, E4: either order of the optional segments. -/
theorem test_dec_segments :
    results (exec (.dec) (loaded [v2, allow, disc])) =
      some { cur := 275
             record :=
              { kind := 2, createdAt := 1582243059300, updatedAt := 1582243059300, cmpId := 27
                consentLanguage := #v[0x45, 0x4E], vendorListVersion := 15, tcfPolicyVersion := 2
                purposesConsent := ids [1, 2, 3], publisherCountryCode := #v[0x41, 0x41]
                vendorConsents := ids [2, 6, 8], vendorLiConsents := ids [2, 6, 8]
                disclosedVendors := ids [1, 4, 5], allowedVendors := ids [2, 3, 12] } } := by decide +kernel

/-- V51 under DEC: the vendor block in bitmap mode. -/
theorem test_dec_bitmap_vendors :
    status (exec (.dec) (loaded [v1Bitmap])) =
      some 0x02 := by decide +kernel

/-! ## One wire pattern on the local values -/

/-- B-V1 decoded from its version pattern gives what DECV1 gives (E1). -/
theorem test_wireVersionV1 :
    results (exec .wireVersionV1 (loaded [v1])) = results (exec .decv1 (loaded [v1])) := by decide +kernel

/-- B-V2 decoded from its version pattern gives what DECV2 gives (E2). -/
theorem test_wireVersionV2 :
    results (exec .wireVersionV2 (loaded [v2])) = results (exec .decv2 (loaded [v2])) := by decide +kernel

/-- The first entry of B-RSA. -/
theorem test_wireRangesetRange :
    locals (exec (.wireRangesetRange 3 5) { loaded [rangeA] with loc := { p := 12 } }) =
      some { p := 45, set := ids [3, 4, 5] } := by decide +kernel

/-- The second entry of B-RSA; ID 4 is there already. -/
theorem test_wireRangesetSingle :
    locals (exec (.wireRangesetSingle 4) { loaded [rangeA] with loc := { p := 45, set := ids [3, 4, 5] } }) =
      some { p := 62, set := ids [3, 4, 5] } := by decide +kernel

/-- The count of B-RSA and its two entries. -/
theorem test_wireRangesetCount :
    locals (exec (.wireRangesetCount 2) { loaded [rangeA] with loc := {} }) =
      some { p := 62, set := ids [3, 4, 5] } := by decide +kernel

/-- B-VSF. -/
theorem test_wireVendorsecBitmap :
    locals (exec (.wireVendorsecBitmap 10) { loaded [vendorF] with loc := {} }) =
      some { p := 27, set := ids [2, 6, 8], maxId := 10 } := by decide +kernel

/-- B-VSH. -/
theorem test_wireVendorsecRange :
    locals (exec (.wireVendorsecRange 3) { loaded [vendorH] with loc := {} }) =
      some { p := 62, set := ids [100, 101, 102], maxId := 3, sel := 1 } := by decide +kernel

/-- The vendor block of B-V1B (V51). -/
theorem test_wireV1VendorsBitmap :
    results (exec (.wireV1VendorsBitmap 20) (loaded [v1Bitmap])) =
      some { record := { v1Vendors := ids [1, 20] } } := by decide +kernel

/-- The vendor block of B-V1 (E1). -/
theorem test_wireV1VendorsRange :
    results (exec (.wireV1VendorsRange 2011 1) (loaded [v1])) =
      some { record := { v1IsBlocklist := 1, v1Vendors := ids [9] } } := by decide +kernel

/-- Entry 1 of B-V2X (section 3.5). -/
theorem test_wirePubrestrEntry :
    locals (exec (.wirePubrestrEntry 2 3) { loaded [v2x] with loc := { p := 362 } }) =
      some { p := 415, set := ids [10, 11], rtype := 3
             list := [{ purposeId := 2, rtype := 3, vendors := ids [10, 11] }] } := by decide +kernel

/-- R143, R50: the code itself is kept. -/
theorem test_wireRtypeNotallowed :
    locals (exec (.wireRtypeNotallowed) { loaded [v2x] with loc := { p := 331 } }) =
      some { p := 333, rtype := 0 } := by decide +kernel

/-- R143, R50: the code itself is kept. -/
theorem test_wireRtypeRequireconsent :
    locals (exec (.wireRtypeRequireconsent) { loaded [v2x] with loc := { p := 331 } }) =
      some { p := 333, rtype := 1 } := by decide +kernel

/-- R143, R50: the code itself is kept. -/
theorem test_wireRtypeRequireli :
    locals (exec (.wireRtypeRequireli) { loaded [v2x] with loc := { p := 331 } }) =
      some { p := 333, rtype := 2 } := by decide +kernel

/-- R143, R50: the code itself is kept. -/
theorem test_wireRtypeUndefined :
    locals (exec (.wireRtypeUndefined) { loaded [v2x] with loc := { p := 331 } }) =
      some { p := 333, rtype := 3 } := by decide +kernel

/-- B-DISC (V30). -/
theorem test_wireSegtagDisclosed :
    results (exec (.wireSegtagDisclosed) { loaded [v2, disc] with loc := { k := 1 } }) =
      some { record := { disclosedVendors := ids [1, 4, 5] } } := by decide +kernel

/-- B-ALLOW (V31). -/
theorem test_wireSegtagAllowed :
    results (exec (.wireSegtagAllowed) { loaded [v2, allow] with loc := { k := 1 } }) =
      some { record := { allowedVendors := ids [2, 3, 12] } } := by decide +kernel

/-- B-PTC (V32). -/
theorem test_wireSegtagPublishertc :
    locals (exec (.wireSegtagPublishertc) { loaded [v2, ptc] with loc := { k := 1 } }) =
      some { k := 1, p := 63 } := by decide +kernel

/-- R144: any other tag (V34). -/
theorem test_wireSegtagInvalid000 :
    status (exec (.wireSegtagInvalid000) { loaded [v2, disc] with loc := { k := 1 } }) =
      some 0x66 := by decide +kernel

/-- R144: any other tag (V34). -/
theorem test_wireSegtagInvalid100 :
    status (exec (.wireSegtagInvalid100) { loaded [v2, disc] with loc := { k := 1 } }) =
      some 0x66 := by decide +kernel

/-- R144: any other tag (V34). -/
theorem test_wireSegtagInvalid101 :
    status (exec (.wireSegtagInvalid101) { loaded [v2, disc] with loc := { k := 1 } }) =
      some 0x66 := by decide +kernel

/-- R144: any other tag (V34). -/
theorem test_wireSegtagInvalid110 :
    status (exec (.wireSegtagInvalid110) { loaded [v2, disc] with loc := { k := 1 } }) =
      some 0x66 := by decide +kernel

/-- R144: any other tag (V34). -/
theorem test_wireSegtagInvalid111 :
    status (exec (.wireSegtagInvalid111) { loaded [v2, disc] with loc := { k := 1 } }) =
      some 0x66 := by decide +kernel

/-- The second letter of E1. -/
theorem test_wireLetter :
    locals (exec (.wireLetter 13) { loaded [v1] with loc := { p := 114, out := [0x45] } }) =
      some { p := 120, out := [0x45, 0x4E] } := by decide +kernel

/-- R147: 26 is no letter (V129). -/
theorem test_wireLetter_26 :
    status (exec (.wireLetter 26) { loaded [v1] with loc := { p := 114 } }) =
      some 0x46 := by decide +kernel

/-! ## Witnesses: states and operands that meet the hypotheses of the statements -/

/-- What a buffer holds, bit string against bit string. -/
theorem holds_of_runBits {inp : Input} {k s : Nat} {bits : List Bool}
    (h : s + bits.length ≤ inp.cap k ∧ runBits inp k s bits.length = bits) : inp.holds k s bits := by
  refine ⟨h.1, fun i hi => ?_⟩
  rw [List.getElem_of_eq h.2.symm hi]
  simp [runBits]

/-- A machine with the one buffer B-V1 and one host access to come. -/
def oneBuffer (a : HostAccess) : State := hosted (loaded [v1]) [a]

theorem oneBuffer_busy (a : HostAccess) : (oneBuffer a).busy = false :=
  show (0#8).getLsbD 0 = false by decide

theorem reset_hosted_busy (l : List HostAccess) : (hosted State.reset l).busy = false :=
  show (0#8).getLsbD 0 = false by decide

/-- The word of an RDF (V111 with a larger start): every field is at work. -/
theorem witness_CommandWordHasOneMeaning :
    decodeWord 0x1203032480000006 = .ok (.rdf 3 0x80000006 36 3) := by rfl

/-- The reserved codes beside the thirteen, and the two ends. -/
theorem witness_ReservedOpsAreIllegal :
    ∀ op ∈ [0x00, 0x02, 0x0F, 0x19, 0x1F, 0x23, 0xFF],
      let w : Word64 := BitVec.ofNat 64 (op * 2 ^ 56)
      formatOf (w.toNat / 2 ^ 56) = none ∧ (oneBuffer (.writeCmd w)).busy = false ∧
        (oneBuffer (.writeCmd w)).host = [.writeCmd w] := by decide +kernel

/-- One word for every test of R120 in every format, each one step beyond the limit. -/
theorem witness_IllegalWordsAreRejected_words :
    ∀ w ∈ [0x0001000000000000, 0x2001000000000000, 0x2000000100000000, 0x0100000000000001,
        0x1000000100000000, 0x1001000000000000, 0x1100004100000000, 0x1101000000000000,
        0x1401000000000000, 0x1200040000000000, 0x1200008000000000, 0x1200034100000000,
        0x1200000900000000, 0x1200011100000000, 0x1200022100000000, 0x1201000000000000,
        0x1300090100000000, 0x1300000000000000, 0x1300004100000000, 0x1301000100000000,
        0x1500000100000000, 0x1601000000000000, 0x1701000000000000, 0x1800000100000000,
        0x1800000000000001, 0x1801000000000000], illegalWord 1 w := by
  simp [illegalWord, formatOf]

theorem witness_IllegalWordsAreRejected_none_loaded :
    illegalWord (hosted State.reset [.writeCmd 0x2200000000000000]).inp.nseg.toNat
      (0x2200000000000000 : Word64).toNat ∧
    (hosted State.reset [.writeCmd 0x2200000000000000]).busy = false ∧
    (hosted State.reset [.writeCmd 0x2200000000000000]).host = [.writeCmd 0x2200000000000000] := by
  refine ⟨?_, rfl, rfl⟩
  simp [illegalWord, formatOf, hosted, State.reset]

theorem witness_IllegalWordsAreRejected :
    illegalWord (oneBuffer (.writeCmd 0x1100004100000000)).inp.nseg.toNat
      (0x1100004100000000 : Word64).toNat ∧
    (oneBuffer (.writeCmd 0x1100004100000000)).busy = false ∧
    (oneBuffer (.writeCmd 0x1100004100000000)).host = [.writeCmd 0x1100004100000000] :=
  ⟨witness_IllegalWordsAreRejected_words _ (by decide +kernel), rfl, rfl⟩

/-- For every format a word at its limits. -/
theorem witness_LegalWordsAreNotRejected_words :
    ∀ w ∈ [0x0100000000000000, 0x2000000000000000, 0x2200000000000000, 0x10000000FFFFFFFF,
        0x11000040FFFFFFFF, 0x1400FFFFFFFFFFFF, 0x12000340FFFFFFFF, 0x1200000800000000,
        0x1200011000000000, 0x1200022000000000, 0x1300084000000000, 0x1300000100000000,
        0x15000000FFFFFFFF, 0x1600000000000000, 0x1700000000000000, 0x1800000000000000],
      ¬ illegalWord 1 w := by
  simp [illegalWord, formatOf]

theorem witness_LegalWordsAreNotRejected :
    ¬ illegalWord (oneBuffer (.writeCmd 0x1200000800000000)).inp.nseg.toNat
      (0x1200000800000000 : Word64).toNat ∧
    (oneBuffer (.writeCmd 0x1200000800000000)).busy = false ∧
    (oneBuffer (.writeCmd 0x1200000800000000)).host = [.writeCmd 0x1200000800000000] :=
  ⟨witness_LegalWordsAreNotRejected_words _ (by decide +kernel), rfl, rfl⟩

theorem witness_StepRunsDecodedCommand :
    (oneBuffer (.writeCmd 0x110000100000009C)).host = [.writeCmd 0x110000100000009C] ∧
    (oneBuffer (.writeCmd 0x110000100000009C)).busy = false ∧
    decodeWord 0x110000100000009C = .ok (.rdb 0 156 16) := ⟨rfl, rfl, rfl⟩

/-- The largest legal length, and one that is above it. -/
theorem witness_SegLenWriteKeepsLegalValues :
    ∀ v : BitVec 30, (oneBuffer (.writeSegLen 0 v)).host = [.writeSegLen 0 v] ∧
      (oneBuffer (.writeSegLen 0 v)).busy = false ∧ (0#8).toNat < Config.maxSegs :=
  fun _ => ⟨rfl, oneBuffer_busy _, Config.maxSegs_pos⟩

theorem witness_SegLenWriteKeepsLegalValues_clauses :
    (BitVec.ofNat 30 Config.maxSegBytes).toNat = Config.maxSegBytes ∧
    Config.maxSegBytes < (BitVec.ofNat 30 (Config.maxSegBytes + 1)).toNat := by
  have := Config.maxSegBytes_le
  constructor
  · rw [BitVec.toNat_ofNat, Nat.mod_eq_of_lt (by omega)]
  · rw [BitVec.toNat_ofNat, Nat.mod_eq_of_lt (by omega)]
    omega

/-- The largest legal count, and one that is above it. -/
theorem witness_NsegWriteKeepsLegalValues :
    ∀ v : BitVec 9, (oneBuffer (.writeNseg v)).host = [.writeNseg v] ∧
      (oneBuffer (.writeNseg v)).busy = false := fun _ => ⟨rfl, oneBuffer_busy _⟩

theorem witness_NsegWriteKeepsLegalValues_clauses :
    (BitVec.ofNat 9 Config.maxSegs).toNat = Config.maxSegs ∧
    Config.maxSegs < (BitVec.ofNat 9 (Config.maxSegs + 1)).toNat := by
  have := Config.maxSegs_le
  constructor
  · rw [BitVec.toNat_ofNat, Nat.mod_eq_of_lt (by omega)]
  · rw [BitVec.toNat_ofNat, Nat.mod_eq_of_lt (by omega)]
    omega

/-- The first byte of the first buffer, and the last byte of the last. -/
theorem witness_SegWriteChangesOneByte :
    ∀ p ∈ [((0#8, 0#29) : BitVec 8 × BitVec 29),
        (BitVec.ofNat 8 (Config.maxSegs - 1), BitVec.ofNat 29 (Config.maxSegBytes - 1))],
      (hosted State.reset [.writeSeg p.1 p.2 0x5A]).host = [.writeSeg p.1 p.2 0x5A] ∧
      (hosted State.reset [.writeSeg p.1 p.2 0x5A]).busy = false ∧
      p.1.toNat < Config.maxSegs ∧ p.2.toNat < Config.maxSegBytes ∧
      Memory.wf (hosted State.reset [.writeSeg p.1 p.2 0x5A]).inp.epoch
        (hosted State.reset [.writeSeg p.1 p.2 0x5A]).inp.mem := by
  have h1 := Config.maxSegs_pos
  have h2 := Config.maxSegs_le
  have h3 := Config.maxSegBytes_pos
  have h4 := Config.maxSegBytes_le
  intro p hp
  simp only [List.mem_cons, List.not_mem_nil, or_false] at hp
  refine ⟨rfl, reset_hosted_busy _, ?_, ?_, List.Pairwise.nil, by simp [hosted, State.reset]⟩
  · rcases hp with rfl | rfl
    · exact h1
    · simp only [BitVec.toNat_ofNat]
      omega
  · rcases hp with rfl | rfl
    · exact h3
    · simp only [BitVec.toNat_ofNat]
      omega

theorem witness_ReadOnlyWritesAreIgnored :
    ∀ a ∈ [HostAccess.writeStatus 0xFF, .writeResult .val 1, .writeResult (.pr 4094) 1],
      (oneBuffer a).host = [a] ∧
      ((∃ v, a = .writeStatus v) ∨ ∃ r v, a = .writeResult r v ∧ r.present = true) := by
  intro a ha
  simp only [List.mem_cons, List.not_mem_nil, or_false] at ha
  refine ⟨rfl, ?_⟩
  rcases ha with rfl | rfl | rfl
  · exact .inl ⟨_, rfl⟩
  · exact .inr ⟨_, _, rfl, rfl⟩
  · exact .inr ⟨_, _, rfl, rfl⟩

theorem witness_CmdReadsAsZero : (oneBuffer (.read .cmd)).host = [.read .cmd] := rfl

theorem witness_StatusReadsAsItIs : (oneBuffer (.read .status)).host = [.read .status] := rfl

/-- For every set register, and for every numeric one below. -/
theorem witness_SetReadsAscending :
    ∀ p ∈ Results.setRegisters {}, (oneBuffer (.read (.result p.1))).host = [.read (.result p.1)] ∧
      (oneBuffer (.read (.result p.1))).busy = false ∧
      p ∈ (oneBuffer (.read (.result p.1))).res.setRegisters :=
  fun _ hp => ⟨rfl, oneBuffer_busy _, hp⟩

theorem witness_ReadsReturnTheirRegister :
    (oneBuffer (.read .nseg)).host = [.read .nseg] ∧
    ∀ p ∈ Results.numberRegisters {},
      (oneBuffer (.read (.result p.1))).host = [.read (.result p.1)] ∧
      (oneBuffer (.read (.result p.1))).busy = false ∧
      p ∈ (oneBuffer (.read (.result p.1))).res.numberRegisters :=
  ⟨rfl, fun _ hp => ⟨rfl, oneBuffer_busy _, hp⟩⟩

/-- The first byte and the last of every instance, and the length of its last buffer. -/
theorem witness_ReadsReturnTheirRegister_buffers :
    (oneBuffer (.read (.seg 0 0))).host = [.read (.seg 0 0)] ∧
    (0#8).toNat < Config.maxSegs ∧ (0#29).toNat < Config.maxSegBytes ∧
    (BitVec.ofNat 8 (Config.maxSegs - 1)).toNat < Config.maxSegs ∧
    (BitVec.ofNat 29 (Config.maxSegBytes - 1)).toNat < Config.maxSegBytes ∧
    (oneBuffer (.read (.segLen (BitVec.ofNat 8 (Config.maxSegs - 1))))).host =
      [.read (.segLen (BitVec.ofNat 8 (Config.maxSegs - 1)))] := by
  have h1 := Config.maxSegs_pos
  have h2 := Config.maxSegs_le
  have h3 := Config.maxSegBytes_pos
  have h4 := Config.maxSegBytes_le
  refine ⟨rfl, h1, h3, ?_, ?_, rfl⟩
  · simp only [BitVec.toNat_ofNat]
    omega
  · simp only [BitVec.toNat_ofNat]
    omega

/-- Entry 0 of a table that holds one. -/
theorem witness_ReadsReturnTheirRegister_restriction :
    let e : PrEntry := { purposeId := 7, rtype := 2 }
    let s : State := { oneBuffer (.read (.result (.pr 0))) with res := { prcount := 1, pr := [e] } }
    (0#12).toNat < 4095 ∧ s.res.pr[(0#12).toNat]? = some e ∧
      s.host = [.read (.result (.pr 0))] ∧ s.busy = false :=
  ⟨by decide, rfl, rfl, show (0#8).getLsbD 0 = false by decide⟩

/-- A machine with one empty buffer loaded and these accesses to come. -/
def oneEmpty (l : List HostAccess) : State := { inp := { nseg := 1 }, host := l }

theorem oneEmpty_invariant (l : List HostAccess) : Invariant (oneEmpty l) := by
  have hl : ∀ k, (oneEmpty l).inp.len k = 0 := by
    intro k
    by_cases h : k < 256 <;> simp [Input.len, oneEmpty, h]
  have hs : ∀ n m, Within (IdSet.empty : IdSet n) 1 m := fun n m i hi => by simp at hi
  refine ⟨⟨List.Pairwise.nil, by simp [oneEmpty]⟩, by simp [oneEmpty], fun k => by rw [hl]; omega,
    fun k _ => hl k, Config.maxSegs_pos, by simp [oneEmpty, observableStatus], fun _ => rfl, rfl, ?_⟩
  have hl : ∀ i : Fin 8, if i.val < ({} : Results).strlen.toNat then
      0x41 ≤ ({} : Results).str[i].toNat ∧ ({} : Results).str[i].toNat ≤ 0x5A
    else ({} : Results).str[i] = 0 := by decide
  refine ⟨Nat.zero_le _, hl, Nat.zero_le _, Nat.zero_le _, ?_, rfl, by simp [oneEmpty]⟩
  show Record.Shaped {}
  exact ⟨by decide, by decide, by decide, by simp, by simp, hs _ _, hs _ _,
    hs _ _, hs _ _, hs _ _, hs _ _, hs _ _, fun _ => ⟨rfl, rfl⟩,
    fun _ => ⟨rfl, rfl, rfl, rfl, rfl, rfl, rfl, rfl, rfl⟩⟩

/-- The first entry and the last of the table. -/
theorem witness_RestrictionsBeyondCountAreEmpty :
    ∀ i ∈ [0#12, 4094#12], Invariant (oneEmpty [.read (.result (.pr i))]) ∧
      (oneEmpty [.read (.result (.pr i))]).host = [.read (.result (.pr i))] ∧
      (oneEmpty [.read (.result (.pr i))]).res.prcount.toNat ≤ i.toNat ∧ i.toNat < 4095 := by
  intro i hi
  refine ⟨oneEmpty_invariant _, rfl, Nat.zero_le _, ?_⟩
  simp only [List.mem_cons, List.not_mem_nil, or_false] at hi
  rcases hi with rfl | rfl <;> decide

/-- Idle, and in the middle of a command. -/
theorem witness_ResetInputResets :
    (oneBuffer .reset).host = [.reset] ∧
    ({ oneBuffer .reset with status := statusExecuting } : State).host = [.reset] := ⟨rfl, rfl⟩

/-- A write of each kind while a command executes. -/
theorem witness_WritesWhileBusyAreRefused :
    ∀ a ∈ [HostAccess.writeSeg 0 0 0, .writeSegLen 0 0, .writeNseg 0, .writeCmd 0],
      ({ oneBuffer a with status := statusExecuting } : State).host = [a] ∧
      ({ oneBuffer a with status := statusExecuting } : State).busy = true ∧
      ((∃ k j b, a = .writeSeg k j b) ∨ (∃ k v, a = .writeSegLen k v) ∨ (∃ v, a = .writeNseg v) ∨
        ∃ w, a = .writeCmd w) := by
  intro a ha
  simp only [List.mem_cons, List.not_mem_nil, or_false] at ha
  refine ⟨rfl, show (0x01#8).getLsbD 0 = true by decide, ?_⟩
  rcases ha with rfl | rfl | rfl | rfl
  · exact .inl ⟨_, _, _, rfl⟩
  · exact .inr (.inl ⟨_, _, rfl⟩)
  · exact .inr (.inr (.inl ⟨_, rfl⟩))
  · exact .inr (.inr (.inr ⟨_, rfl⟩))

theorem witness_IdleBlockHoldsItsState : (loaded [v1]).host = [] := rfl

/-- A command is issued. -/
theorem witness_EveryStepKeepsInvariant :
    Invariant (oneEmpty [.writeCmd 0x0100000000000000]) ∧
    step (oneEmpty [.writeCmd 0x0100000000000000]) =
      .next { oneEmpty [] with cmd := 0x0100000000000000, status := 0x02 } :=
  ⟨oneEmpty_invariant _, rfl⟩

/-- A next state whose `STATUS` is the one given. -/
theorem next_of_status {o : Host.Outcome State Fault Refusal} {v : BitVec 8} (h : status o = some v) :
    ∃ t, o = .next t ∧ t.status = v := by
  cases o with
  | next t => exact ⟨t, rfl, by simpa [status] using h⟩
  | fault f => simp [status] at h
  | refused r => simp [status] at h

theorem witness_InstructionsWriteOnlyResults :
    ∃ t, exec (.rdrs 0 174) (loaded [v1]) = .next t ∧ t.status = 0x02 :=
  next_of_status (by decide +kernel)

/-- V24, V25 and a segment that is not loaded: success, an error, a command error. -/
theorem witness_CommandsEndAsListed :
    (Instr.kind (.rdrs 0 174) = .command ∧
      ∃ t, exec (.rdrs 0 174) (loaded [v1]) = .next t ∧ t.status = 0x02) ∧
    (Instr.kind (.rdrs 0 196) = .command ∧
      ∃ t, exec (.rdrs 0 196) (loaded [v1]) = .next t ∧ t.status = 0x16) ∧
    (Instr.kind (.rdrs 1 0) = .command ∧
      ∃ t, exec (.rdrs 1 0) (loaded [v1]) = .next t ∧ t.status = 0x0A) :=
  ⟨⟨rfl, next_of_status (by decide +kernel)⟩, ⟨rfl, next_of_status (by decide +kernel)⟩,
    ⟨rfl, next_of_status (by decide +kernel)⟩⟩

/-- A letter, no letter, and a buffer that is not loaded. -/
theorem witness_ElementsEndAsListed :
    (Instr.kind (.wireLetter 25) ≠ .command ∧ Instr.kind (.wireLetter 25) ≠ .version ∧
      ∃ t, exec (.wireLetter 25) (loaded [v1]) = .next t ∧ t.status = 0x00) ∧
    (Instr.kind (.wireLetter 26) ≠ .command ∧ Instr.kind (.wireLetter 26) ≠ .version ∧
      ∃ t, exec (.wireLetter 26) (loaded [v1]) = .next t ∧ t.status = 0x46) ∧
    (Instr.kind (.wireLetter 25) ≠ .command ∧ Instr.kind (.wireLetter 25) ≠ .version ∧
      ∃ t, exec (.wireLetter 25) State.reset = .next t ∧ t.status = 0x0A) :=
  ⟨⟨by decide, by decide, next_of_status (by decide +kernel)⟩,
    ⟨by decide, by decide, next_of_status (by decide +kernel)⟩,
    ⟨by decide, by decide, next_of_status (by decide +kernel)⟩⟩

/-- The version patterns: a record, a bad letter, a header that is too short and a bad segment tag. -/
theorem witness_ElementsEndAsListed_version :
    (Instr.kind .wireVersionV1 = .version ∧ Instr.kind .wireVersionV2 = .version) ∧
    (∃ t, exec .wireVersionV1 (loaded [v1]) = .next t ∧ t.status = 0x02) ∧
    (∃ t, exec .wireVersionV1 (loaded [0x04 :: v2xBadLanguage.tail]) = .next t ∧ t.status = 0x46) ∧
    (∃ t, exec .wireVersionV1 (loaded [v1.take 21]) = .next t ∧ t.status = 0x16) ∧
    ∃ t, exec .wireVersionV2 (loaded [v2, [0x80]]) = .next t ∧ t.status = 0x66 :=
  ⟨⟨rfl, rfl⟩, next_of_status (by decide +kernel), next_of_status (by decide +kernel),
    next_of_status (by decide +kernel), next_of_status (by decide +kernel)⟩

/-- The same buffer with one byte more behind its length. -/
theorem witness_CommandsReadOnlyLoadedBytes :
    Instr.kind (.rdrs 0 0) = .command ∧
    (loaded [rangeA]).inp.sameLoaded
      { (loaded [rangeA]).inp with mem := (loaded [rangeA]).inp.mem ++ [(byteAddress 0 8, 0xAB)] } ∧
    ∃ t, exec (.rdrs 0 0) (loaded [rangeA]) = .next t ∧ t.status = 0x02 := by
  refine ⟨rfl, ⟨rfl, fun k hk => ?_⟩, next_of_status (by decide +kernel)⟩
  have : k = 0 := Nat.lt_one_iff.mp hk
  subst this
  exact ⟨rfl, by decide +kernel⟩

theorem byte_cut (x : Input) (v : Vector (BitVec 30) 256) :
    ∀ k j, ({ x with segLen := v } : Input).byte k j = x.byte k j := fun _ _ => rfl

/-- V17 and V18: B-RSA, and B-RSA cut to 7 bytes. -/
theorem witness_TruncationRaisesInsufficientLength :
    Instr.kind (.rdrs 0 0) = .command ∧
    (∃ t, exec (.rdrs 0 0) (loaded [rangeA]) = .next t ∧ t.status = 0x02 ∧
      ({ (loaded [rangeA]).inp with segLen := (loaded [rangeA]).inp.segLen.set 0 7 } : Input).cap
        (cursorBuffer (.rdrs 0 0)) < t.res.cur.toNat) ∧
    (loaded [rangeA]).inp.truncates
      { (loaded [rangeA]).inp with segLen := (loaded [rangeA]).inp.segLen.set 0 7 }
      (cursorBuffer (.rdrs 0 0)) := by
  have hr : results (exec (.rdrs 0 0) (loaded [rangeA])) =
      some { setr := ids [3, 4, 5], cur := 62 } := by decide +kernel
  obtain ⟨t, ht, hs⟩ := next_of_status (o := exec (.rdrs 0 0) (loaded [rangeA])) (v := 0x02)
    (by decide +kernel)
  refine ⟨rfl, ⟨t, ht, hs, ?_⟩, rfl, fun k hk => ?_, by decide +kernel, byte_cut _ _⟩
  · rw [ht] at hr
    have hc : t.res.cur = 62 := by
      have := Option.some.inj hr
      rw [this]
    rw [hc]
    decide +kernel
  · have h0 : (0 : Nat) ≠ k := fun h => hk h.symm
    simp only [Input.len]
    by_cases h : k < 256
    · rw [Vector.getElem?_eq_getElem h, Vector.getElem?_eq_getElem h, Vector.getElem_set,
        if_neg h0]
    · simp [h]

theorem witness_CursorStaysInItsBuffer :
    Instr.kind (.rdb 0 144 64) = .command ∧
    ∃ t, exec (.rdb 0 144 64) (loaded [v1]) = .next t ∧ t.status = 0x02 :=
  ⟨rfl, next_of_status (by decide +kernel)⟩

/-- V11 and V12, and a width of 65. -/
theorem witness_ReadBitsIsItsSum :
    (64 ≤ 64 ∧ 144 + 64 ≤ (loaded [v1]).inp.cap 0) ∧
    ¬ (64 ≤ 64 ∧ 145 + 64 ≤ (loaded [v1]).inp.cap 0) ∧
    ¬ (65 ≤ 64 ∧ 0 + 65 ≤ (loaded [v1]).inp.cap 0) := by decide +kernel

theorem witness_RequirePassesWithinCapacity :
    208 ≤ 8 * (loaded [v1]).inp.len 0 ∧ 8 * (loaded [v1]).inp.len 0 < 209 := by decide +kernel

/-- The first 36-bit timestamp of B-V1 as 30 and 6 bits. -/
theorem witness_ReadBitsSplits :
    readBits (loaded [v1]).inp 0 6 (30 + 6) = .ok 15100821554 := by
  rw [readBits_pass (by decide) (by decide +kernel)]
  exact congrArg Except.ok (BitVec.eq_of_toNat_eq (by decide +kernel))

/-- V10: 64 bits over nine bytes; and 3 bits inside one byte. -/
theorem witness_BytewiseReaderAgrees :
    (∃ v, readBits (loaded [v1]).inp 0 3 64 = .ok v) ∧
    ∃ v, readBits (loaded [v1]).inp 0 3 3 = .ok v :=
  ⟨⟨_, readBits_pass (by decide) (by decide +kernel)⟩,
    ⟨_, readBits_pass (by decide) (by decide +kernel)⟩⟩

/-- The three cases of REQB: not loaded; V3; V2. -/
theorem witness_ReqbTestsCapacity :
    (loaded [v1]).inp.nseg.toNat ≤ (1#8).toNat ∧
    (¬ (loaded [v1]).inp.nseg.toNat ≤ (0#8).toNat ∧
      (loaded [v1]).inp.cap (0#8).toNat < (209#32).toNat) ∧
    ¬ (loaded [v1]).inp.cap (0#8).toNat < (208#32).toNat := by decide +kernel

/-- The cases of RDB and RDF: length, buffer, span (V12), success (V11). -/
theorem witness_RdbReadsTheSpan :
    64 < (65#16).toNat ∧ (loaded [v1]).inp.nseg.toNat ≤ (1#8).toNat ∧
    (¬ (64 < (64#16).toNat ∨ (loaded [v1]).inp.nseg.toNat ≤ (0#8).toNat) ∧
      (loaded [v1]).inp.cap (0#8).toNat < (145#32).toNat + (64#16).toNat) ∧
    ¬ (loaded [v1]).inp.cap (0#8).toNat < (144#32).toNat + (64#16).toNat := by decide +kernel

theorem witness_RdfReadsTheTypedField :
    8 * 2 ^ (0#2).toNat < (9#7).toNat ∧
    (¬ (64 < (8#7).toNat ∨ 8 * 2 ^ (0#2).toNat < (8#7).toNat ∨
        (loaded [v1]).inp.nseg.toNat ≤ (0#8).toNat) ∧
      (loaded [v1]).inp.cap (0#8).toNat < (201#32).toNat + (8#7).toNat) ∧
    ¬ (loaded [v1]).inp.cap (0#8).toNat < (200#32).toNat + (8#7).toNat := by decide +kernel

/-- The cases of RDA: V124, V129 and V120 (V123 and V125 to V126 are rejected or empty). -/
theorem witness_RdaReadsTheLetters :
    (¬ (8 < (2#8).toNat ∨ (6#8).toNat = 0 ∨ 64 < (6#8).toNat ∨
        (loaded [v1]).inp.nseg.toNat ≤ (0#8).toNat) ∧
      (loaded [v1]).inp.cap 0 < (198#32).toNat + (2#8).toNat * (6#8).toNat) ∧
    (¬ (loaded [v2xBadLanguage]).inp.cap 0 < 108 + 2 * 6 ∧
      ((loaded [v2xBadLanguage]).inp.span 0 (108 + 0 * 6) 6).toNat = 26) ∧
    ¬ (loaded [v1]).inp.cap 0 < 108 + 2 * 6 := by decide +kernel

/-- V138's buffer not loaded; V136; and a bitmap that ends at the capacity. -/
theorem witness_RdfsReadsTheFlags :
    (loaded [v1]).inp.nseg.toNat ≤ (1#8).toNat ∧
    ((0#8).toNat < (loaded [v1]).inp.nseg.toNat ∧
      (loaded [v1]).inp.cap (0#8).toNat < (200#32).toNat + (9#16).toNat) ∧
    (200#32).toNat + (8#16).toNat ≤ (loaded [v1]).inp.cap (0#8).toNat := by decide +kernel

/-- V17; and V23, where no count fits. -/
theorem witness_RdrsDecodesRangeSets :
    (loaded [rangeA]).inp.nseg.toNat ≤ (1#8).toNat ∧
    ((0#8).toNat < (loaded [rangeA]).inp.nseg.toNat ∧
      [RangeItem.range 3 5, .single 4].length < 4096 ∧
      (loaded [rangeA]).inp.holds (0#8).toNat (0#32).toNat
        (rangeSetBits [.range 3 5, .single 4])) := by decide +kernel

theorem witness_RdrsDecodesRangeSets_none :
    (0#8).toNat < (loaded [[0, 0]]).inp.nseg.toNat ∧
    ∀ items : List RangeItem, items.length < 4096 →
      ¬ (loaded [[0, 0]]).inp.holds (0#8).toNat (5#32).toNat (rangeSetBits items) := by
  refine ⟨by decide +kernel, fun items _ h => ?_⟩
  have h1 := h.1
  have hc : (loaded [[0, 0]]).inp.cap (0#8).toNat = 16 := by decide +kernel
  rw [hc, rangeSetBits, List.length_append] at h1
  simp [encodeWire] at h1
  omega

/-- The vendor sections B-VSF and B-VSH. -/
theorem witness_RdvsDecodesVendorSections :
    (loaded [vendorF]).inp.nseg.toNat ≤ (1#8).toNat ∧
    ((0#8).toNat < (loaded [vendorF]).inp.nseg.toNat ∧
      (loaded [vendorF]).inp.holds (0#8).toNat (0#32).toNat
        (VendorData.bitmap (bits [0, 1, 0, 0, 0, 1, 0, 1, 0, 0])).bits) ∧
    (loaded [vendorH]).inp.holds (0#8).toNat (0#32).toNat
      (VendorData.range 3 [.range 100 102]).bits := by decide +kernel

theorem witness_RdvsDecodesVendorSections_fits :
    (VendorData.bitmap (bits [0, 1, 0, 0, 0, 1, 0, 1, 0, 0])).fits ∧
    (VendorData.range 3 [.range 100 102]).fits := by
  constructor <;> simp [VendorData.fits, bits]

theorem vendorBits_length (v : VendorData) : 17 ≤ v.bits.length := by
  cases v <;> simp [VendorData.bits, encodeWire] <;> omega

theorem witness_RdvsDecodesVendorSections_none :
    (0#8).toNat < (loaded [[0, 0]]).inp.nseg.toNat ∧
    ∀ v : VendorData, v.fits →
      ¬ (loaded [[0, 0]]).inp.holds (0#8).toNat (0#32).toNat v.bits := by
  refine ⟨by decide +kernel, fun v _ h => ?_⟩
  have h1 := h.1
  have h2 := vendorBits_length v
  have hc : (loaded [[0, 0]]).inp.cap (0#8).toNat = 16 := by decide +kernel
  rw [hc] at h1
  simp at h1
  omega

/-- The restrictions of B-V2X (V40). -/
def restrictionsOfV2x : List RestrictionData :=
  [⟨1, 0, [], [.single 7]⟩, ⟨2, 3, [], [.range 10 11]⟩, ⟨1, 1, [], []⟩]

theorem restrictionsOfV2x_fits : ∀ r ∈ restrictionsOfV2x, r.fits := by
  intro r hr
  simp only [restrictionsOfV2x, List.mem_cons, List.not_mem_nil, or_false] at hr
  rcases hr with rfl | rfl | rfl <;> exact ⟨rfl, by decide⟩

theorem witness_RdprDecodesRestrictions :
    (loaded [v2x]).inp.nseg.toNat ≤ (1#8).toNat ∧
    ((0#8).toNat < (loaded [v2x]).inp.nseg.toNat ∧ restrictionsOfV2x.length < 4096 ∧
      (loaded [v2x]).inp.holds (0#8).toNat (313#32).toNat (restrictionBits restrictionsOfV2x)) := by
  decide +kernel

theorem witness_RdprDecodesRestrictions_none :
    (0#8).toNat < (loaded [[0, 0]]).inp.nseg.toNat ∧
    ∀ l : List RestrictionData, l.length < 4096 → (∀ r ∈ l, r.fits) →
      ¬ (loaded [[0, 0]]).inp.holds (0#8).toNat (5#32).toNat (restrictionBits l) := by
  refine ⟨by decide +kernel, fun l _ _ h => ?_⟩
  have h1 := h.1
  have hc : (loaded [[0, 0]]).inp.cap (0#8).toNat = 16 := by decide +kernel
  rw [hc, restrictionBits, List.length_append] at h1
  simp at h1
  omega

/-- B-DISC, B-ALLOW and B-PTC as data (V30 to V32). -/
def discData : SegmentData := .disclosed (.bitmap (bits [1, 0, 0, 1, 1]))

def allowData : SegmentData := .allowed (.range 12 [.single 12, .range 2 3])

/-- `n` flags, set at these positions. -/
def flagList (n : Nat) (l : List Nat) : List Bool := (List.range n).map fun i => l.contains (i + 1)

def ptcData : PubTcData := ⟨flagList 24 [1, 24], flagList 24 [2], flagList 3 [1, 3], flagList 3 [2, 3]⟩

theorem discData_fits : discData.fits := by simp [discData, SegmentData.fits, VendorData.fits, bits]

theorem allowData_fits : allowData.fits := by simp [allowData, SegmentData.fits, VendorData.fits]

theorem ptcData_fits : ptcData.fits := by simp [ptcData, PubTcData.fits, flagList]

/-- Not loaded; shorter than a tag (V35); tag 4 (V34) and tag 0 (V37); the three segments. -/
theorem witness_RdsegDecodesSegments :
    (loaded [v2]).inp.nseg.toNat ≤ (1#8).toNat ∧
    ((1#8).toNat < (loaded [v2, []]).inp.nseg.toNat ∧ (loaded [v2, []]).inp.cap (1#8).toNat < 3) ∧
    (3 ≤ (loaded [v2, [0x80]]).inp.cap (1#8).toNat ∧
      ((loaded [v2, [0x80]]).inp.span (1#8).toNat 0 3).toNat ∉ [1, 2, 3]) ∧
    (loaded [v2, disc, allow, ptc]).inp.holds (1#8).toNat 0 discData.bits ∧
    (loaded [v2, disc, allow, ptc]).inp.holds (2#8).toNat 0 allowData.bits ∧
    (loaded [v2, disc, allow, ptc]).inp.holds (3#8).toNat 0 (SegmentData.publisherTc ptcData).bits ∧
    (3#8).toNat < (loaded [v2, disc, allow, ptc]).inp.nseg.toNat := by decide +kernel

theorem segmentBits_length {e : SegmentData} (hf : e.fits) : 20 ≤ e.bits.length := by
  rw [SegmentData.bits_eq, List.length_append, fieldBits_length]
  cases e with
  | disclosed v =>
    have := vendorBits_length v
    simp only [payloadBits]
    omega
  | allowed v =>
    have := vendorBits_length v
    simp only [payloadBits]
    omega
  | publisherTc t =>
    have := PubTcData.bits_length hf
    simp only [payloadBits]
    omega

/-- Tag 1 and no room for the vendor section. -/
theorem witness_RdsegDecodesSegments_none :
    (0#8).toNat < (loaded [[0x20]]).inp.nseg.toNat ∧ 3 ≤ (loaded [[0x20]]).inp.cap (0#8).toNat ∧
    (loaded [[0x20]]).inp.bitSum (0#8).toNat 0 3 ∈ [1, 2, 3] ∧
    ∀ d : SegmentData, d.fits → ¬ (loaded [[0x20]]).inp.holds (0#8).toNat 0 d.bits := by
  refine ⟨by decide +kernel, by decide +kernel, ?_, fun d hf h => ?_⟩
  · rw [← span_toNat]
    decide +kernel
  · have h1 := h.1
    have hc : (loaded [[0x20]]).inp.cap (0#8).toNat = 8 := by decide +kernel
    have := segmentBits_length hf
    omega

/-- B-V1 as data (E1), and B-V1B (V51). -/
def v1Data : V1Data :=
  ⟨15100821554, 15100821554, 7, 1, 3, ⟨4, 13⟩, 8, flagList 24 [1, 2, 3], .range 2011 1 [.single 9]⟩

def v1BitmapData : V1Data :=
  ⟨1, 2, 4095, 0, 63, ⟨0, 25⟩, 1, flagList 24 (List.range 25), .bitmap (flagList 20 [1, 20])⟩

theorem witness_Decv1DecodesV1Records :
    0 < (loaded [v1]).inp.nseg.toNat ∧ (loaded [v1]).inp.holds 0 0 v1Data.bits ∧
    0 < (loaded [v1Bitmap]).inp.nseg.toNat ∧ (loaded [v1Bitmap]).inp.holds 0 0 v1BitmapData.bits :=
  ⟨by decide +kernel, holds_of_runBits (by decide +kernel), by decide +kernel,
    holds_of_runBits (by decide +kernel)⟩

theorem witness_Decv1DecodesV1Records_fits : v1Data.fits ∧ v1BitmapData.fits := by
  refine ⟨⟨⟨by decide, by decide⟩, rfl, ?_⟩, ⟨⟨by decide, by decide⟩, rfl, ?_⟩⟩ <;>
    simp [v1Data, v1BitmapData, V1VendorData.fits, flagList]

/-- B-V1 cut in its vendor block, behind the whole header, holds no V1 buffer. -/
theorem witness_Decv1DecodesV1Records_none :
    (0 < (loaded [v1.take 22]).inp.nseg.toNat ∧ 173 ≤ (loaded [v1.take 22]).inp.cap 0 ∧
      ((loaded [v1.take 22]).inp.span 0 0 6).toNat = 1 ∧
      ((loaded [v1.take 22]).inp.span 0 108 6).toNat ≤ 25 ∧
      ((loaded [v1.take 22]).inp.span 0 114 6).toNat ≤ 25) ∧
    ∀ d : V1Data, d.fits → ¬ (loaded [v1.take 22]).inp.holds 0 0 d.bits := by
  refine ⟨by decide +kernel, fun d hf h => ?_⟩
  rw [V1Data.bits_eq, holds_append] at h
  obtain ⟨r, -, he⟩ := v1Record_of_holds hf (by simpa using h.2)
  have : (v1Record (loaded [v1.take 22]).inp).toBool = false := by decide +kernel
  rw [he] at this
  cases this

/-- B-V2X as data (section 3.5). -/
def v2xData : V2Data :=
  ⟨16000000000, 16000000001, 300, 5, 1, ⟨3, 4⟩, 42, 2, 1, 0, flagList 12 [2, 12],
    flagList 24 [1, 3, 24], flagList 24 [2], 1, ⟨5, 17⟩, .range 500 [.single 7, .range 10 12],
    .bitmap (flagList 4 [2, 4]), restrictionsOfV2x⟩

/-- B-V2X with all three kinds of optional segment, one of them twice. -/
def v2xSegments : List SegmentData := [discData, allowData, .publisherTc ptcData, discData]

theorem witness_Decv2DecodesV2Records :
    (loaded [v2x, disc, allow, ptc, disc]).inp.nseg.toNat = v2xSegments.length + 1 ∧
    (loaded [v2x, disc, allow, ptc, disc]).inp.holds 0 0 v2xData.bits ∧
    ∀ j, (h : j < v2xSegments.length) →
      (loaded [v2x, disc, allow, ptc, disc]).inp.holds (j + 1) 0 v2xSegments[j].bits := by
  have hs : ∀ j : Fin v2xSegments.length,
      0 + v2xSegments[j].bits.length ≤ (loaded [v2x, disc, allow, ptc, disc]).inp.cap (j + 1) ∧
      runBits (loaded [v2x, disc, allow, ptc, disc]).inp (j + 1) 0 v2xSegments[j].bits.length =
        v2xSegments[j].bits := by decide +kernel
  exact ⟨by decide +kernel, holds_of_runBits (by decide +kernel), fun j h =>
    holds_of_runBits (hs ⟨j, h⟩)⟩

theorem witness_Decv2DecodesV2Records_fits : v2xData.fits ∧ ∀ e ∈ v2xSegments, e.fits := by
  refine ⟨⟨⟨by decide, by decide⟩, rfl, rfl, rfl, ⟨by decide, by decide⟩, ?_, ?_, by decide,
    restrictionsOfV2x_fits⟩, ?_⟩
  · simp [v2xData, VendorData.fits]
  · simp [v2xData, VendorData.fits, flagList]
  · intro e he
    simp only [v2xSegments, List.mem_cons, List.not_mem_nil, or_false] at he
    rcases he with rfl | rfl | rfl | rfl
    · exact discData_fits
    · exact allowData_fits
    · exact ptcData_fits
    · exact discData_fits

/-- B-V2 cut behind its header, before a segment with a bad tag, holds no V2 core. -/
theorem witness_Decv2DecodesV2Records_none :
    (0 < (loaded [v2.take 27, [0x80]]).inp.nseg.toNat ∧ 213 ≤ (loaded [v2.take 27, [0x80]]).inp.cap 0 ∧
      ((loaded [v2.take 27, [0x80]]).inp.span 0 0 6).toNat = 2 ∧
      ∀ k, k < 2 → (loaded [v2.take 27, [0x80]]).inp.len k ≠ 0) ∧
    (∀ b ∈ [108, 114, 201, 207], ((loaded [v2.take 27, [0x80]]).inp.span 0 b 6).toNat ≤ 25) ∧
    ∀ d : V2Data, d.fits → ¬ (loaded [v2.take 27, [0x80]]).inp.holds 0 0 d.bits := by
  refine ⟨by decide +kernel, by decide +kernel, fun d hf h => ?_⟩
  have hc := h.1
  have h1 : (loaded [v2.take 27, [0x80]]).inp.cap 0 = 216 := by decide +kernel
  have h2 := vendorBits_length d.vendorConsents
  rw [h1, V2Data.bits_eq] at hc
  simp only [List.length_append, fieldBits_length, v2FixedBits_length hf] at hc
  omega

/-- The second optional segment fails, behind a good one and before a bad one: by its tag. -/
theorem witness_Decv2DecodesV2Records_bad_tag :
    [discData].length + 1 < (loaded [v2x, disc, [0x80], [0x20]]).inp.nseg.toNat ∧
    (∀ k, k < 4 → (loaded [v2x, disc, [0x80], [0x20]]).inp.len k ≠ 0) ∧
    (loaded [v2x, disc, [0x80], [0x20]]).inp.holds 0 0 v2xData.bits ∧
    (loaded [v2x, disc, [0x80], [0x20]]).inp.holds 1 0 discData.bits ∧
    ((loaded [v2x, disc, [0x80], [0x20]]).inp.span 2 0 3).toNat ∉ [1, 2, 3] :=
  ⟨by decide +kernel, by decide +kernel, holds_of_runBits (by decide +kernel),
    holds_of_runBits (by decide +kernel), by decide +kernel⟩

/-- The first optional segment fails, before a bad one: by its payload. -/
theorem witness_Decv2DecodesV2Records_short_payload :
    1 < (loaded [v2x, [0x20], [0x80]]).inp.nseg.toNat ∧
    (loaded [v2x, [0x20], [0x80]]).inp.holds 0 0 v2xData.bits ∧
    ((loaded [v2x, [0x20], [0x80]]).inp.span 1 0 3).toNat ∈ [1, 2, 3] ∧
    ∀ e : SegmentData, e.fits → ¬ (loaded [v2x, [0x20], [0x80]]).inp.holds 1 0 e.bits :=
  ⟨by decide +kernel, holds_of_runBits (by decide +kernel), by decide +kernel, fun _ hf h =>
    absurd (segmentBits_length hf) (by
      have h1 := h.1
      have hc : (loaded [v2x, [0x20], [0x80]]).inp.cap 1 = 8 := by decide +kernel
      omega)⟩

theorem witness_NothingLoadedIsRejected : State.reset.inp.nseg = 0 := rfl

/-- An empty core; a core whose version is 2 under DECV1, 1 under DECV2, 3 under DEC. -/
theorem witness_VersionIsTestedFirst :
    (0 < (loaded [[]]).inp.nseg.toNat ∧ (loaded [[]]).inp.cap 0 < 6) ∧
    (6 ≤ (loaded [v2]).inp.cap 0 ∧ ((loaded [v2]).inp.span 0 0 6).toNat = 2) ∧
    (6 ≤ (loaded [v1]).inp.cap 0 ∧ ((loaded [v1]).inp.span 0 0 6).toNat = 1) ∧
    (6 ≤ (loaded [[0x0C]]).inp.cap 0 ∧ ((loaded [[0x0C]]).inp.span 0 0 6).toNat = 3) := by
  decide +kernel

/-- The first optional segment empty, and the last. -/
theorem witness_EmptySegmentIsAHardError :
    (1 ≤ 1 ∧ 1 < (loaded [v2, [], disc]).inp.nseg.toNat ∧ (loaded [v2, [], disc]).inp.len 1 = 0 ∧
      6 ≤ (loaded [v2, [], disc]).inp.cap 0 ∧
      ((loaded [v2, [], disc]).inp.span 0 0 6).toNat = 2) ∧
    (1 ≤ 2 ∧ 2 < (loaded [v2, disc, []]).inp.nseg.toNat ∧ (loaded [v2, disc, []]).inp.len 2 = 0) := by
  decide +kernel

/-- Headers cut to one byte below their length. -/
theorem witness_ShortHeaderBeforeLetters :
    (0 < (loaded [v1.take 21]).inp.nseg.toNat ∧ 6 ≤ (loaded [v1.take 21]).inp.cap 0 ∧
      ((loaded [v1.take 21]).inp.span 0 0 6).toNat = 1 ∧ (loaded [v1.take 21]).inp.cap 0 < 173) ∧
    (0 < (loaded [v2.take 26]).inp.nseg.toNat ∧ 6 ≤ (loaded [v2.take 26]).inp.cap 0 ∧
      ((loaded [v2.take 26]).inp.span 0 0 6).toNat = 2 ∧ (loaded [v2.take 26]).inp.cap 0 < 213) := by
  decide +kernel

/-- A V1 header with the bad language of B-V2X-L, and B-V2X-L and B-V2X-C. -/
theorem witness_BadLetterBeforeSections :
    (0 < (loaded [0x04 :: v2xBadLanguage.tail]).inp.nseg.toNat ∧
      ((loaded [0x04 :: v2xBadLanguage.tail]).inp.span 0 0 6).toNat = 1 ∧
      173 ≤ (loaded [0x04 :: v2xBadLanguage.tail]).inp.cap 0 ∧
      25 < ((loaded [0x04 :: v2xBadLanguage.tail]).inp.span 0 108 6).toNat) ∧
    (((loaded [v2xBadLanguage]).inp.span 0 0 6).toNat = 2 ∧
      213 ≤ (loaded [v2xBadLanguage]).inp.cap 0 ∧
      25 < ((loaded [v2xBadLanguage]).inp.span 0 108 6).toNat) ∧
    (((loaded [v2xBadCountry]).inp.span 0 0 6).toNat = 2 ∧
      213 ≤ (loaded [v2xBadCountry]).inp.cap 0 ∧
      25 < ((loaded [v2xBadCountry]).inp.span 0 207 6).toNat) := by decide +kernel

/-- V61 and V62: the two orders of B-DISC and B-ALLOW. -/
theorem witness_DifferentSegmentsCommute :
    (loaded [v2, disc, allow]).inp.nseg = 3 ∧
    (loaded [v2, disc, allow]).inp.swapsOptional (loaded [v2, allow, disc]).inp ∧
    (loaded [v2, disc, allow]).inp.bitSum 1 0 3 ≠ (loaded [v2, disc, allow]).inp.bitSum 2 0 3 ∧
    ∃ t, exec .decv2 (loaded [v2, disc, allow]) = .next t ∧ t.status = 0x02 := by
  refine ⟨rfl, ⟨rfl, by decide +kernel, by decide +kernel, by decide +kernel, by decide +kernel,
    by decide +kernel, by decide +kernel⟩, ?_, next_of_status (by decide +kernel)⟩
  rw [← span_toNat, ← span_toNat]
  decide +kernel

/-- The cursor so that the entry ends at the capacity of B-RSA. -/
theorem witness_RangesetEntryPatterns :
    (0#8).toNat < (loaded [rangeA]).inp.nseg.toNat ∧
    47 + 17 ≤ (loaded [rangeA]).inp.cap (0#8).toNat ∧
    31 + 33 ≤ (loaded [rangeA]).inp.cap (0#8).toNat := by decide +kernel

theorem witness_RangesetCountPattern :
    (0#8).toNat < (loaded [rangeA]).inp.nseg.toNat ∧
    [RangeItem.range 3 5, .single 4].length < 4096 ∧
    (loaded [rangeA]).inp.holds (0#8).toNat (0 + 12)
      ([RangeItem.range 3 5, .single 4].flatMap RangeItem.bits) := by decide +kernel

theorem witness_VendorSectionPatterns :
    (0#8).toNat < (loaded [vendorF]).inp.nseg.toNat ∧
    ((bits [0, 1, 0, 0, 0, 1, 0, 1, 0, 0]).length = (10#16).toNat ∧
      (loaded [vendorF]).inp.holds (0#8).toNat (0 + 17) (bits [0, 1, 0, 0, 0, 1, 0, 1, 0, 0])) ∧
    [RangeItem.range 100 102].length < 4096 ∧
    (loaded [vendorH]).inp.holds (0#8).toNat (0 + 17) (rangeSetBits [.range 100 102]) := by
  decide +kernel

theorem witness_V1VendorPatterns :
    (0 < (loaded [v1Bitmap]).inp.nseg.toNat ∧ (flagList 20 [1, 20]).length = (20#16).toNat ∧
      (loaded [v1Bitmap]).inp.holds 0 173 (flagList 20 [1, 20])) ∧
    (0 < (loaded [v1]).inp.nseg.toNat ∧ [RangeItem.single 9].length < 4096 ∧
      (loaded [v1]).inp.holds 0 174 (rangeSetBits [.single 9])) := by decide +kernel

/-- Entry 1 of B-V2X, the cursor at wire bit 362. -/
theorem witness_RestrictionEntryPattern :
    ((0#8).toNat < (loaded [v2x]).inp.nseg.toNat ∧
      (loaded [v2x]).inp.holds (0#8).toNat (362 + 8) ([] ++ rangeSetBits [.range 10 11])) ∧
    (RestrictionData.mk 2 3 [] [.range 10 11]).pad.length = Config.prPad ∧
    (RestrictionData.mk 2 3 [] [.range 10 11]).items.length < 4096 := by decide +kernel

theorem witness_RestrictionTypePatterns :
    (0#8).toNat < (loaded [v2x]).inp.nseg.toNat ∧ 438 + 2 ≤ (loaded [v2x]).inp.cap (0#8).toNat := by
  decide +kernel

theorem witness_SegmentTagPatterns :
    (1#8).toNat < (loaded [v2, disc, allow, ptc]).inp.nseg.toNat ∧
    (3#8).toNat < (loaded [v2, disc, allow, ptc]).inp.nseg.toNat ∧
    (loaded [v2, disc, allow, ptc]).inp.holds (1#8).toNat 3
      (VendorData.bitmap (bits [1, 0, 0, 1, 1])).bits ∧
    (loaded [v2, disc, allow, ptc]).inp.holds (3#8).toNat 3 ptcData.bits := by decide +kernel

theorem witness_InvalidSegmentTagsRaise :
    (1#8).toNat < (loaded [v2, [0x80]]).inp.nseg.toNat ∧
    3 ≤ (loaded [v2, [0x80]]).inp.cap (1#8).toNat := by decide +kernel

/-- The last place of B-V1 where a letter fits. -/
theorem witness_LetterPattern :
    (0#8).toNat < (loaded [v1]).inp.nseg.toNat ∧ 202 + 6 ≤ (loaded [v1]).inp.cap (0#8).toNat ∧
    (25#6).toNat ≤ 25 ∧ 25 < (26#6).toNat := by decide +kernel

end Sys2Proof.Tests
end

/-! PROOFS. The reset state (R54) and the host's writes of the segment lengths (R32). -/

namespace Sys2Proof.Machine

/-! ## The reset state -/

/-- Every segment length is 0 after reset (R54), also of the buffers that no instance has. -/
@[simp] theorem reset_len (k : Nat) : State.reset.inp.len k = 0 := by
  have hlen : State.reset.inp.segLen = Vector.replicate 256 0 := rfl
  by_cases hk : k < 256 <;> simp [Input.len, hlen, hk]

/-- Settles O8. In the order of R54's list: a number or a letter code evaluates to its reset value, a set has no
member because it is the empty set, and the restriction table is empty, so that each entry is the default one. -/
theorem resetStateIsAllZero : Obligations.ResetStateIsAllZero := by
  unfold Obligations.ResetStateIsAllZero
  have noId {n : Nat} (i : Nat) : (IdSet.empty : IdSet n).mem i = false := IdSet.mem_empty
  have entries (i : Nat) : (State.reset.res.prAt i).purposeId = 0 ∧
      (State.reset.res.prAt i).rtype = 0 ∧ ∀ j, (State.reset.res.prAt i).vendors.mem j = false :=
    ⟨rfl, rfl, noId⟩
  exact ⟨rfl, reset_len, rfl, rfl, rfl, rfl, rfl, rfl, rfl, noId, rfl, rfl, rfl, rfl, rfl,
    rfl, rfl, rfl, rfl, rfl, rfl, rfl, rfl, noId, rfl, noId, rfl, rfl, rfl, noId, noId, rfl, rfl,
    noId, noId, noId, noId, noId, noId, noId, noId, rfl, rfl, entries⟩

/-! ## Writes of `SEGLEN` -/

/-- A write to a register that an idle block has takes effect (R52, R91). -/
theorem hostWrite_idle {s : State} (hb : s.busy = false) (result : Host.Outcome State Fault Refusal) :
    s.hostWrite true result = result := by
  simp [State.hostWrite, hb]

/-- The queue of host accesses has no part in `BUSY` (R35). -/
@[simp] theorem busy_with_host (s : State) (l : List HostAccess) :
    ({ s with host := l } : State).busy = s.busy := rfl

/-- A write of a length that an idle block has takes the queue's head and is `writeSegLen` (R32, R52). -/
theorem step_writeSegLen {s : State} {k : BitVec 8} {v : BitVec 30} {rest : List HostAccess}
    (h : s.host = .writeSegLen k v :: rest) (hb : s.busy = false) (hk : k.toNat < Config.maxSegs) :
    step s = .next (State.writeSegLen { s with host := rest } k v) := by
  have hex : segExists k = true := by simpa [segExists] using hk
  rw [step_access h, State.hostAccess, hex, hostWrite_idle (by simpa using hb)]

/-- The length that was written reads back (R32). -/
theorem len_set_same (inp : Input) (k : BitVec 8) (v : BitVec 30) :
    ({ inp with segLen := inp.segLen.set k.toNat v k.isLt } : Input).len k.toNat = v.toNat := by
  simp [Input.len, k.isLt]

/-- A written length leaves every other length as it was (R32). -/
theorem len_set_ne (inp : Input) (k : BitVec 8) (v : BitVec 30) {k' : Nat} (hne : k' ≠ k.toNat) :
    ({ inp with segLen := inp.segLen.set k.toNat v k.isLt } : Input).len k' = inp.len k' := by
  simp [Input.len, Vector.getElem?_set_ne _ hne.symm]

/-- A length up to `MAX_SEG_BYTES` is stored (R32). -/
theorem writeSegLen_of_le (s : State) (k : BitVec 8) {v : BitVec 30} (hv : v.toNat ≤ Config.maxSegBytes) :
    s.writeSegLen k v = { s with inp := { s.inp with segLen := s.inp.segLen.set k.toNat v k.isLt } } :=
  if_neg (Nat.not_lt.mpr hv)

/-- A length above `MAX_SEG_BYTES` is ignored (R32). -/
theorem writeSegLen_of_gt (s : State) (k : BitVec 8) {v : BitVec 30} (hv : Config.maxSegBytes < v.toNat) :
    s.writeSegLen k v = s :=
  if_pos hv

/-- Settles O9, by the two cases of R32: the value is stored, or the write is ignored. -/
theorem segLenWriteKeepsLegalValues : Obligations.SegLenWriteKeepsLegalValues := by
  unfold Obligations.SegLenWriteKeepsLegalValues
  intro k v s rest h hb hk
  refine ⟨_, step_writeSegLen h hb hk, ?_⟩
  by_cases hv : v.toNat ≤ Config.maxSegBytes
  · rw [writeSegLen_of_le _ _ hv, if_pos hv]
    exact ⟨rfl, len_set_same s.inp k v, fun _ hne => len_set_ne s.inp k v hne⟩
  · rw [writeSegLen_of_gt _ _ (Nat.lt_of_not_le hv), if_neg hv]
    exact ⟨rfl, rfl, fun _ _ => rfl⟩

end Sys2Proof.Machine

/-! PROOFS. The frame of every instruction: the state apart from the results is left as it is (R88). -/

namespace Sys2Proof.Machine

/-! ## What may change -/

/-- `t` is `s` but for `STATUS`, the result registers and the local values of the pseudocode. -/
def OnlyResultsDiffer (s t : State) : Prop :=
  t = { s with status := t.status, res := t.res, loc := t.loc }

/-- A body of pseudocode that gives a state, if it does, changes only results and local values. -/
def Dec.WritesOnlyResults (s : State) (body : Dec State) : Prop :=
  ∀ t, body = .ok t → OnlyResultsDiffer s t

theorem Dec.WritesOnlyResults.ok {s t : State} (h : OnlyResultsDiffer s t) :
    Dec.WritesOnlyResults s (.ok t) := by
  rintro _ ⟨⟩
  exact h

/-- What a body reads or tests before it gives its state writes nothing (R12). -/
theorem Dec.WritesOnlyResults.bind {α : Type} {s : State} {x : Dec α} {f : α → Dec State}
    (h : ∀ a, Dec.WritesOnlyResults s (f a)) : Dec.WritesOnlyResults s (x >>= f) := by
  intro t ht
  obtain ⟨a, -, ha⟩ := Dec.bind_ok.mp ht
  exact h a t ha

/-! ## Commands and wire patterns -/

/-- Each of the three ends of a command (R330 to R332) writes only results; its body gives no state. -/
theorem runCommand_onlyResultsDiffer {s t : State} {legal : Bool} {body : Dec Results}
    (h : s.runCommand legal body = .next t) : OnlyResultsDiffer s t := by
  obtain ⟨-, he⟩ | ⟨r, -, -, he⟩ | ⟨e, -, -, he⟩ | ⟨-, -, he⟩ := runCommand_cases s legal body <;>
    rw [he] at h <;> cases h <;> rfl

/-- A pattern's own step ends in the state of its body, in an error or in a command error. -/
theorem runElement_onlyResultsDiffer {s t : State} {k : BitVec 8} {body : Dec State}
    (hbody : Dec.WritesOnlyResults s body) (h : s.runElement k body = .next t) :
    OnlyResultsDiffer s t := by
  obtain ⟨-, he⟩ | ⟨u, -, hu, he⟩ | ⟨e, -, -, he⟩ | ⟨-, -, he⟩ := runElement_cases s k body <;>
    rw [he] at h <;> cases h
  case inl => rfl
  case inr.inl => exact hbody _ hu
  case inr.inr.inl => rfl

/-- Every instruction is run as a whole command, as the thirteen commands and the two version patterns are, or as
a pattern in a decode in progress, whose body writes only results and local values. -/
theorem exec_runCommand_or_runElement (i : Instr) (s : State) :
    (∃ legal body, exec i s = s.runCommand legal body) ∨
    ∃ k body, exec i s = s.runElement k body ∧ Dec.WritesOnlyResults s body := by
  cases i with
  | clr => exact .inl ⟨true, .ok {}, rfl⟩
  | reqb | rdb | rdf | rda | rdfs | rdrs | rdvs | rdpr | rdseg | decv1 | decv2 | dec
  | wireVersionV1 | wireVersionV2 => exact .inl ⟨_, _, rfl⟩
  | wireRangesetSingle | wireRangesetRange
  | wireRtypeNotallowed | wireRtypeRequireconsent | wireRtypeRequireli | wireRtypeUndefined =>
    exact .inr ⟨_, _, rfl, .bind fun _ => .ok rfl⟩
  | wireRangesetCount | wireVendorsecBitmap | wireVendorsecRange | wireV1VendorsBitmap
  | wireV1VendorsRange | wirePubrestrEntry
  | wireSegtagDisclosed | wireSegtagAllowed | wireSegtagPublishertc
  | wireSegtagInvalid000 | wireSegtagInvalid100 | wireSegtagInvalid101 | wireSegtagInvalid110
  | wireSegtagInvalid111 | wireLetter =>
    exact .inr ⟨_, _, rfl, .bind fun _ => .bind fun _ => .ok rfl⟩

/-- Settles O23: a command's ends write only results (R329 to R332), and so does the body of every pattern. -/
theorem instructionsWriteOnlyResults : Obligations.InstructionsWriteOnlyResults := by
  unfold Obligations.InstructionsWriteOnlyResults
  intro i s t h
  obtain ⟨legal, body, he⟩ | ⟨k, body, he, hbody⟩ := exec_runCommand_or_runElement i s
  · exact runCommand_onlyResultsDiffer (he.symm.trans h)
  · exact runElement_onlyResultsDiffer hbody (he.symm.trans h)

end Sys2Proof.Machine

/-! PROOFS. The illegal command words (R120, R121): the fields of a word as numbers, the tests that a word which
decodes has passed, the tests that are left, and the command error (R332) that issuing an illegal word is. -/

namespace Sys2Proof.Machine

/-! ## The fields of a word as numbers (R111) -/

theorem extractLsb'_toNat_div {n : Nat} (x : BitVec n) (start len : Nat) :
    (x.extractLsb' start len).toNat = x.toNat / 2 ^ start % 2 ^ len := by
  rw [BitVec.extractLsb'_toNat, Nat.shiftRight_eq_div_pow]

theorem fieldOp_toNat (w : Word64) : (fieldOp w).toNat = w.toNat / 2 ^ 56 := by
  rw [fieldOp, extractLsb'_toNat_div]
  omega

theorem fieldSeg_toNat (w : Word64) : (fieldSeg w).toNat = w.toNat / 2 ^ 48 % 2 ^ 8 :=
  extractLsb'_toNat_div w 48 8

theorem fieldAux_toNat (w : Word64) : (fieldAux w).toNat = w.toNat / 2 ^ 32 % 2 ^ 16 :=
  extractLsb'_toNat_div w 32 16

theorem fieldStart_toNat (w : Word64) : (fieldStart w).toNat = w.toNat % 2 ^ 32 := by
  rw [fieldStart, extractLsb'_toNat_div, pow_zero, Nat.div_one]

/-! ## The tests of the decoder (R120 items 1 and 2) -/

/-- A word with a reserved operation code does not decode (R121). -/
theorem decodeWord_of_formatOf_none {w : Word64} (h : formatOf (fieldOp w).toNat = none) :
    decodeWord w = .error (.reservedOp (fieldOp w)) := by
  unfold decodeWord
  split
  case h_14 => rfl
  all_goals
    rename_i hop
    rw [hop] at h
    cases h

theorem zeroChecked_eq_ok {w : Word64} {z : Bool} {i j : Instr} :
    zeroChecked w z i = .ok j ↔ z = true ∧ i = j := by
  cases z <;> simp [zeroChecked]

/-- A word of format Z decodes when its three other fields are zero (R113). -/
theorem decodeZ_eq_ok {w : Word64} {i j : Instr} :
    decodeZ w i = .ok j ↔ (fieldSeg w = 0 ∧ fieldAux w = 0 ∧ fieldStart w = 0) ∧ i = j := by
  simp [decodeZ, zeroChecked_eq_ok, and_assoc]

/-- A word of format B or S decodes when its `aux` is zero (R114, R118). -/
theorem decodeAuxZero_eq_ok {w : Word64} {i j : Instr} :
    decodeAuxZero w i = .ok j ↔ fieldAux w = 0 ∧ i = j := by
  simp [decodeAuxZero, zeroChecked_eq_ok]

/-- A word of format F decodes when bits 15:10 and 7 of its `aux` are zero (R116). -/
theorem decodeF_eq_ok {w : Word64} {j : Instr} :
    decodeF w = .ok j ↔
      ((fieldAux w).toNat / 2 ^ 10 = 0 ∧ (fieldAux w).toNat / 2 ^ 7 % 2 = 0) ∧
        .rdf (fieldSeg w) (fieldStart w) ((fieldAux w).extractLsb' 0 7)
          ((fieldAux w).extractLsb' 8 2) = j := by
  have haux := (fieldAux w).isLt
  have hhigh : (fieldAux w).extractLsb' 10 6 = 0 ↔ (fieldAux w).toNat / 2 ^ 10 = 0 := by
    rw [← BitVec.toNat_inj, extractLsb'_toNat_div, Nat.mod_eq_of_lt (by omega)]
    rfl
  have hbit : (fieldAux w).extractLsb' 7 1 = 0 ↔ (fieldAux w).toNat / 2 ^ 7 % 2 = 0 := by
    rw [← BitVec.toNat_inj, extractLsb'_toNat_div]
    rfl
  rw [decodeF, zeroChecked_eq_ok, Bool.and_eq_true, beq_iff_eq, beq_iff_eq, hhigh, hbit]

/-- A word of format G decodes when its `aux` and `start` are zero (R119). -/
theorem decodeG_eq_ok {w : Word64} {i j : Instr} :
    decodeG w i = .ok j ↔ (fieldAux w = 0 ∧ fieldStart w = 0) ∧ i = j := by
  simp [decodeG, zeroChecked_eq_ok]

/-! ## The tests on the operands (R120 items 3 to 5) -/

theorem segLoaded_eq_false {inp : Input} {seg : BitVec 8} :
    segLoaded inp seg = false ↔ inp.nseg.toNat ≤ seg.toNat := by
  simp [segLoaded]

theorem anyLoaded_eq_false {inp : Input} : anyLoaded inp = false ↔ inp.nseg.toNat = 0 := by
  simp [anyLoaded]

theorem rdbLimits_eq_false {len : BitVec 16} : rdbLimits len = false ↔ 64 < len.toNat := by
  simp [rdbLimits]

theorem rdfLimits_eq_false {len : BitVec 7} {ty : BitVec 2} :
    rdfLimits len ty = false ↔ 64 < len.toNat ∨ 8 * 2 ^ ty.toNat < len.toNat := by
  rw [rdfLimits, Bool.and_eq_false_iff, decide_eq_false_iff_not, decide_eq_false_iff_not, not_le, not_le]

theorem rdaLimits_eq_false {cnt w : BitVec 8} :
    rdaLimits cnt w = false ↔ 8 < cnt.toNat ∨ w.toNat = 0 ∨ 64 < w.toNat := by
  rw [rdaLimits, Bool.and_eq_false_iff, Bool.and_eq_false_iff, decide_eq_false_iff_not,
    decide_eq_false_iff_not, decide_eq_false_iff_not, or_assoc, not_le, not_le, not_le, Nat.lt_one_iff]

/-- What a command tests of its operands before it starts; a wire pattern is no command and tests nothing here. -/
def commandLegal (inp : Input) : Instr → Bool
  | .reqb seg _ | .rdfs seg _ _ | .rdrs seg _ | .rdvs seg _ | .rdpr seg _ | .rdseg seg =>
    segLoaded inp seg
  | .rdb seg _ len => rdbLimits len && segLoaded inp seg
  | .rdf seg _ len ty => rdfLimits len ty && segLoaded inp seg
  | .rda seg _ cnt w => rdaLimits cnt w && segLoaded inp seg
  | .decv1 | .decv2 | .dec => anyLoaded inp
  | _ => true

/-- A command whose operands break a test is rejected (R332). -/
theorem exec_of_commandLegal_eq_false {i : Instr} {s : State} (h : commandLegal s.inp i = false) :
    exec i s = .next (afterReject s) := by
  cases i with
  | reqb | rdb | rdf | rda | rdfs | rdrs | rdvs | rdpr | rdseg | decv1 | decv2 | dec =>
    exact runCommand_illegal h
  | _ => cases h

/-- An illegal word that decodes has passed the tests of the decoder, so it breaks a test on its operands. -/
theorem commandLegal_eq_false_of_illegalWord {w : Word64} {inp : Input} {i : Instr}
    (hd : decodeWord w = .ok i) (h : illegalWord inp.nseg.toNat w.toNat) :
    commandLegal inp i = false := by
  unfold illegalWord at h
  rw [← fieldOp_toNat, ← fieldSeg_toNat, ← fieldAux_toNat, ← fieldStart_toNat] at h
  unfold decodeWord at hd
  split at hd
  -- CLR
  case h_1 hop =>
    obtain ⟨⟨hseg, haux, hstart⟩, -⟩ := decodeZ_eq_ok.mp hd
    rw [hop, hseg, haux, hstart] at h
    obtain h | h | h | ⟨h, -⟩ := h <;> exact absurd rfl h
  -- REQB, RDRS, RDVS and RDPR
  case h_2 hop | h_7 hop | h_8 hop | h_9 hop =>
    obtain ⟨haux, rfl⟩ := decodeAuxZero_eq_ok.mp hd
    rw [hop, haux] at h
    obtain h | hseg := h
    · exact absurd rfl h
    · exact segLoaded_eq_false.mpr hseg
  -- RDB
  case h_3 hop =>
    cases hd
    rw [hop] at h
    obtain ⟨-, hlen⟩ | hseg := h
    · exact Bool.and_eq_false_iff.mpr (.inl (rdbLimits_eq_false.mpr hlen))
    · exact Bool.and_eq_false_iff.mpr (.inr (segLoaded_eq_false.mpr hseg))
  -- RDF
  case h_4 hop =>
    obtain ⟨⟨hhigh, hbit⟩, rfl⟩ := decodeF_eq_ok.mp hd
    rw [hop] at h
    refine Bool.and_eq_false_iff.mpr ?_
    rw [rdfLimits_eq_false, segLoaded_eq_false, extractLsb'_toNat_div, extractLsb'_toNat_div, pow_zero,
      Nat.div_one]
    obtain h | h | hlen | hty | hseg := h
    · exact absurd hhigh h
    · exact absurd hbit h
    · exact .inl (.inl hlen)
    · exact .inl (.inr hty)
    · exact .inr hseg
  -- RDA
  case h_5 hop =>
    cases hd
    rw [hop] at h
    refine Bool.and_eq_false_iff.mpr ?_
    rw [rdaLimits_eq_false, segLoaded_eq_false, extractLsb'_toNat_div, extractLsb'_toNat_div, pow_zero,
      Nat.div_one, Nat.mod_eq_of_lt (a := _ / 2 ^ 8) (by omega), or_assoc, or_assoc]
    exact h
  -- RDFS
  case h_6 hop =>
    cases hd
    rw [hop] at h
    obtain ⟨h, -⟩ | hseg := h
    · cases h
    · exact segLoaded_eq_false.mpr hseg
  -- RDSEG
  case h_10 hop =>
    obtain ⟨⟨haux, hstart⟩, rfl⟩ := decodeG_eq_ok.mp hd
    rw [hop, haux, hstart] at h
    obtain h | h | hseg := h
    · exact absurd rfl h
    · exact absurd rfl h
    · exact segLoaded_eq_false.mpr hseg
  -- DECV1, DECV2 and DEC
  case h_11 hop | h_12 hop | h_13 hop =>
    obtain ⟨⟨hseg, haux, hstart⟩, rfl⟩ := decodeZ_eq_ok.mp hd
    rw [hop, hseg, haux, hstart] at h
    obtain h | h | h | ⟨-, hnone⟩ := h
    · exact absurd rfl h
    · exact absurd rfl h
    · exact absurd rfl h
    · exact anyLoaded_eq_false.mpr hnone
  -- a reserved code
  case h_14 => cases hd

/-! ## The issue of a word (R34) -/

/-- The issue of a word that does not decode is a command error (R332). -/
theorem step_of_decodeWord_error {s : State} {w : Word64} {rest : List HostAccess} {e : Illegal}
    (h : s.host = .writeCmd w :: rest) (hb : s.busy = false) (hd : decodeWord w = .error e) :
    step s = .next (afterReject { s with host := rest, cmd := w }) := by
  rw [step_command h hb]
  simp only [State.runCmd, hd, reject_eq]

/-- The issue of a word that decodes runs its command. -/
theorem step_of_decodeWord_ok {s : State} {w : Word64} {rest : List HostAccess} {i : Instr}
    (h : s.host = .writeCmd w :: rest) (hb : s.busy = false) (hd : decodeWord w = .ok i) :
    step s = exec i { s with host := rest, cmd := w } := by
  rw [step_command h hb]
  simp only [State.runCmd, hd]

/-- Settles O4: no row of the table has the code, so the word does not decode, and issuing it is a command error. -/
theorem reservedOpsAreIllegal : Obligations.ReservedOpsAreIllegal := by
  unfold Obligations.ReservedOpsAreIllegal
  intro w s rest hop hb hs
  have hd : decodeWord w = .error (.reservedOp (fieldOp w)) :=
    decodeWord_of_formatOf_none (by rwa [fieldOp_toNat])
  exact ⟨hd, step_of_decodeWord_error hs hb hd⟩

/-- Settles O5: an illegal word either does not decode, or decodes to a command that its operand tests reject. -/
theorem illegalWordsAreRejected : Obligations.IllegalWordsAreRejected := by
  unfold Obligations.IllegalWordsAreRejected
  intro w s rest h hb hs
  cases hd : decodeWord w with
  | error e => exact step_of_decodeWord_error hs hb hd
  | ok i =>
    rw [step_of_decodeWord_ok hs hb hd]
    exact exec_of_commandLegal_eq_false (commandLegal_eq_false_of_illegalWord hd h)

end Sys2Proof.Machine

/-! PROOFS. The Boundary Checker: `require` on the two sides of the capacity (R172). -/

namespace Sys2Proof.Machine

/-- The capacity of a buffer is eight bits for each byte of its `SEGLEN` (R10). -/
theorem Input.cap_eq_eight_mul_len (inp : Input) (k : Nat) : inp.cap k = 8 * inp.len k := rfl

/-- Settles O30, by the two ends of `require` on the two sides of the capacity (R172). -/
theorem requirePassesWithinCapacity : Obligations.RequirePassesWithinCapacity := by
  unfold Obligations.RequirePassesWithinCapacity
  intro inp k n
  rw [← inp.cap_eq_eight_mul_len k]
  exact ⟨require_pass, require_fail⟩

end Sys2Proof.Machine

/-! PROOFS. The version field comes first: the version tests of DECV1, DECV2 and DEC (R261, R281, R308, R323). -/

namespace Sys2Proof.Machine

/-! ## What follows the version field -/

/-- Nothing that follows the version field is reached in a core that is too short for it (R265, R340 item 2). -/
theorem versionField_bind_of_short {α : Type} {inp : Input} (h : inp.cap 0 < 6) (f : BitVec 6 → Dec α) :
    (versionField inp >>= f) = .error (.raised .insufficientLength) := by
  rcases versionField_cases inp with ⟨hcap, -⟩ | ⟨-, hv⟩
  · omega
  · rw [hv, Dec.error_bind]

/-- What follows the version field gets the first six wire bits of the core (R131). -/
theorem versionField_bind_of_fits {α : Type} {inp : Input} (h : 6 ≤ inp.cap 0) (f : BitVec 6 → Dec α) :
    (versionField inp >>= f) = f (inp.span 0 0 6) := by
  rcases versionField_cases inp with ⟨-, hv⟩ | ⟨hcap, -⟩
  · rw [hv, Dec.ok_bind]
  · omega

/-- A field whose defining sum is not the number of `v` is not `v` (R171). -/
theorem span_ne_of_bitSum_ne {inp : Input} {k s n : Nat} {v : BitVec n} (h : inp.bitSum k s n ≠ v.toNat) :
    inp.span k s n ≠ v :=
  fun hv => h (by rw [← span_toNat, hv])

/-! ## The bodies on a version that they do not accept (R323) -/

theorem decv1Body_of_version_ne {inp : Input} (h : 6 ≤ inp.cap 0) (h1 : inp.bitSum 0 0 6 ≠ 1) :
    decv1Body inp = .error (.raised .unsupportedVersion) := by
  rw [decv1Body, versionField_bind_of_fits h, if_neg (span_ne_of_bitSum_ne h1), raise]

theorem decv2Body_of_version_ne {inp : Input} (h : 6 ≤ inp.cap 0) (h2 : inp.bitSum 0 0 6 ≠ 2) :
    decv2Body inp = .error (.raised .unsupportedVersion) := by
  rw [decv2Body, versionField_bind_of_fits h, if_neg (span_ne_of_bitSum_ne h2), raise]

theorem decBody_of_version_ne {inp : Input} (h : 6 ≤ inp.cap 0) (h1 : inp.bitSum 0 0 6 ≠ 1)
    (h2 : inp.bitSum 0 0 6 ≠ 2) : decBody inp = .error (.raised .unsupportedVersion) := by
  rw [decBody, versionField_bind_of_fits h, if_neg (span_ne_of_bitSum_ne h1),
    if_neg (span_ne_of_bitSum_ne h2), raise]

/-- With too few bits for the version field all three record decoders fail alike: each reads it first. -/
theorem exec_recordDecoder_of_short {s : State} (hl : anyLoaded s.inp = true) (h : s.inp.cap 0 < 6)
    {i : Instr} (hi : i ∈ [Instr.decv1, .decv2, .dec]) : exec i s = .next (afterError s 1) := by
  simp only [List.mem_cons, List.not_mem_nil, or_false] at hi
  rcases hi with rfl | rfl | rfl <;>
    exact runCommand_error (e := .insufficientLength) hl (versionField_bind_of_short h _)

/-- Settles O46. A loaded buffer makes the three commands legal; each body then starts with the version field, so it
ends there when the field does not fit, and at its version test when the field is of no version that it accepts. -/
theorem versionIsTestedFirst : Obligations.VersionIsTestedFirst := by
  unfold Obligations.VersionIsTestedFirst
  intro s hs
  have hl : anyLoaded s.inp = true := decide_eq_true hs
  refine ⟨fun hcap _ hi => exec_recordDecoder_of_short hl hcap hi, fun hcap h1 => ?_,
    fun hcap h2 => ?_, fun hcap h1 h2 => ?_⟩
  · exact runCommand_error (e := .unsupportedVersion) hl (decv1Body_of_version_ne hcap h1)
  · exact runCommand_error (e := .unsupportedVersion) hl (decv2Body_of_version_ne hcap h2)
  · exact runCommand_error (e := .unsupportedVersion) hl (decBody_of_version_ne hcap h1 h2)

end Sys2Proof.Machine

/-! PROOFS. The encodings (R110 to R122, R131 to R148): the decoder and the encoder of command words are inverse to
each other, and every wire pattern is read back in its place. -/

namespace Sys2Proof

/-! ## Command words -/

/-- The low field of two fields put together. -/
theorem extractLsb'_append_low {m n : Nat} (x : BitVec m) (y : BitVec n) :
    (x ++ y).extractLsb' 0 n = y := by
  rw [BitVec.extractLsb'_append_eq_of_add_le (by omega), BitVec.extractLsb'_eq_self]

/-- The high field of two fields put together. -/
theorem extractLsb'_append_high {m n : Nat} (x : BitVec m) (y : BitVec n) :
    (x ++ y).extractLsb' n m = x := by
  rw [BitVec.extractLsb'_append_eq_of_le (Nat.le_refl n), Nat.sub_self, BitVec.extractLsb'_eq_self]

/-- The `aux` of format F keeps its two fields apart and zero around them (R116). -/
theorem formatF_fields (ty : BitVec 2) (len : BitVec 7) :
    let aux : BitVec 16 := 0#6 ++ ty ++ 0#1 ++ len
    aux.extractLsb' 10 6 = 0 ∧ aux.extractLsb' 7 1 = 0 ∧
      aux.extractLsb' 0 7 = len ∧ aux.extractLsb' 8 2 = ty := by
  refine ⟨?_, ?_, ?_, ?_⟩ <;> apply BitVec.eq_of_getLsbD_eq <;> intro i hi <;>
    simp only [BitVec.getLsbD_extractLsb', BitVec.getLsbD_append] <;> grind

/-- The word of a command decodes to the command (R112 to R119). -/
theorem decodeWord_of_encodeWord {i : Instr} {w : Word64} (h : encodeWord i = some w) :
    decodeWord w = .ok i := by
  cases i with
  | clr | decv1 | decv2 | dec => cases h; simp [decodeWord, decodeZ, zeroChecked]
  | reqb | rdrs | rdvs | rdpr => cases h; simp [decodeWord, decodeAuxZero, zeroChecked]
  | rdb | rdfs => cases h; simp [decodeWord]
  | rdf seg start len ty =>
    cases h
    obtain ⟨hhigh, hbit, hlen, hty⟩ := formatF_fields ty len
    simp [decodeWord, decodeF, zeroChecked, hhigh, hbit, hlen, hty]
  | rda seg start cnt w =>
    cases h
    simpa [decodeWord, decodeA] using ⟨extractLsb'_append_high cnt w, extractLsb'_append_low cnt w⟩
  | rdseg => cases h; simp [decodeWord, decodeG, zeroChecked]
  | _ => cases h

/-- The `aux` field by the parts that format F reads (R116). -/
theorem aux_by_formatF (x : BitVec 16) :
    x.extractLsb' 10 6 ++ x.extractLsb' 8 2 ++ x.extractLsb' 7 1 ++ x.extractLsb' 0 7 = x := by
  apply BitVec.eq_of_getLsbD_eq
  intro i hi
  simp only [BitVec.getLsbD_append, BitVec.getLsbD_extractLsb']
  grind

/-- The `aux` field by the parts that format A reads (R117). -/
theorem aux_by_formatA (x : BitVec 16) : x.extractLsb' 8 8 ++ x.extractLsb' 0 8 = x := by
  apply BitVec.eq_of_getLsbD_eq
  intro i hi
  simp only [BitVec.getLsbD_append, BitVec.getLsbD_extractLsb']
  grind

open Machine in
/-- What a word decodes to has the four fields of the word in its encoding (R122): those that the format reads are
operands, and the others have passed the must-be-zero test. -/
theorem encodeWord_of_decodeWord {w : Word64} {i : Instr} (h : decodeWord w = .ok i) :
    encodeWord i = some (commandWord (fieldOp w) (fieldSeg w) (fieldAux w) (fieldStart w)) := by
  unfold decodeWord at h
  split at h
  case h_1 hop | h_11 hop | h_12 hop | h_13 hop =>
    obtain ⟨⟨hseg, haux, hstart⟩, rfl⟩ := decodeZ_eq_ok.mp h
    rw [hop, hseg, haux, hstart]
    rfl
  case h_2 hop | h_7 hop | h_8 hop | h_9 hop =>
    obtain ⟨haux, rfl⟩ := decodeAuxZero_eq_ok.mp h
    rw [hop, haux]
    rfl
  case h_3 hop | h_6 hop =>
    cases h
    rw [hop]
    rfl
  case h_4 hop =>
    obtain ⟨hzero, rfl⟩ := zeroChecked_eq_ok.mp h
    rw [Bool.and_eq_true, beq_iff_eq, beq_iff_eq] at hzero
    have haux := aux_by_formatF (fieldAux w)
    rw [hzero.1, hzero.2] at haux
    rw [hop]
    exact congrArg (fun aux => some (commandWord 0x12 (fieldSeg w) aux (fieldStart w))) haux
  case h_5 hop =>
    cases h
    rw [hop]
    exact congrArg (fun aux => some (commandWord 0x13 (fieldSeg w) aux (fieldStart w)))
      (aux_by_formatA (fieldAux w))
  case h_10 hop =>
    obtain ⟨⟨haux, hstart⟩, rfl⟩ := decodeG_eq_ok.mp h
    rw [hop, haux, hstart]
    rfl
  case h_14 => cases h

/-! ## The rows of the opcode table -/

/-- A row with a command word is read where a command stands. -/
theorem kind_of_encodeWord {i : Instr} {w : Word64} (h : encodeWord i = some w) : i.kind = .command := by
  cases i with
  | clr | reqb | rdb | rdf | rda | rdfs | rdrs | rdvs | rdpr | rdseg | decv1 | decv2 | dec => rfl
  | _ => cases h

/-- A command is read back from its word and leaves the bits after it. -/
theorem decode_encode_command {i : Instr} {w : Word64} (h : encodeWord i = some w) (rest : List Bool) :
    decode i.kind (encode i ++ rest) = .ok (i, rest) := by
  simp [kind_of_encodeWord h, encode, h, decode, decodeWord_of_encodeWord h, Except.map]

/-- A wire pattern is read back from its bits and leaves the bits after it: its fields are taken off one by one, and
its tag bits select its row (R131 to R147). -/
theorem decode_encode_wire {i : Instr} (h : encodeWord i = none) (rest : List Bool) :
    decode i.kind (encodeWire i ++ rest) = .ok (i, rest) := by
  cases i with
  | clr | reqb | rdb | rdf | rda | rdfs | rdrs | rdvs | rdpr | rdseg | decv1 | decv2 | dec => cases h
  | wireVersionV1 | wireVersionV2 =>
    simp [decode, Instr.kind, encodeWire, decodeVersion, Except.map]
  | wireRangesetSingle | wireRangesetRange | wireRangesetCount
  | wireVendorsecBitmap | wireVendorsecRange | wireV1VendorsBitmap | wireV1VendorsRange
  | wirePubrestrEntry | wireLetter => simp [decode, Instr.kind, encodeWire]
  | wireRtypeNotallowed | wireRtypeRequireconsent | wireRtypeRequireli | wireRtypeUndefined =>
    simp [decode, Instr.kind, encodeWire, decodeRtype]
  | wireSegtagDisclosed | wireSegtagAllowed | wireSegtagPublishertc | wireSegtagInvalid000
  | wireSegtagInvalid100 | wireSegtagInvalid101 | wireSegtagInvalid110 | wireSegtagInvalid111 =>
    simp [decode, Instr.kind, encodeWire, decodeSegtag]

/-- Settles O1: a row is a command, read back from its word, or a wire pattern, read back from its bits. -/
theorem decodeInvertsEncode : Obligations.DecodeInvertsEncode := by
  unfold Obligations.DecodeInvertsEncode
  intro i rest
  cases hw : encodeWord i with
  | some w => exact decode_encode_command hw rest
  | none =>
    rw [encode, hw]
    exact decode_encode_wire hw rest

/-- Settles O2: what a word decodes to is encoded with the four fields of the word, which make up the word. -/
theorem commandWordHasOneMeaning : Obligations.CommandWordHasOneMeaning := by
  unfold Obligations.CommandWordHasOneMeaning
  intro w i h
  rw [encodeWord_of_decodeWord h, commandWord_fields]

/-- Settles O3: each word is the encoding of the command that it stands for. -/
theorem sampleWordsDecode : Obligations.SampleWordsDecode := by
  unfold Obligations.SampleWordsDecode
  refine ⟨?_, ?_, ?_, ?_, ?_, ?_, ?_, ?_, ?_, ?_, ?_⟩ <;> exact decodeWord_of_encodeWord (by decide)

end Sys2Proof

/-! PROOFS. The Bit Reader (R171 to R174): its defining sum, how reads of different widths over the same bits agree
(R84), and the byte-wise procedure of R173. -/

namespace Sys2Proof.Machine

/-! ## The defining sum (R171) -/

theorem bitSum_lt (inp : Input) (k s n : Nat) : inp.bitSum k s n < 2 ^ n := by
  rw [← span_toNat]
  exact (inp.span k s n).isLt

/-- What `read_bits` answers is the span, and its precondition holds (R171, R174). -/
theorem readBits_eq_ok {inp : Input} {k s n : Nat} {v : BitVec n} :
    readBits inp k s n = .ok v ↔ (n ≤ 64 ∧ s + n ≤ inp.cap k) ∧ inp.span k s n = v := by
  rw [readBits, show Config.readMax = 64 from rfl]
  split
  · next h => simpa using fun _ => h
  · next h => simpa using fun h1 h2 => absurd ⟨h1, h2⟩ h

/-- Settles O29, by the two branches of `read_bits`. -/
theorem readBitsIsItsSum : Obligations.ReadBitsIsItsSum := by
  unfold Obligations.ReadBitsIsItsSum
  intro inp k s n
  constructor
  · rintro ⟨hn, hcap⟩
    exact ⟨inp.span k s n, readBits_pass hn hcap, span_toNat inp k s n, (inp.span k s n).isLt⟩
  · exact fun h => if_neg h

/-- The sum over a span is the sums over its two parts, the first moved up by the width of the second (R84). -/
theorem bitSum_add (inp : Input) (k s a c : Nat) :
    inp.bitSum k s (a + c) = inp.bitSum k s a * 2 ^ c + inp.bitSum k (s + a) c := by
  unfold Input.bitSum
  rw [Finset.sum_range_add, Finset.sum_mul]
  congr 1
  · refine Finset.sum_congr rfl fun i hi => ?_
    have hi := Finset.mem_range.mp hi
    rw [Nat.mul_assoc, ← pow_add, show a - 1 - i + c = a + c - 1 - i by omega]
  · refine Finset.sum_congr rfl fun i hi => ?_
    have hi := Finset.mem_range.mp hi
    rw [Nat.add_assoc, show a + c - 1 - (a + i) = c - 1 - i by omega]

/-- Settles O31: both parts of a span within the capacity are, and the sum over the span splits. -/
theorem readBitsSplits : Obligations.ReadBitsSplits := by
  unfold Obligations.ReadBitsSplits
  intro inp k s a c v h
  obtain ⟨⟨hn, hcap⟩, rfl⟩ := readBits_eq_ok.mp h
  refine ⟨_, _, readBits_eq_ok.mpr ⟨⟨by omega, by omega⟩, rfl⟩,
    readBits_eq_ok.mpr ⟨⟨by omega, by omega⟩, rfl⟩, ?_⟩
  rw [span_toNat, span_toNat, span_toNat, bitSum_add]

/-! ## The byte-wise procedure (R173) -/

/-- A byte is the sum over its eight wire bits (R82). -/
theorem byte_toNat (inp : Input) (k j : Nat) : (inp.byte k j).toNat = inp.bitSum k (8 * j) 8 := by
  rw [← span_toNat]
  congr 1
  refine (span_eq fun i hi => ?_).symm
  rw [Input.wireBit, show (8 * j + i) / 8 = j by omega, show (8 * j + i) % 8 = i by omega]

/-- The leading `a` bits of a byte are left when the others are shifted out. -/
theorem byte_shiftRight (inp : Input) (k j : Nat) {a t : Nat} (h : a + t = 8) :
    (inp.byte k j).toNat >>> t = inp.bitSum k (8 * j) a := by
  rw [byte_toNat, ← h, bitSum_add, Nat.shiftRight_eq_div_pow, Nat.mul_comm,
    Nat.mul_add_div (Nat.two_pow_pos t), Nat.div_eq_of_lt (bitSum_lt ..), Nat.add_zero]

/-- The trailing `c` bits of a span are left when the others are masked out. -/
theorem bitSum_mask (inp : Input) (k s a c : Nat) :
    inp.bitSum k s (a + c) &&& (2 ^ c - 1) = inp.bitSum k (s + a) c := by
  rw [Nat.and_two_pow_sub_one_eq_mod, bitSum_add, Nat.mul_comm, Nat.mul_add_mod,
    Nat.mod_eq_of_lt (bitSum_lt ..)]

/-- Shifting whole interior bytes in behind the first byte's bits goes on with the sum. -/
theorem interiorBytes_eq (inp : Input) (k s f a m : Nat) (h : s + a = 8 * (f + 1)) :
    inp.interiorBytes k f m (inp.bitSum k s a) = inp.bitSum k s (a + 8 * m) := by
  induction m with
  | zero => rfl
  | succ m ih =>
    rw [Input.interiorBytes, ih, byte_toNat, show a + 8 * (m + 1) = a + 8 * m + 8 by omega,
      bitSum_add inp k s (a + 8 * m) 8, show s + (a + 8 * m) = 8 * (f + m + 1) by omega,
      show 2 ^ 8 = 256 from rfl]

/-- The byte-wise procedure computes the defining sum, within one byte and over several (R173). -/
theorem bytewise_eq_bitSum (inp : Input) (k s n : Nat) : inp.bytewise k s n = inp.bitSum k s n := by
  unfold Input.bytewise
  dsimp only
  split
  · next h0 => subst h0; rfl
  · next h0 =>
    split
    · next hone =>
      rw [byte_shiftRight inp k (s / 8) (a := s % 8 + n) (by omega), bitSum_mask,
        show 8 * (s / 8) + s % 8 = s by omega]
    · next hmany =>
      have hfirst : (inp.byte k (s / 8)).toNat &&& (2 ^ (8 - s % 8) - 1) =
          inp.bitSum k s (8 - s % 8) := by
        rw [byte_toNat, show inp.bitSum k (8 * (s / 8)) 8 =
          inp.bitSum k (8 * (s / 8)) (s % 8 + (8 - s % 8)) by congr 1; omega, bitSum_mask]
        congr 1
        omega
      have hlast : s + (8 - s % 8 + 8 * ((s + n - 1) / 8 - s / 8 - 1)) = 8 * ((s + n - 1) / 8) := by
        omega
      rw [hfirst, interiorBytes_eq inp k s _ _ _ (by omega),
        byte_shiftRight inp k _ (a := 8 - (7 - (s + n - 1) % 8)) (by omega), ← hlast, ← bitSum_add]
      congr 1
      omega

/-- Settles O32: both readers give the defining sum. -/
theorem bytewiseReaderAgrees : Obligations.BytewiseReaderAgrees := by
  unfold Obligations.BytewiseReaderAgrees
  intro inp k s n v h
  obtain ⟨-, rfl⟩ := readBits_eq_ok.mp h
  rw [bytewise_eq_bitSum, span_toNat]

end Sys2Proof.Machine

/-! PROOFS. The host's accesses (R52): writes of the input state, writes that are ignored or refused, the reset input,
and reads of every register. -/

namespace Sys2Proof.Machine

/-! ## Writes -/

/-- Settles O7: the word in `CMD` is decoded and its command is run (R34). -/
theorem stepRunsDecodedCommand : Obligations.StepRunsDecodedCommand := by
  unfold Obligations.StepRunsDecodedCommand
  exact fun _ _ _ _ h hb hd => step_of_decodeWord_ok h hb hd

/-- Settles O10, by the two cases of R33: the count is stored, or the write is ignored. -/
theorem nsegWriteKeepsLegalValues : Obligations.NsegWriteKeepsLegalValues := by
  unfold Obligations.NsegWriteKeepsLegalValues
  intro v s rest h hb
  rw [step_access h, State.hostAccess, hostWrite_idle (by simpa using hb), State.writeNseg]
  by_cases hv : v.toNat ≤ Config.maxSegs
  · rw [if_pos hv, if_neg (Nat.not_lt.mpr hv)]
  · rw [if_neg hv, if_pos (Nat.lt_of_not_le hv)]

/-- A byte of `SEG` after a write of a byte: the written one, or the one before (R31). -/
theorem writeSeg_byte {s : State} {k : BitVec 8} {j : BitVec 29} {b : Byte} {k' j' : Nat}
    (hwf : Memory.wf s.inp.epoch s.inp.mem) (hj : j' < 2 ^ 29) :
    (s.writeSeg k j b).inp.byte k' j' =
      if k' = k.toNat ∧ j' = j.toNat then b else s.inp.byte k' j' := by
  have haddr : byteAddress k' j' = byteAddress k.toNat j.toNat ↔ k' = k.toNat ∧ j' = j.toNat :=
    ⟨byteAddress_inj hj j.isLt, fun ⟨hk, hj⟩ => by rw [hk, hj]⟩
  simp only [Input.byte, State.writeSeg, Memory.read_write _ _ hwf, haddr]

/-- Settles O11: the write puts the byte into its own cell, and no two bytes share a cell. -/
theorem segWriteChangesOneByte : Obligations.SegWriteChangesOneByte := by
  unfold Obligations.SegWriteChangesOneByte
  intro k j b s rest h hb hk hj hwf
  have hex : byteExists k j = true := by simp [byteExists, segExists, hk, hj]
  refine ⟨State.writeSeg { s with host := rest } k j b, ?_, rfl, ?_, fun k' j' hj' hne => ?_⟩
  · rw [step_access h, State.hostAccess, hex, hostWrite_idle (by simpa using hb)]
  · exact (writeSeg_byte hwf j.isLt).trans (if_pos ⟨rfl, rfl⟩)
  · exact (writeSeg_byte hwf hj').trans (if_neg (by tauto))

/-- Settles O12: both writes to a read-only register are ignored (R52). -/
theorem readOnlyWritesAreIgnored : Obligations.ReadOnlyWritesAreIgnored := by
  unfold Obligations.ReadOnlyWritesAreIgnored
  rintro a s rest h (⟨v, rfl⟩ | ⟨r, v, rfl, hr⟩)
  · rw [step_access h, State.hostAccess]
  · rw [step_access h, State.hostAccess, if_pos hr]

/-- A write while a command executes is refused, whatever it would do (R91). -/
theorem hostWrite_busy {s : State} (hb : s.busy = true) (present : Bool)
    (result : Host.Outcome State Fault Refusal) :
    s.hostWrite present result = .refused .hostWriteWhileBusy :=
  if_pos hb

/-- Settles O18: each of the four writes goes through the same test of `BUSY`. -/
theorem writesWhileBusyAreRefused : Obligations.WritesWhileBusyAreRefused := by
  unfold Obligations.WritesWhileBusyAreRefused
  rintro a s rest h hb (⟨k, j, b, rfl⟩ | ⟨k, v, rfl⟩ | ⟨v, rfl⟩ | ⟨w, rfl⟩) <;>
    rw [step_access h, State.hostAccess, hostWrite_busy (by simpa using hb)]

/-- Settles O17: the pulse puts every register at its reset value and keeps the queue of accesses (R360, R361). -/
theorem resetInputResets : Obligations.ResetInputResets := by
  unfold Obligations.ResetInputResets
  intro s rest h
  exact ⟨State.pulseReset { s with host := rest }, by rw [step_access h, State.hostAccess], rfl, reset_len,
    rfl, rfl, rfl, rfl, rfl⟩

/-- Settles O19: without an access the step answers the state. -/
theorem idleBlockHoldsItsState : Obligations.IdleBlockHoldsItsState := by
  unfold Obligations.IdleBlockHoldsItsState
  intro s h
  rw [step, State.advance, h]

/-! ## Reads -/

/-- A read of a register that the block has keeps in `readback` what the register reads as. -/
theorem step_read {s : State} {r : HostReg} {rest : List HostAccess} (h : s.host = .read r :: rest)
    (hr : r.present = true) :
    step s = .next { (State.readReg { s with host := rest } r).2 with
      readback := some (State.readReg { s with host := rest } r).1 } := by
  rw [step_access h, State.hostAccess, State.hostRead, if_pos hr]

/-- Settles O13: `CMD` reads as zero (R34). -/
theorem cmdReadsAsZero : Obligations.CmdReadsAsZero := by
  unfold Obligations.CmdReadsAsZero
  exact fun _ _ h => step_read h rfl

/-- Settles O14: a read of `STATUS` is not a read of a result register, so `BUSY` has no part in it (R371). -/
theorem statusReadsAsItIs : Obligations.StatusReadsAsItIs := by
  unfold Obligations.StatusReadsAsItIs
  exact fun _ _ h => step_read h rfl

/-- The member list of a set is ascending and complete (R36). -/
theorem lists_members {n : Nat} (S : IdSet n) : Lists S.members S.mem :=
  ⟨S.members_ascending, S.mem_members⟩

/-- Every set register exists and reads as a list of its members (R36). -/
theorem setRegisters_value {r : Results} {p : ResultReg × (Nat → Bool)} (hp : p ∈ r.setRegisters) :
    p.1.present = true ∧ ∃ l, Lists l p.2 ∧ r.value p.1 = .members l := by
  simp only [Results.setRegisters, List.mem_cons, List.not_mem_nil, or_false] at hp
  obtain rfl | rfl | rfl | rfl | rfl | rfl | rfl | rfl | rfl | rfl | rfl | rfl | rfl := hp <;>
    exact ⟨rfl, _, lists_members _, rfl⟩

/-- Settles O15: a set register reads as the list of its members. -/
theorem setReadsAscending : Obligations.SetReadsAscending := by
  unfold Obligations.SetReadsAscending
  intro s rest p hp h hb
  obtain ⟨hpres, l, hl, hv⟩ := setRegisters_value hp
  exact ⟨l, hl, by rw [step_read_result h hb hpres, hv]⟩

/-- Every numeric result register exists and reads as its number (R37 to R49). -/
theorem numberRegisters_value {r : Results} {p : ResultReg × Nat} (hp : p ∈ r.numberRegisters) :
    p.1.present = true ∧ r.value p.1 = .number p.2 := by
  simp only [Results.numberRegisters, List.mem_cons, List.not_mem_nil, or_false] at hp
  obtain rfl | rfl | rfl | rfl | rfl | rfl | rfl | rfl | rfl | rfl | rfl | rfl | rfl | rfl | rfl | rfl |
    rfl | rfl | rfl | rfl | rfl | rfl | rfl | rfl | rfl | rfl | rfl | rfl | rfl | rfl | rfl | rfl |
    rfl := hp <;> exact ⟨rfl, rfl⟩

/-- The states that the invariant allows between steps are idle (R35). -/
theorem busy_of_observableStatus {s : State} (h : s.status ∈ observableStatus) : s.busy = false := by
  unfold State.busy
  generalize s.status = st at h
  revert st
  decide

/-- Settles O16: the table holds `PRCOUNT` entries, and past its end an entry is the empty one (R49). -/
theorem restrictionsBeyondCountAreEmpty : Obligations.RestrictionsBeyondCountAreEmpty := by
  unfold Obligations.RestrictionsBeyondCountAreEmpty
  intro i s rest hs h hi hlt
  have hempty : s.res.prAt i.toNat = {} := by
    rw [Results.prAt, List.getD_eq_default _ _ (by rw [hs.results.prCount]; exact hi)]
  rw [step_read_result h (busy_of_observableStatus hs.status) (decide_eq_true hlt), Results.value, hempty]
  simp

/-- Settles O60: each kind of register reads as itself (R52). -/
theorem readsReturnTheirRegister : Obligations.ReadsReturnTheirRegister := by
  unfold Obligations.ReadsReturnTheirRegister
  refine fun s rest => ⟨fun k j hk hj h => ?_, fun k hk h => ?_, fun h => ?_, fun p hp h hb => ?_,
    fun i e hi he h hb => ?_⟩
  · exact step_read h (by simp [HostReg.present, byteExists, segExists, hk, hj])
  · exact step_read h (by simp [HostReg.present, segExists, hk])
  · exact step_read h rfl
  · obtain ⟨hpres, hv⟩ := numberRegisters_value hp
    rw [step_read_result h hb hpres, hv]
  · have hentry : s.res.prAt i.toNat = e := by simp [Results.prAt, he]
    refine ⟨e.vendors.members, lists_members _, ?_⟩
    rw [step_read_result h hb (decide_eq_true hi), Results.value, hentry]

end Sys2Proof.Machine

/-! PROOFS. The commands as legality and body, and the six that read no section: CLR, REQB, RDB, RDF, RDA and RDFS
(R177, R178, R192, R196, R208, R306). -/

namespace Sys2Proof.Machine

/-! ## A command is a test of its operands and a body (R329 to R332) -/

/-- The body of a command; a wire pattern is no command and has none here. -/
def commandBody (inp : Input) : Instr → Dec Results
  | .reqb seg n => reqbBody inp seg.toNat n.toNat
  | .rdb seg start len => integerBody inp seg.toNat start.toNat len.toNat 3
  | .rdf seg start len ty => integerBody inp seg.toNat start.toNat len.toNat ty
  | .rda seg start cnt w => rdaBody inp seg.toNat start.toNat cnt.toNat w.toNat
  | .rdfs seg start len => rdfsBody inp seg.toNat start.toNat len.toNat
  | .rdrs seg start => rdrsBody inp seg.toNat start.toNat
  | .rdvs seg start => rdvsBody inp seg.toNat start.toNat
  | .rdpr seg start => rdprBody inp seg.toNat start.toNat
  | .rdseg seg => (segment inp seg.toNat).map rdsegResults
  | .decv1 => decv1Body inp
  | .decv2 => decv2Body inp
  | .dec => decBody inp
  | _ => .ok {}

/-- The meaning of a command is its test and its body. -/
theorem exec_command {i : Instr} (h : i.kind = .command) (s : State) :
    exec i s = s.runCommand (commandLegal s.inp i) (commandBody s.inp i) := by
  cases i with
  | clr | reqb | rdb | rdf | rda | rdfs | rdrs | rdvs | rdpr | rdseg | decv1 | decv2 | dec => rfl
  | _ => cases h

theorem exec_command_ok {i : Instr} {s : State} {r : Results} (h : i.kind = .command)
    (hl : commandLegal s.inp i = true) (hr : commandBody s.inp i = .ok r) :
    exec i s = .next (afterSuccess s r) := by
  rw [exec_command h, runCommand_ok hl hr]

theorem exec_command_error {i : Instr} {s : State} {e : DecodeError} (h : i.kind = .command)
    (hl : commandLegal s.inp i = true) (he : commandBody s.inp i = .error (.raised e)) :
    exec i s = .next (afterError s e.code) := by
  rw [exec_command h, runCommand_error hl he]

/-- A test that does not fail passes. -/
theorem commandLegal_of_not {inp : Input} {i : Instr} {p : Prop} (h : commandLegal inp i = false ↔ p)
    (hp : ¬ p) : commandLegal inp i = true :=
  Bool.eq_true_of_not_eq_false (mt h.mp hp)

/-- Settles O33: CLR tests nothing and its body gives the reset values (R306). -/
theorem clrClearsResults : Obligations.ClrClearsResults := by
  unfold Obligations.ClrClearsResults
  exact fun _ => exec_command_ok rfl rfl rfl

/-! ## REQB (R177) -/

theorem reqbBody_cases (inp : Input) (k n : Nat) :
    (n ≤ inp.cap k ∧ reqbBody inp k n = .ok {}) ∨
    (inp.cap k < n ∧ reqbBody inp k n = .error (.raised .insufficientLength)) := by
  rcases require_cases inp k n with ⟨h, hr⟩ | ⟨h, hr⟩
  · exact .inl ⟨h, by rw [reqbBody, hr, Dec.ok_bind]⟩
  · exact .inr ⟨h, by rw [reqbBody, hr, Dec.error_bind]⟩

/-- Settles O34, by the test of the operand and the two ends of the Boundary Checker. -/
theorem reqbTestsCapacity : Obligations.ReqbTestsCapacity := by
  unfold Obligations.ReqbTestsCapacity
  intro seg n s
  have hlegal : commandLegal s.inp (.reqb seg n) = false ↔ _ := segLoaded_eq_false
  split
  · next h => exact exec_of_commandLegal_eq_false (hlegal.mpr h)
  · next h =>
    have hl := commandLegal_of_not hlegal h
    rcases reqbBody_cases s.inp seg.toNat n.toNat with ⟨hc, hb⟩ | ⟨hc, hb⟩
    · rw [if_neg (Nat.not_lt.mpr hc)]
      exact exec_command_ok rfl hl hb
    · rw [if_pos hc]
      exact exec_command_error (e := .insufficientLength) rfl hl hb

/-! ## RDB and RDF (R178, R192) -/

/-- The registers of RDB and RDF: the value of the span by its defining sum, its type, and the cursor. -/
def integerResults (inp : Input) (k start len : Nat) (ty : BitVec 2) : Results :=
  { val := BitVec.ofNat 64 (inp.bitSum k start len), valty := ty, cur := BitVec.ofNat 40 (start + len) }

/-- All that the body of RDB and RDF can do. -/
theorem integerBody_cases (inp : Input) (k start : Nat) {len : Nat} (ty : BitVec 2) (hlen : len ≤ 64) :
    (start + len ≤ inp.cap k ∧
      integerBody inp k start len ty = .ok (integerResults inp k start len ty)) ∨
    (inp.cap k < start + len ∧
      integerBody inp k start len ty = .error (.raised .insufficientLength)) := by
  rcases require_cases inp k (start + len) with ⟨h, hr⟩ | ⟨h, hr⟩
  · refine .inl ⟨h, ?_⟩
    have hval : (inp.span k start len).setWidth 64 = BitVec.ofNat 64 (inp.bitSum k start len) := by
      rw [← span_toNat, BitVec.ofNat_toNat]
    rw [integerBody, hr, Dec.ok_bind, readBits_pass hlen h, Dec.ok_bind, hval]
    rfl
  · exact .inr ⟨h, by rw [integerBody, hr, Dec.error_bind]⟩

theorem commandLegal_rdb {inp : Input} {seg : BitVec 8} {start : BitVec 32} {len : BitVec 16} :
    commandLegal inp (.rdb seg start len) = false ↔ 64 < len.toNat ∨ inp.nseg.toNat ≤ seg.toNat := by
  change (rdbLimits len && segLoaded inp seg) = false ↔ _
  rw [Bool.and_eq_false_iff, rdbLimits_eq_false, segLoaded_eq_false]

theorem commandLegal_rdf {inp : Input} {seg : BitVec 8} {start : BitVec 32} {len : BitVec 7}
    {ty : BitVec 2} : commandLegal inp (.rdf seg start len ty) = false ↔
      64 < len.toNat ∨ 8 * 2 ^ ty.toNat < len.toNat ∨ inp.nseg.toNat ≤ seg.toNat := by
  change (rdfLimits len ty && segLoaded inp seg) = false ↔ _
  rw [Bool.and_eq_false_iff, rdfLimits_eq_false, segLoaded_eq_false, or_assoc]

/-- A command with this test and this body reads the span: the test, then the two ends of the body. -/
theorem exec_integer {i : Instr} {s : State} {k start len : Nat} {ty : BitVec 2} {p : Prop} [Decidable p]
    (hk : i.kind = .command) (hlegal : commandLegal s.inp i = false ↔ p)
    (hbody : commandBody s.inp i = integerBody s.inp k start len ty) (hlen : ¬ p → len ≤ 64) :
    exec i s = .next (if p then afterReject s
      else if s.inp.cap k < start + len then afterError s 1
      else afterSuccess s (integerResults s.inp k start len ty)) := by
  split
  · next h => exact exec_of_commandLegal_eq_false (hlegal.mpr h)
  · next h =>
    have hl := commandLegal_of_not hlegal h
    rcases integerBody_cases s.inp k start ty (hlen h) with ⟨hc, hb⟩ | ⟨hc, hb⟩
    · rw [if_neg (Nat.not_lt.mpr hc)]
      exact exec_command_ok hk hl (hbody.trans hb)
    · rw [if_pos hc]
      exact exec_command_error (e := .insufficientLength) hk hl (hbody.trans hb)

/-- Settles O35: RDB tests its length and its buffer, and reads with type 3. -/
theorem rdbReadsTheSpan : Obligations.RdbReadsTheSpan := by
  unfold Obligations.RdbReadsTheSpan
  exact fun _ _ _ _ => exec_integer rfl commandLegal_rdb rfl fun h => by omega

/-- Settles O36: RDF tests its length, its type and its buffer, and reads with its type. -/
theorem rdfReadsTheTypedField : Obligations.RdfReadsTheTypedField := by
  unfold Obligations.RdfReadsTheTypedField
  exact fun _ _ _ _ _ => exec_integer rfl commandLegal_rdf rfl fun h => by omega

/-! ## RDA (R195, R196) -/

/-- The registers of RDA: the letters by the defining sums of their fields, zeros beyond them, and the cursor. -/
def rdaResults (inp : Input) (k start cnt w : Nat) : Results :=
  { str := Vector.ofFn fun i : Fin 8 =>
      if i.val < cnt then BitVec.ofNat 8 (0x41 + inp.bitSum k (start + i.val * w) w) else 0
    strlen := BitVec.ofNat 4 cnt
    cur := BitVec.ofNat 40 (start + cnt * w) }

/-- `STR[i]` is the letter at position `i`, and 0 beyond the letters (R38). -/
theorem strRegister_eq_ofFn (l : List Byte) :
    strRegister l = Vector.ofFn fun i : Fin 8 => l.getD i.val 0 := by
  apply Vector.ext
  intro i hi
  rw [Vector.getElem_ofFn]
  interval_cases i <;> rfl

/-- All that the body of RDA can do, in the order of its tests. -/
theorem rdaBody_cases (inp : Input) (k start cnt : Nat) {w : Nat} (hw : w ≤ 64) :
    (inp.cap k < start + cnt * w ∧
      rdaBody inp k start cnt w = .error (.raised .insufficientLength)) ∨
    (start + cnt * w ≤ inp.cap k ∧ (∃ i < cnt, 25 < inp.bitSum k (start + i * w) w) ∧
      rdaBody inp k start cnt w = .error (.raised .invalidAlphabetOffset)) ∨
    (start + cnt * w ≤ inp.cap k ∧ (∀ i < cnt, inp.bitSum k (start + i * w) w ≤ 25) ∧
      rdaBody inp k start cnt w = .ok (rdaResults inp k start cnt w)) := by
  rcases require_cases inp k (start + cnt * w) with ⟨h, hr⟩ | ⟨h, hr⟩
  · refine .inr ?_
    simp only [rdaBody, hr, Dec.ok_bind, ← span_toNat]
    rcases alpha_cases inp k start cnt w hw h with ⟨l, hl, hlen, hv⟩ | ⟨he, i, hi, hv⟩
    · refine .inr ⟨h, fun i hi => (hv i (by omega)).1, ?_⟩
      have hstr : strRegister l = (rdaResults inp k start cnt w).str := by
        rw [strRegister_eq_ofFn]
        refine congrArg Vector.ofFn (funext fun i => ?_)
        by_cases hi : i.val < cnt
        · rw [if_pos hi, List.getD_eq_getElem _ _ (by omega), (hv i.val (by omega)).2, span_toNat]
        · rw [if_neg hi, List.getD_eq_default _ _ (by omega)]
      rw [hl, Dec.ok_bind, hstr]
      rfl
    · exact .inl ⟨h, ⟨i, hi, hv⟩, by rw [he, Dec.error_bind]⟩
  · exact .inl ⟨h, by rw [rdaBody, hr, Dec.error_bind]⟩

theorem commandLegal_rda {inp : Input} {seg : BitVec 8} {start : BitVec 32} {cnt w : BitVec 8} :
    commandLegal inp (.rda seg start cnt w) = false ↔
      8 < cnt.toNat ∨ w.toNat = 0 ∨ 64 < w.toNat ∨ inp.nseg.toNat ≤ seg.toNat := by
  change (rdaLimits cnt w && segLoaded inp seg) = false ↔ _
  rw [Bool.and_eq_false_iff, rdaLimits_eq_false, segLoaded_eq_false, or_assoc, or_assoc]

/-- Settles O37, by the tests of the operands and the three ends of the body. -/
theorem rdaReadsTheLetters : Obligations.RdaReadsTheLetters := by
  unfold Obligations.RdaReadsTheLetters
  intro seg start cnt w s value
  split
  · next h => exact exec_of_commandLegal_eq_false (commandLegal_rda.mpr h)
  · next h =>
    have hl := commandLegal_of_not (i := .rda seg start cnt w) commandLegal_rda h
    rcases rdaBody_cases s.inp seg.toNat start.toNat cnt.toNat (w := w.toNat) (by omega) with
      ⟨hc, hb⟩ | ⟨hc, hbad, hb⟩ | ⟨hc, hgood, hb⟩
    · rw [if_pos hc]
      exact exec_command_error (e := .insufficientLength) rfl hl hb
    · rw [if_neg (Nat.not_lt.mpr hc), if_pos hbad]
      exact exec_command_error (e := .invalidAlphabetOffset) rfl hl hb
    · rw [if_neg (Nat.not_lt.mpr hc), if_neg fun ⟨i, hi, hv⟩ => Nat.not_lt.mpr (hgood i hi) hv]
      exact exec_command_ok rfl hl hb

/-! ## RDFS (R206, R208) -/

/-- All that the body of RDFS can do. -/
theorem rdfsBody_cases (inp : Input) (k start : Nat) {len : Nat} (hlen : len < idSpace) :
    (start + len ≤ inp.cap k ∧ ∃ S : IdSet16,
      (∀ i, S.mem i = true ↔ 1 ≤ i ∧ i ≤ len ∧ inp.wireBit k (start + (i - 1)) = true) ∧
      rdfsBody inp k start len = .ok { setr := S, cur := BitVec.ofNat 40 (start + len) }) ∨
    (inp.cap k < start + len ∧
      rdfsBody inp k start len = .error (.raised .insufficientLength)) := by
  rcases flags_cases inp k start len hlen with ⟨h, S, hS, hm⟩ | ⟨h, he⟩
  · exact .inl ⟨h, S, hm, by rw [rdfsBody, hS, Dec.ok_bind]; rfl⟩
  · exact .inr ⟨h, by rw [rdfsBody, he, Dec.error_bind]⟩

/-- Settles O38, by the test of the operand and the two ends of the body. -/
theorem rdfsReadsTheFlags : Obligations.RdfsReadsTheFlags := by
  unfold Obligations.RdfsReadsTheFlags
  intro seg start len s
  have hbody := rdfsBody_cases s.inp seg.toNat start.toNat (lt_idSpace len)
  refine ⟨fun hseg => ?_, fun hseg hcap => ?_, fun hseg hcap => ?_⟩
  · exact exec_of_commandLegal_eq_false (segLoaded_eq_false.mpr hseg)
  · obtain ⟨h, -⟩ | ⟨-, hb⟩ := hbody
    · omega
    · exact exec_command_error (e := .insufficientLength) rfl (decide_eq_true hseg) hb
  · obtain ⟨-, S, hm, hb⟩ | ⟨h, -⟩ := hbody
    · exact ⟨S, hm, exec_command_ok rfl (decide_eq_true hseg) hb⟩
    · omega

end Sys2Proof.Machine

/-! PROOFS. The section decoders RDRS, RDVS, RDPR and RDSEG: what stands in the buffer is decoded, and what does not
stand there ends with its error (R225, R226, R245, R278). -/

namespace Sys2Proof.Machine

open Sys2Proof.Format

/-! ## Range-sets (R216, R225) -/

/-- A range-set that the buffer holds gives the registers of RDRS. -/
theorem rdrsBody_of_holds {inp : Input} {k start : Nat} {items : List RangeItem} (hn : items.length < 4096)
    (h : inp.holds k start (rangeSetBits items)) :
    ∃ S : IdSet16, (∀ i, S.mem i = true ↔ rangeSetCovers items i) ∧ rdrsBody inp k start =
      .ok { setr := S, cur := BitVec.ofNat 40 (start + (rangeSetBits items).length) } := by
  obtain ⟨S, hS, hm⟩ := rangeSet_of_holds hn h
  exact ⟨S, hm, by rw [rdrsBody, hS, Dec.ok_bind]; rfl⟩

/-- All that the body of RDRS can do. -/
theorem rdrsBody_cases (inp : Input) (k start : Nat) :
    (∃ items : List RangeItem, items.length < 4096 ∧ inp.holds k start (rangeSetBits items)) ∨
    rdrsBody inp k start = .error (.raised .insufficientLength) := by
  rcases rangeSet_cases inp k start with h | he
  · exact .inl h
  · exact .inr (by rw [rdrsBody, he, Dec.error_bind])

/-- Settles O39: a range-set in the buffer is decoded, by the induction over its entries in `rangeEntries_of_holds`;
when the decoder does not fail, one stands there. -/
theorem rdrsDecodesRangeSets : Obligations.RdrsDecodesRangeSets := by
  unfold Obligations.RdrsDecodesRangeSets
  refine fun seg start s => ⟨fun hseg => ?_, fun hseg items hn h => ?_, fun hseg hnone => ?_⟩
  · exact exec_of_commandLegal_eq_false (segLoaded_eq_false.mpr hseg)
  · obtain ⟨S, hm, hb⟩ := rdrsBody_of_holds hn h
    exact ⟨S, hm, exec_command_ok rfl (decide_eq_true hseg) hb⟩
  · rcases rdrsBody_cases s.inp seg.toNat start.toNat with ⟨items, hn, h⟩ | he
    · exact absurd h (hnone items hn)
    · exact exec_command_error (e := .insufficientLength) rfl (decide_eq_true hseg) he

/-! ## Vendor sections (R221, R226) -/

/-- A vendor section that the buffer holds gives the registers of RDVS. -/
theorem rdvsBody_of_holds {inp : Input} {k start : Nat} {v : VendorData} (hf : v.fits)
    (h : inp.holds k start v.bits) :
    ∃ S : IdSet16, (∀ i, S.mem i = true ↔ v.covers i) ∧ rdvsBody inp k start =
      .ok { setr := S, maxid := v.maxId, sel := v.sel
            cur := BitVec.ofNat 40 (start + v.bits.length) } := by
  obtain ⟨w, hw, ho⟩ := vendorSection_of_holds hf h
  refine ⟨w.vendors, ho.vendors, ?_⟩
  rw [rdvsBody, hw, Dec.ok_bind, ho.maxId, ho.sel, ho.next]
  rfl

/-- All that the body of RDVS can do. -/
theorem rdvsBody_cases (inp : Input) (k start : Nat) :
    (∃ v : VendorData, v.fits ∧ inp.holds k start v.bits) ∨
    rdvsBody inp k start = .error (.raised .insufficientLength) := by
  rcases vendorSection_cases inp k start with h | he
  · exact .inl h
  · exact .inr (by rw [rdvsBody, he, Dec.error_bind])

/-- Settles O40: a vendor section in the buffer is decoded; when the decoder does not fail, one stands there. -/
theorem rdvsDecodesVendorSections : Obligations.RdvsDecodesVendorSections := by
  unfold Obligations.RdvsDecodesVendorSections
  refine fun seg start s => ⟨fun hseg => ?_, fun hseg v hf h => ?_, fun hseg hnone => ?_⟩
  · exact exec_of_commandLegal_eq_false (segLoaded_eq_false.mpr hseg)
  · obtain ⟨S, hm, hb⟩ := rdvsBody_of_holds hf h
    exact ⟨S, hm, exec_command_ok rfl (decide_eq_true hseg) hb⟩
  · rcases rdvsBody_cases s.inp seg.toNat start.toNat with ⟨v, hf, h⟩ | he
    · exact absurd h (hnone v hf)
    · exact exec_command_error (e := .insufficientLength) rfl (decide_eq_true hseg) he

/-! ## Publisher restrictions (R276, R278) -/

/-- A restriction section that the buffer holds gives the registers of RDPR. -/
theorem rdprBody_of_holds {inp : Input} {k start : Nat} {l : List RestrictionData} (hn : l.length < 4096)
    (hf : ∀ r ∈ l, r.fits) (h : inp.holds k start (restrictionBits l)) :
    ∃ L : List PrEntry, List.Forall₂ RestrictionData.Matches l L ∧ rdprBody inp k start =
      .ok { prcount := BitVec.ofNat 12 l.length, pr := L
            cur := BitVec.ofNat 40 (start + (restrictionBits l).length) } := by
  obtain ⟨L, hL, hm⟩ := pubRestrictions_of_holds hn hf h
  refine ⟨L, hm, ?_⟩
  rw [rdprBody, hL, Dec.ok_bind, hm.length_eq]
  rfl

/-- All that the body of RDPR can do. -/
theorem rdprBody_cases (inp : Input) (k start : Nat) :
    (∃ l : List RestrictionData, l.length < 4096 ∧ (∀ r ∈ l, r.fits) ∧
      inp.holds k start (restrictionBits l)) ∨
    rdprBody inp k start = .error (.raised .insufficientLength) := by
  rcases pubRestrictions_cases inp k start with h | he
  · exact .inl h
  · exact .inr (by rw [rdprBody, he, Dec.error_bind])

/-- Settles O41: a restriction section in the buffer is decoded entry by entry; when the decoder does not fail, one
stands there. -/
theorem rdprDecodesRestrictions : Obligations.RdprDecodesRestrictions := by
  unfold Obligations.RdprDecodesRestrictions
  refine ⟨rfl, fun seg start s => ⟨fun hseg => ?_, fun hseg l hn hf h => ?_, fun hseg hnone => ?_⟩⟩
  · exact exec_of_commandLegal_eq_false (segLoaded_eq_false.mpr hseg)
  · obtain ⟨L, hm, hb⟩ := rdprBody_of_holds hn hf h
    exact ⟨L, hm, exec_command_ok rfl (decide_eq_true hseg) hb⟩
  · rcases rdprBody_cases s.inp seg.toNat start.toNat with ⟨l, hn, hf, h⟩ | he
    · exact absurd h (hnone l hn hf)
    · exact exec_command_error (e := .insufficientLength) rfl (decide_eq_true hseg) he

/-! ## Optional segments (R243, R245) -/

/-- The number of a tag names the same three known tags as its bits. -/
theorem bitSum_mem_knownTags {inp : Input} {k : Nat} :
    inp.bitSum k 0 3 ∈ [1, 2, 3] ↔ inp.span k 0 3 ∈ [1#3, 2#3, 3#3] := by
  rw [← span_toNat]
  simp only [List.mem_cons, List.not_mem_nil, or_false, ← BitVec.toNat_inj]
  rfl

/-- A segment that the buffer holds has its tag in the first three bits, and the tag is a known one. -/
theorem knownTag_of_holds {inp : Input} {k : Nat} {d : SegmentData} (h : inp.holds k 0 d.bits) :
    3 ≤ inp.cap k ∧ inp.span k 0 3 = tagOf d ∧ inp.span k 0 3 ∈ [1#3, 2#3, 3#3] := by
  rw [SegmentData.bits_eq, holds_append] at h
  have hcap := h.1.1
  have htag := span_of_holds h.1
  rw [fieldBits_length] at hcap
  refine ⟨by omega, htag, ?_⟩
  rw [htag]
  cases d <;> simp [tagOf]

/-- The bits of a segment are its three tag bits and its payload. -/
theorem SegmentData.bits_length (d : SegmentData) : d.bits.length = 3 + (payloadBits d).length := by
  rw [SegmentData.bits_eq, List.length_append, fieldBits_length]

/-- The registers of RDSEG for the value that a segment stands for (R245). -/
theorem segmentResult_of {v : Segment} {d : SegmentData} (h : v.Of d) :
    SegmentResult d (rdsegResults v) := by
  have hlen := SegmentData.bits_length d
  cases v with
  | disclosed v =>
    cases d with
    | disclosed d =>
      obtain ⟨hmax, hsel, hnext, hcov⟩ := h
      refine ⟨?_, nofun, nofun⟩
      rintro _ ⟨⟩
      refine ⟨hcov, ?_⟩
      rw [hlen, ← hmax, ← hsel, payloadBits, ← hnext]
      rfl
    | allowed | publisherTc => exact h.elim
  | allowed v =>
    cases d with
    | allowed d =>
      obtain ⟨hmax, hsel, hnext, hcov⟩ := h
      refine ⟨nofun, ?_, nofun⟩
      rintro _ ⟨⟩
      refine ⟨hcov, ?_⟩
      rw [hlen, ← hmax, ← hsel, payloadBits, ← hnext]
      rfl
    | disclosed | publisherTc => exact h.elim
  | publisherTc t =>
    cases d with
    | publisherTc d =>
      obtain ⟨hconsent, hli, hcustom, hcustomLi, hcount, hnext⟩ := h
      refine ⟨nofun, nofun, ?_⟩
      rintro _ ⟨⟩
      refine ⟨hconsent, hli, hcustom, hcustomLi, ?_⟩
      rw [hlen, ← hcount, payloadBits, ← hnext]
      rfl
    | disclosed | allowed => exact h.elim

/-- Settles O42, by the four ends of `segment`: a segment stands there, the tag does not fit, the payload of a known
tag does not fit, or the tag is none of the known three. -/
theorem rdsegDecodesSegments : Obligations.RdsegDecodesSegments := by
  unfold Obligations.RdsegDecodesSegments
  intro seg s
  have hbody {e} (he : segment s.inp seg.toNat = .error e) :
      commandBody s.inp (.rdseg seg) = .error e :=
    congrArg (Except.map rdsegResults) he
  have hcases := segment_cases s.inp seg.toNat
  refine ⟨fun hseg => ?_, fun hseg hcap => ?_, fun hseg hcap htag => ?_, fun hseg d hf h => ?_,
    fun hseg hcap htag hnone => ?_⟩
  · exact exec_of_commandLegal_eq_false (segLoaded_eq_false.mpr hseg)
  · obtain ⟨d, -, h⟩ | ⟨-, he⟩ | ⟨h3, -⟩ | ⟨h3, -⟩ := hcases
    · have := (knownTag_of_holds h).1
      omega
    · exact exec_command_error (e := .insufficientLength) rfl (decide_eq_true hseg) (hbody he)
    · omega
    · omega
  · rw [bitSum_mem_knownTags] at htag
    obtain ⟨d, -, h⟩ | ⟨h3, -⟩ | ⟨-, hm, -⟩ | ⟨-, -, he⟩ := hcases
    · exact absurd (knownTag_of_holds h).2.2 htag
    · omega
    · exact absurd hm htag
    · exact exec_command_error (e := .invalidSegmentDefinition) rfl (decide_eq_true hseg) (hbody he)
  · obtain ⟨v, hv, ho⟩ := segment_of_holds hf h
    exact ⟨rdsegResults v, segmentResult_of ho,
      exec_command_ok rfl (decide_eq_true hseg) (congrArg (Except.map rdsegResults) hv)⟩
  · rw [bitSum_mem_knownTags] at htag
    obtain ⟨d, hf, h⟩ | ⟨h3, -⟩ | ⟨-, -, he⟩ | ⟨-, hm, -⟩ := hcases
    · exact absurd h (hnone d hf)
    · omega
    · exact exec_command_error (e := .insufficientLength) rfl (decide_eq_true hseg) (hbody he)
    · exact absurd htag hm

end Sys2Proof.Machine

/-! PROOFS. The record decoders DECV1, DECV2 and DEC and the version patterns: the records they decode, and the order
of their errors (R261, R281, R308, R340). -/

namespace Sys2Proof.Machine

open Sys2Proof.Format

/-! ## What the version selects (R131, R308) -/

/-- A field whose defining sum is the number of `v` is `v` (R171). -/
theorem span_eq_of_bitSum_eq {inp : Input} {k s n : Nat} {v : BitVec n} (h : inp.bitSum k s n = v.toNat) :
    inp.span k s n = v :=
  BitVec.eq_of_toNat_eq (by rw [span_toNat, h])

/-- A buffer holds the bits of a field that one of its spans is. -/
theorem holds_of_span_eq {inp : Input} {k s n : Nat} {v : BitVec n} (h : s + n ≤ inp.cap k)
    (hv : inp.span k s n = v) : inp.holds k s (fieldBits v) :=
  hv ▸ holds_span h

theorem decv1Body_of_version {inp : Input} (h : 6 ≤ inp.cap 0) (hv : inp.span 0 0 6 = 1) :
    decv1Body inp = v1Record inp := by
  rw [decv1Body, versionField_bind_of_fits h, if_pos hv]

theorem decv2Body_of_version {inp : Input} (h : 6 ≤ inp.cap 0) (hv : inp.span 0 0 6 = 2) :
    decv2Body inp = v2Record inp := by
  rw [decv2Body, versionField_bind_of_fits h, if_pos hv]

theorem decBody_of_version1 {inp : Input} (h : 6 ≤ inp.cap 0) (hv : inp.span 0 0 6 = 1) :
    decBody inp = v1Record inp := by
  rw [decBody, versionField_bind_of_fits h, if_pos hv, decv1Body_of_version h hv]

theorem decBody_of_version2 {inp : Input} (h : 6 ≤ inp.cap 0) (hv : inp.span 0 0 6 = 2) :
    decBody inp = v2Record inp := by
  rw [decBody, versionField_bind_of_fits h, if_neg (by rw [hv]; decide), if_pos hv,
    decv2Body_of_version h hv]

/-- Under version 1 DECV1, DEC and the version pattern of V1 all run the V1 assembler. -/
theorem exec_version1 {s : State} (hs : 0 < s.inp.nseg.toNat) (h : 6 ≤ s.inp.cap 0)
    (hv : s.inp.span 0 0 6 = 1) {i : Instr} (hi : i ∈ [Instr.decv1, .dec, .wireVersionV1]) :
    exec i s = s.runCommand true (v1Record s.inp) := by
  have hl : anyLoaded s.inp = true := decide_eq_true hs
  simp only [List.mem_cons, List.not_mem_nil, or_false] at hi
  obtain rfl | rfl | rfl := hi
  · rw [exec_command rfl, ← decv1Body_of_version h hv, ← hl]; rfl
  · rw [exec_command rfl, ← decBody_of_version1 h hv, ← hl]; rfl
  · rw [exec, execWireVersionV1, hl, require_pass h, Dec.ok_bind]

/-- Under version 2 DECV2, DEC and the version pattern of V2 all run the V2 assembler. -/
theorem exec_version2 {s : State} (hs : 0 < s.inp.nseg.toNat) (h : 6 ≤ s.inp.cap 0)
    (hv : s.inp.span 0 0 6 = 2) {i : Instr} (hi : i ∈ [Instr.decv2, .dec, .wireVersionV2]) :
    exec i s = s.runCommand true (v2Record s.inp) := by
  have hl : anyLoaded s.inp = true := decide_eq_true hs
  simp only [List.mem_cons, List.not_mem_nil, or_false] at hi
  obtain rfl | rfl | rfl := hi
  · rw [exec_command rfl, ← decv2Body_of_version h hv, ← hl]; rfl
  · rw [exec_command rfl, ← decBody_of_version2 h hv, ← hl]; rfl
  · rw [exec, execWireVersionV2, hl, require_pass h, Dec.ok_bind]

/-- Settles O45: nothing is loaded, so each of the three fails its one operand test (R120 item 5). -/
theorem nothingLoadedIsRejected : Obligations.NothingLoadedIsRejected := by
  unfold Obligations.NothingLoadedIsRejected
  intro s hs i hi
  have hl : anyLoaded s.inp = false := anyLoaded_eq_false.mpr (by rw [hs]; rfl)
  simp only [List.mem_cons, List.not_mem_nil, or_false] at hi
  obtain rfl | rfl | rfl := hi <;> exact exec_of_commandLegal_eq_false hl

/-- A two-letter field by the defining sums of its letters. -/
theorem letters_fits_iff {inp : Input} {a b : Nat} :
    Letters.fits ⟨inp.span 0 a 6, inp.span 0 b 6⟩ ↔ inp.bitSum 0 a 6 ≤ 25 ∧ inp.bitSum 0 b 6 ≤ 25 := by
  rw [← span_toNat, ← span_toNat, Letters.fits]

/-! ## V1 records (R261) -/

/-- A buffer that holds a V1 record has version field 1 and the rest of the record after it. -/
theorem holds_v1Bits_iff {inp : Input} {d : V1Data} :
    inp.holds 0 0 d.bits ↔
      (6 ≤ inp.cap 0 ∧ inp.span 0 0 6 = 1) ∧ inp.holds 0 6 (v1Rest d) := by
  rw [V1Data.bits_eq, holds_append, fieldBits_length]
  refine and_congr_left fun _ => ⟨fun h => ⟨by simpa using h.1, span_of_holds h⟩, fun ⟨hcap, hv⟩ => ?_⟩
  exact holds_of_span_eq (by omega) hv

/-- Settles O43: the V1 assembler decodes the record that stands in segment 0; with letters in the header, or with no
room for one, its only other end is `InsufficientLength`. -/
theorem decv1DecodesV1Records : Obligations.Decv1DecodesV1Records := by
  unfold Obligations.Decv1DecodesV1Records
  refine ⟨fun d s hf hs h => ?_, fun s hs h6 hv hletters hnone i hi => ?_⟩
  · obtain ⟨⟨h6, hv⟩, hrest⟩ := holds_v1Bits_iff.mp h
    obtain ⟨r, hm, hr⟩ := v1Record_of_holds hf hrest
    exact ⟨r, hm, fun i hi => by rw [exec_version1 hs h6 hv hi, runCommand_ok rfl hr]⟩
  · have hv : s.inp.span 0 0 6 = 1 := span_eq_of_bitSum_eq hv
    rw [exec_version1 hs h6 hv hi]
    rcases v1Record_cases s.inp with ⟨-, he⟩ | ⟨hcap, hbad, -⟩ | ⟨-, -, he⟩ | ⟨-, -, d, hf, h⟩
    · exact runCommand_error (e := .insufficientLength) rfl he
    · exact absurd (letters_fits_iff.mpr (hletters hcap)) hbad
    · exact runCommand_error (e := .insufficientLength) rfl he
    · exact absurd (holds_v1Bits_iff.mpr ⟨⟨h6, hv⟩, h⟩) (hnone d hf)

/-! ## V2 records (R281) -/

/-- A buffer that holds a V2 core has version field 2 and the rest of the core after it. -/
theorem holds_v2Bits_iff {inp : Input} {d : V2Data} (hf : d.fits) :
    inp.holds 0 0 d.bits ↔ (6 ≤ inp.cap 0 ∧ inp.span 0 0 6 = 2) ∧ V2CoreHolds inp d := by
  rw [V2Data.bits_eq, holds_append, holds_append, fieldBits_length, v2FixedBits_length hf]
  constructor
  · rintro ⟨hv, hfix, hsec⟩
    exact ⟨⟨by simpa using hv.1, span_of_holds hv⟩, hf, hfix, hsec⟩
  · rintro ⟨⟨hcap, hv⟩, -, hfix, hsec⟩
    exact ⟨holds_of_span_eq (by omega) hv, hfix, hsec⟩

/-- Settles O44. A core and its segments in the buffers are decoded and merged. With no empty segment and letters in
the header, a core that is none ends with `InsufficientLength`; with a core, the first segment that fails gives the
error. -/
theorem decv2DecodesV2Records : Obligations.Decv2DecodesV2Records := by
  unfold Obligations.Decv2DecodesV2Records
  refine ⟨rfl, fun d opt s hf hof hn h hseg => ?_, fun s hs h6 hv hne hletters hnone i hi => ?_,
    fun d opt code s hf hof hn hne h hseg hfail i hi => ?_⟩
  · obtain ⟨⟨h6, hv⟩, hcore⟩ := (holds_v2Bits_iff hf).mp h
    obtain ⟨r, L, hm, hL, hr⟩ := v2Record_of_holds (opt := opt) ⟨hcore, hof, by omega, hseg⟩
    exact ⟨r, L, hm, hL, fun i hi => by rw [exec_version2 (by omega) h6 hv hi, runCommand_ok rfl hr]⟩
  · have hv : s.inp.span 0 0 6 = 2 := span_eq_of_bitSum_eq hv
    have hl (hcap : 213 ≤ s.inp.cap 0) : Letters.fits ⟨s.inp.span 0 108 6, s.inp.span 0 114 6⟩ ∧
        Letters.fits ⟨s.inp.span 0 201 6, s.inp.span 0 207 6⟩ := by
      rw [letters_fits_iff, letters_fits_iff, and_assoc]
      exact hletters hcap
    rw [exec_version2 hs h6 hv hi]
    rcases v2Record_core_cases hne hl with ⟨-, he⟩ | ⟨⟨d, hcore⟩, -⟩
    · exact runCommand_error (e := .insufficientLength) rfl he
    · exact absurd ((holds_v2Bits_iff hcore.fits).mpr ⟨⟨h6, hv⟩, hcore⟩) (hnone d hcore.fits)
  · obtain ⟨⟨h6, hv⟩, hcore⟩ := (holds_v2Bits_iff hf).mp h
    have hlen := hne (opt.length + 1) (by omega) hn
    obtain ⟨e, rfl, he⟩ := segment_of_fails hfail (by rw [Input.cap]; omega)
    rw [exec_version2 (by omega) h6 hv hi]
    exact runCommand_error rfl (v2Record_segment_error hcore hof hn hne hseg he)

/-! ## The order of the errors (R340) -/

/-- Settles O47: an empty segment is met before the core is decoded (R241). -/
theorem emptySegmentIsAHardError : Obligations.EmptySegmentIsAHardError := by
  unfold Obligations.EmptySegmentIsAHardError
  intro s k h1 hk h0 h6 hv i hi
  rw [exec_version2 (by omega) h6 (span_eq_of_bitSum_eq hv) hi]
  rcases v2Record_cases s.inp with ⟨-, he⟩ | ⟨-, he⟩ | ⟨hne, -⟩ | ⟨hne, -⟩
  · exact runCommand_error (e := .insufficientLength) rfl he
  · exact runCommand_error (e := .insufficientLength) rfl he
  · exact absurd h0 (hne k h1 hk)
  · exact absurd h0 (hne k h1 hk)

/-- Settles O48: both assemblers require their whole header first (R340 item 4). -/
theorem shortHeaderBeforeLetters : Obligations.ShortHeaderBeforeLetters := by
  unfold Obligations.ShortHeaderBeforeLetters
  refine fun s hs h6 => ⟨fun hv hcap i hi => ?_, fun hv hcap i hi => ?_⟩
  · rw [exec_version1 hs h6 (span_eq_of_bitSum_eq hv) hi]
    rcases v1Record_cases s.inp with ⟨-, he⟩ | ⟨h, -⟩ | ⟨h, -⟩ | ⟨h, -⟩
    · exact runCommand_error (e := .insufficientLength) rfl he
    all_goals omega
  · rw [exec_version2 hs h6 (span_eq_of_bitSum_eq hv) hi]
    rcases v2Record_cases s.inp with ⟨-, he⟩ | ⟨-, he⟩ | ⟨-, h, -⟩ | ⟨-, h, -⟩
    · exact runCommand_error (e := .insufficientLength) rfl he
    · exact runCommand_error (e := .insufficientLength) rfl he
    all_goals omega

/-- Settles O49: both assemblers test the letters of a header that fits before any section (R340 item 5). -/
theorem badLetterBeforeSections : Obligations.BadLetterBeforeSections := by
  unfold Obligations.BadLetterBeforeSections
  refine fun s hs => ⟨fun hv hcap hbad i hi => ?_, fun hv hcap hne hbad i hi => ?_⟩
  · rw [exec_version1 hs (by omega) (span_eq_of_bitSum_eq hv) hi]
    rcases v1Record_cases s.inp with ⟨h, -⟩ | ⟨-, -, he⟩ | ⟨-, h, -⟩ | ⟨-, h, -⟩
    · omega
    · exact runCommand_error (e := .invalidAlphabetOffset) rfl he
    all_goals
      rw [letters_fits_iff] at h
      omega
  · rw [exec_version2 hs (by omega) (span_eq_of_bitSum_eq hv) hi]
    rcases v2Record_cases s.inp with ⟨⟨k, h1, hk, h0⟩, -⟩ | ⟨h, -⟩ | ⟨-, -, -, he⟩ | ⟨-, -, h, h', -⟩
    · exact absurd h0 (hne k h1 hk)
    · omega
    · exact runCommand_error (e := .invalidAlphabetOffset) rfl he
    · rw [letters_fits_iff] at h h'
      omega

end Sys2Proof.Machine

/-! PROOFS. The wire patterns on the local values of a decode in progress (R131 to R147; log entries 10 to 12). -/

namespace Sys2Proof.Machine

open Sys2Proof.Format

/-! ## Range-sets and vendor sections -/

/-- Settles O51, by the set operation of each entry (R216). -/
theorem rangesetEntryPatterns : Obligations.RangesetEntryPatterns := by
  unfold Obligations.RangesetEntryPatterns
  refine fun s hk => ⟨fun id hcap => ?_, fun lo hi hcap => ?_⟩
  · refine ⟨addSingle s.loc.set id, mem_addSingle _ _, ?_⟩
    exact runElement_ok hk (by rw [require_pass hcap, Dec.ok_bind]; rfl)
  · refine ⟨addRange s.loc.set lo hi, mem_addRange _ _ _, ?_⟩
    exact runElement_ok hk (by rw [require_pass hcap, Dec.ok_bind]; rfl)

/-- Settles O52: the entries are read into the empty set. -/
theorem rangesetCountPattern : Obligations.RangesetCountPattern := by
  unfold Obligations.RangesetCountPattern
  intro items s hk hn h
  obtain ⟨S, hS, hm⟩ := rangeEntries_of_holds items .empty h
  have hcount : (BitVec.ofNat 12 items.length).toNat = items.length := by
    rw [BitVec.toNat_ofNat, Nat.mod_eq_of_lt hn]
  refine ⟨S, fun i => by rw [hm]; simp, runElement_ok hk ?_⟩
  have hcap := h.1
  rw [require_pass (by omega), Dec.ok_bind, hcount, hS, Dec.ok_bind]
  rfl

/-- Settles O53: the header is followed by the flags or by the range-set that it selects. -/
theorem vendorSectionPatterns : Obligations.VendorSectionPatterns := by
  unfold Obligations.VendorSectionPatterns
  refine fun s hk => ⟨fun m flags hlen h => ?_, fun m items hn h => ?_⟩
  · obtain ⟨S, hS, hm⟩ := flags_of_holds h hlen (lt_idSpace m)
    have hcap := h.1
    refine ⟨S, hm, runElement_ok hk ?_⟩
    rw [require_pass (by omega), Dec.ok_bind, vendorBitmap, hS, Dec.ok_bind, Dec.ok_bind]
    rfl
  · obtain ⟨S, hS, hm⟩ := rangeSet_of_holds hn h
    have hcap := h.1
    refine ⟨S, hm, runElement_ok hk ?_⟩
    rw [require_pass (by omega), Dec.ok_bind, vendorRange, hS, Dec.ok_bind, Dec.ok_bind]
    rfl

/-- Settles O54: the two forms of the V1 vendor block start at bits 173 and 174 of segment 0. -/
theorem v1VendorPatterns : Obligations.V1VendorPatterns := by
  unfold Obligations.V1VendorPatterns
  refine fun s hk => ⟨fun m flags hlen h => ?_, fun m b items hn h => ?_⟩
  · obtain ⟨S, hS, hm⟩ := flags_of_holds h hlen (lt_idSpace m)
    have hcap := h.1
    refine ⟨S, hm, runElement_ok hk ?_⟩
    rw [show Config.v1HdrBits = 173 from rfl, require_pass (by omega), Dec.ok_bind, v1Bitmap, hS,
      Dec.ok_bind, Dec.ok_bind]
    rfl
  · obtain ⟨S, hS, hm⟩ := rangeSet_of_holds hn h
    have hcap := h.1
    refine ⟨S, hm, runElement_ok hk ?_⟩
    rw [require_pass (by omega), Dec.ok_bind, v1Range, hS, Dec.ok_bind, Dec.ok_bind]
    rfl

/-! ## Publisher restrictions -/

/-- The bits of a restriction entry are its 8-bit header, its ignored bits and its range-set. -/
theorem RestrictionData.bits_length (r : RestrictionData) :
    r.bits.length = 8 + (r.pad ++ rangeSetBits r.items).length := by
  simp [RestrictionData.bits, encodeWire]
  omega

/-- A restriction entry whose rest the buffer holds after its header decodes to its entry (R276). -/
theorem prEntry_of_holds {inp : Input} {k p : Nat} {r : RestrictionData} (hf : r.fits)
    (h : inp.holds k (p + 8) (r.pad ++ rangeSetBits r.items)) :
    p + 8 + Config.prPad ≤ inp.cap k ∧ ∃ e : PrEntry, r.Matches e ∧
      prEntry inp k p r.purposeId r.rtype = .ok (e, p + r.bits.length) := by
  obtain ⟨hpad, hitems⟩ := hf
  have hlen := RestrictionData.bits_length r
  rw [List.length_append, hpad] at hlen
  rw [holds_append, hpad] at h
  obtain ⟨-, hset⟩ := h
  obtain ⟨S, hS, hm⟩ := rangeSet_of_holds hitems hset
  have hid : (r.purposeId.setWidth 8).toNat = r.purposeId.toNat := by
    have := r.purposeId.isLt
    rw [BitVec.toNat_setWidth, Nat.mod_eq_of_lt (by omega)]
  have hcap := hset.1
  refine ⟨by omega, { purposeId := r.purposeId.setWidth 8, rtype := r.rtype, vendors := S },
    ⟨hid, rfl, hm⟩, ?_⟩
  rw [prEntry, hS, Dec.ok_bind, hlen]
  simp only [Nat.add_assoc]

/-- Settles O55: the entry that follows the header is appended. -/
theorem restrictionEntryPattern : Obligations.RestrictionEntryPattern := by
  unfold Obligations.RestrictionEntryPattern
  refine ⟨rfl, fun r s hk hf h => ?_⟩
  obtain ⟨hcap, e, hm, he⟩ := prEntry_of_holds hf h
  refine ⟨e, hm, runElement_ok hk ?_⟩
  rw [require_pass hcap, Dec.ok_bind, he, Dec.ok_bind]

/-- Every type code that fits is kept and moves the cursor over its two bits (R143). -/
theorem takeRtype_of_fits {s : State} (hk : s.loc.k.toNat < s.inp.nseg.toNat)
    (hcap : s.loc.p + 2 ≤ s.inp.cap s.loc.k.toNat) (code : BitVec 2) :
    s.takeRtype code = .next { s with loc := { s.loc with rtype := code, p := s.loc.p + 2 } } :=
  runElement_ok hk (by rw [require_pass hcap, Dec.ok_bind])

/-- Settles O56: the four patterns are the four codes. -/
theorem restrictionTypePatterns : Obligations.RestrictionTypePatterns := by
  unfold Obligations.RestrictionTypePatterns
  intro s hk hcap
  have hkeep := takeRtype_of_fits hk hcap
  exact ⟨hkeep 0, hkeep 1, hkeep 2, hkeep 3⟩

/-! ## Optional segments -/

/-- A segment's tag whose payload is decoded merges its value into the record (R243, R246). -/
theorem takeSegtag_ok {s : State} {tag : BitVec 3} {r : Segment} (hk : s.loc.k.toNat < s.inp.nseg.toNat)
    (hcap : 3 ≤ s.inp.cap s.loc.k.toNat) (hr : segmentPayload s.inp s.loc.k.toNat tag = .ok r) :
    s.takeSegtag tag = .next { s with
      res := { s.res with record := merge r s.res.record }, loc := s.loc.afterSegment r } :=
  runElement_ok hk (by rw [require_pass hcap, Dec.ok_bind, hr, Dec.ok_bind])

/-- Settles O57: the payload behind each known tag decodes to its value, which is merged. -/
theorem segmentTagPatterns : Obligations.SegmentTagPatterns := by
  unfold Obligations.SegmentTagPatterns
  refine fun s hk => ⟨fun v hf h => ?_, fun t hf h => ?_⟩
  · have hcap : 3 ≤ s.inp.cap s.loc.k.toNat := Nat.le_trans (Nat.le_add_right ..) h.1
    obtain ⟨w, hw, hmax, hsel, hnext, hcov⟩ := vendorSection_of_holds hf h
    rw [← hmax, ← hsel, ← hnext]
    exact ⟨w.vendors, hcov,
      takeSegtag_ok (tag := 1) (r := .disclosed w) hk hcap (congrArg (Except.map Segment.disclosed) hw),
      takeSegtag_ok (tag := 2) (r := .allowed w) hk hcap (congrArg (Except.map Segment.allowed) hw)⟩
  · have hcap : 3 ≤ s.inp.cap s.loc.k.toNat := Nat.le_trans (Nat.le_add_right ..) h.1
    obtain ⟨w, hw, hconsent, hli, hcustom, hcustomLi, -, hnext⟩ := pubTc_of_holds hf h
    rw [← hnext]
    exact ⟨w.consent, w.li, w.customConsent, w.customLi, hconsent, hli, hcustom, hcustomLi,
      takeSegtag_ok (tag := 3) (r := .publisherTc w) hk hcap
        (congrArg (Except.map Segment.publisherTc) hw)⟩

/-- A tag that selects no payload raises `InvalidSegmentDefinition` (R242). -/
theorem takeSegtag_invalid {s : State} {tag : BitVec 3} (hk : s.loc.k.toNat < s.inp.nseg.toNat)
    (hcap : 3 ≤ s.inp.cap s.loc.k.toNat)
    (htag : segmentPayload s.inp s.loc.k.toNat tag = .error (.raised .invalidSegmentDefinition)) :
    s.takeSegtag tag = .next (afterError s 6) :=
  runElement_error (e := .invalidSegmentDefinition) hk
    (by rw [require_pass hcap, Dec.ok_bind, htag, Dec.error_bind])

/-- Settles O58: the five tags select no payload. -/
theorem invalidSegmentTagsRaise : Obligations.InvalidSegmentTagsRaise := by
  unfold Obligations.InvalidSegmentTagsRaise
  intro s hk hcap i hi
  simp only [List.mem_cons, List.not_mem_nil, or_false] at hi
  obtain rfl | rfl | rfl | rfl | rfl := hi <;> exact takeSegtag_invalid hk hcap rfl

/-! ## Letters -/

/-- Settles O59, by the two ends of `letter` (R195). -/
theorem letterPattern : Obligations.LetterPattern := by
  unfold Obligations.LetterPattern
  intro v s hk hcap
  rcases letter_cases v with ⟨hle, hl⟩ | ⟨hgt, hl⟩
  · exact ⟨fun _ => runElement_ok hk (by rw [require_pass hcap, Dec.ok_bind, hl, Dec.ok_bind]),
      fun h => by omega⟩
  · exact ⟨fun h => by omega, fun _ => runElement_error (e := .invalidAlphabetOffset) hk
      (by rw [require_pass hcap, Dec.ok_bind, hl, Dec.error_bind])⟩

end Sys2Proof.Machine

/-! PROOFS. How every instruction ends (R328 to R332): what its body can answer, with which errors it can stop, and the
range that its cursor and its registers keep (R38 to R49). -/

namespace Sys2Proof.Machine

open Sys2Proof.Format

/-! ## The ends of a body of pseudocode -/

/-- A body answers a value that satisfies `P`, or raises an error with one of these codes; it does not stop in any other
way (R12, R372). -/
def Dec.Ends {α : Type} (codes : List (BitVec 4)) (P : α → Prop) (body : Dec α) : Prop :=
  (∃ a, body = .ok a ∧ P a) ∨ ∃ e : DecodeError, e.code ∈ codes ∧ body = .error (.raised e)

theorem Dec.Ends.ok {α : Type} {codes : List (BitVec 4)} {P : α → Prop} {a : α} (h : P a) :
    Dec.Ends codes P (.ok a) :=
  .inl ⟨a, rfl, h⟩

theorem Dec.Ends.raised {α : Type} {codes : List (BitVec 4)} {P : α → Prop} {e : DecodeError}
    (h : e.code ∈ codes) : Dec.Ends codes P (.error (.raised e)) :=
  .inr ⟨e, h, rfl⟩

/-- A sequence of two bodies ends as one of them does (R12). -/
theorem Dec.Ends.bind {α β : Type} {codes : List (BitVec 4)} {P : α → Prop} {Q : β → Prop} {x : Dec α}
    {f : α → Dec β} (hx : x.Ends codes P) (hf : ∀ a, P a → (f a).Ends codes Q) :
    (x >>= f).Ends codes Q := by
  obtain ⟨a, rfl, ha⟩ | ⟨e, he, rfl⟩ := hx
  · exact hf a ha
  · exact .raised he

/-- A body that goes on to a value ends as before. -/
theorem Dec.Ends.toValue {α β : Type} {codes : List (BitVec 4)} {P : α → Prop} {x : Dec α} {f : α → β}
    (hx : x.Ends codes P) : (x >>= fun a => .ok (f a)).Ends codes fun _ => True :=
  hx.bind fun _ _ => .ok trivial

/-- A body that answers a value or raises `InsufficientLength`. -/
theorem Dec.Ends.of_short {α : Type} {codes : List (BitVec 4)} {P : α → Prop} {x : Dec α} (h1 : 1 ∈ codes)
    (h : (∃ a, x = .ok a ∧ P a) ∨ x = .error (.raised .insufficientLength)) : x.Ends codes P :=
  h.imp_right fun he => ⟨.insufficientLength, h1, he⟩

section Elements

variable {codes : List (BitVec 4)} (h1 : 1 ∈ codes) (inp : Input) (k : Nat)
include h1

theorem require_ends (n : Nat) : (require inp k n).Ends codes fun _ => n ≤ inp.cap k := by
  refine .of_short h1 ?_
  rcases require_cases inp k n with ⟨h, hr⟩ | ⟨-, hr⟩
  · exact .inl ⟨(), hr, h⟩
  · exact .inr hr

theorem flags_ends (s : Nat) (n : BitVec 16) : (flags inp k s n.toNat).Ends codes fun _ => True := by
  refine .of_short h1 ?_
  rcases flags_cases inp k s n.toNat (lt_idSpace n) with ⟨-, S, hS, -⟩ | ⟨-, he⟩
  · exact .inl ⟨_, hS, trivial⟩
  · exact .inr he

theorem rangeEntries_ends (n p : Nat) (S : IdSet16) (hp : p ≤ inp.cap k) :
    (rangeEntries inp k n p S).Ends codes fun _ => True := by
  refine .of_short h1 ?_
  rcases rangeEntries_cases inp k n p S hp with ⟨items, rfl, h⟩ | he
  · obtain ⟨T, hT, -⟩ := rangeEntries_of_holds items S h
    exact .inl ⟨_, hT, trivial⟩
  · exact .inr he

theorem rangeSet_ends (p : Nat) : (rangeSet inp k p).Ends codes fun _ => True := by
  refine .of_short h1 ?_
  rcases rangeSet_cases inp k p with ⟨items, hn, h⟩ | he
  · obtain ⟨T, hT, -⟩ := rangeSet_of_holds hn h
    exact .inl ⟨_, hT, trivial⟩
  · exact .inr he

theorem segmentPayload_ends {tag : BitVec 3} (h6 : tag ∉ [1#3, 2#3, 3#3] → 6 ∈ codes) :
    (segmentPayload inp k tag).Ends codes fun _ => True := by
  rcases segmentPayload_cases inp k tag with ⟨d, hf, rfl, h⟩ | ⟨-, he⟩ | ⟨hm, he⟩
  · obtain ⟨r, hr, -⟩ := segmentPayload_of_holds hf h
    exact .inl ⟨r, hr, trivial⟩
  · exact .inr ⟨.insufficientLength, h1, he⟩
  · exact .inr ⟨.invalidSegmentDefinition, h6 hm, he⟩

end Elements

/-! ## The wire patterns -/

/-- A pattern's body that gives a state gives one with the same `STATUS` (log entry 16). -/
abbrev KeepsStatus (s : State) (codes : List (BitVec 4)) (body : Dec State) : Prop :=
  body.Ends codes fun t => t.status = s.status

theorem takeRtype_ends (s : State) (code : BitVec 2) :
    ∃ k body, s.takeRtype code = s.runElement k body ∧ KeepsStatus s [1] body :=
  ⟨_, _, rfl, (require_ends (by decide) _ _ _).bind fun _ _ => .ok rfl⟩

theorem takeSegtag_ends (s : State) {codes : List (BitVec 4)} {tag : BitVec 3} (h1 : 1 ∈ codes)
    (h6 : tag ∉ [1#3, 2#3, 3#3] → 6 ∈ codes) :
    ∃ k body, s.takeSegtag tag = s.runElement k body ∧ KeepsStatus s codes body :=
  ⟨_, _, rfl, (require_ends h1 _ _ _).bind fun _ _ => (segmentPayload_ends h1 _ _ h6).bind fun _ _ => .ok rfl⟩

/-- Every wire pattern but the version fields is run in its buffer, keeps `STATUS`, and raises only its own errors. -/
theorem exec_element {i : Instr} (s : State) (hc : i.kind ≠ .command) (hv : i.kind ≠ .version) :
    ∃ k body, exec i s = s.runElement k body ∧ KeepsStatus s (errorCodes i) body := by
  have one : (1 : BitVec 4) ∈ [(1 : BitVec 4)] := by decide
  cases i with
  | clr | reqb | rdb | rdf | rda | rdfs | rdrs | rdvs | rdpr | rdseg | decv1 | decv2 | dec =>
    exact absurd rfl hc
  | wireVersionV1 | wireVersionV2 => exact absurd rfl hv
  | wireRangesetSingle | wireRangesetRange =>
    exact ⟨_, _, rfl, (require_ends one _ _ _).bind fun _ _ => .ok rfl⟩
  | wireRangesetCount =>
    exact ⟨_, _, rfl, (require_ends one _ _ _).bind fun _ h =>
      (rangeEntries_ends one _ _ _ _ _ h).bind fun _ _ => .ok rfl⟩
  | wireVendorsecBitmap | wireV1VendorsBitmap =>
    exact ⟨_, _, rfl, (require_ends one _ _ _).bind fun _ _ =>
      (flags_ends one _ _ _ _).toValue.bind fun _ _ => .ok rfl⟩
  | wireVendorsecRange | wireV1VendorsRange | wirePubrestrEntry =>
    exact ⟨_, _, rfl, (require_ends one _ _ _).bind fun _ _ =>
      (rangeSet_ends one _ _ _).toValue.bind fun _ _ => .ok rfl⟩
  | wireRtypeNotallowed | wireRtypeRequireconsent | wireRtypeRequireli | wireRtypeUndefined =>
    exact takeRtype_ends s _
  | wireSegtagDisclosed | wireSegtagAllowed | wireSegtagPublishertc =>
    exact takeSegtag_ends s one (by decide)
  | wireSegtagInvalid000 | wireSegtagInvalid100 | wireSegtagInvalid101 | wireSegtagInvalid110
  | wireSegtagInvalid111 => exact takeSegtag_ends s (by decide) fun _ => by decide
  | wireLetter v =>
    refine ⟨_, _, rfl, (require_ends (by simp [errorCodes]) _ _ _).bind fun _ _ => ?_⟩
    rcases letter_cases v with ⟨-, hl⟩ | ⟨-, hl⟩
    · rw [hl]
      exact .ok rfl
    · rw [hl]
      exact .raised (by simp [errorCodes, DecodeError.code])

end Sys2Proof.Machine

/-! PROOFS. The ranges of the result registers after a command: the letters of RDA, the record that a V1 or V2 buffer
stands for, the sets of the optional segments, and the cursor within its buffer (R38 to R49). -/

namespace Sys2Proof.Machine

open Sys2Proof.Format

/-! ## Sets -/

theorem within_empty {n lo hi : Nat} : Within (IdSet.empty : IdSet n) lo hi := by
  intro i hi
  simp at hi

/-- A set of flags lies within the positions of its bitmap (R136). -/
theorem within_of_flagsCover {n m : Nat} {S : IdSet n} {l : List Bool}
    (h : ∀ i, S.mem i = true ↔ flagsCover l i) (hl : l.length ≤ m) : Within S 1 m := by
  intro i hi
  obtain ⟨h1, hget⟩ := (h i).mp hi
  obtain ⟨hlt, -⟩ := List.getElem?_eq_some_iff.mp hget
  exact ⟨h1, by omega⟩

/-- So does the set of an optional bitmap (R286). -/
theorem within_of_flagsCoverOption {n m : Nat} {S : IdSet n} {t : Option PubTcData}
    {get : PubTcData → List Bool} (h : ∀ i, S.mem i = true ↔ flagsCoverOption t get i)
    (hl : ∀ d, t = some d → (get d).length ≤ m) : Within S 1 m := by
  intro i hi
  obtain ⟨d, hd, hcov⟩ := (h i).mp hi
  obtain ⟨h1, hget⟩ := hcov
  obtain ⟨hlt, -⟩ := List.getElem?_eq_some_iff.mp hget
  exact ⟨h1, by have := hl d hd; omega⟩

/-- The last Publisher TC segment of a list whose segments fit their fields does. -/
theorem lastPublisherTc_fits {opt : List SegmentData} (hf : ∀ e ∈ opt, e.fits) {t : PubTcData}
    (h : lastPublisherTc opt = some t) : t.fits := by
  obtain ⟨e, he, ht⟩ := List.mem_filterMap.mp (List.mem_of_getLast? h)
  cases e with
  | publisherTc u =>
    cases ht
    exact hf _ he
  | disclosed | allowed => cases ht

/-! ## The record file (R43 to R48) -/

/-- The code of a letter is an ASCII letter (R147). -/
theorem ascii_toNat {v : BitVec 6} (h : v.toNat ≤ 25) : (0x41 + v.setWidth 8 : Byte).toNat = 0x41 + v.toNat := by
  rw [← letter_byte, BitVec.toNat_ofNat]
  omega

theorem twoLetters_ascii {l : Letters} (h : l.fits) : TwoLetters l.ascii := by
  obtain ⟨h1, h2⟩ := h
  have e1 : l.ascii[0].toNat = 0x41 + l.first.toNat := ascii_toNat h1
  have e2 : l.ascii[1].toNat = 0x41 + l.second.toNat := ascii_toNat h2
  refine ⟨?_, ?_, ?_, ?_⟩ <;> omega

/-- A record file that holds no record has its shape when the sets of the Publisher TC registers lie within their
bitmaps and everything but the segment registers is at its reset value. -/
theorem recordShaped_of_segment {D A : IdSet16} {C L CC CL : IdSet64} (hC : Within C 1 24)
    (hL : Within L 1 24) (hCC : Within CC 1 63) (hCL : Within CL 1 63) :
    Record.Shaped
      { disclosedVendors := D, allowedVendors := A, publisherPurposesConsent := C
        publisherPurposesLiTransparency := L, customPurposesConsent := CC
        customPurposesLiTransparency := CL } where
  kind := Nat.zero_le _
  createdAt := Nat.two_pow_pos 43
  updatedAt := Nat.two_pow_pos 43
  consentLanguage := fun h => absurd rfl h
  publisherCountryCode := fun h => absurd h (show (0#2) ≠ 2 by decide)
  purposesConsent := within_empty
  specialFeatureOptIns := within_empty
  purposesLiTransparency := within_empty
  publisherPurposesConsent := hC
  publisherPurposesLiTransparency := hL
  customPurposesConsent := hCC
  customPurposesLiTransparency := hCL
  v1Only := fun _ => ⟨rfl, rfl⟩
  v2Only := fun _ => ⟨rfl, rfl, rfl, rfl, rfl, rfl, rfl, rfl, rfl⟩

/-- The empty record file has its shape. -/
theorem recordShaped_reset : ({} : Record).Shaped :=
  recordShaped_of_segment within_empty within_empty within_empty within_empty

/-- A V1 record has its shape: its letters are letters, its bitmap has 24 flags, and the V2 registers are at their reset
values (R261). -/
theorem recordShaped_of_v1 {d : V1Data} {r : Record} (hf : d.fits) (h : d.Matches r) : r.Shaped := by
  obtain ⟨hletters, hpurposes, -⟩ := hf
  have hv2 {α : Type} (f : Record → α) := congrArg f h.v2
  have hempty {n m : Nat} {S : IdSet n} (hS : S = .empty) : Within S 1 m := hS ▸ within_empty
  have hkind : r.kind ≠ 2 := by rw [h.kind]; decide
  have hcreated := d.createdAt.isLt
  have hupdated := d.updatedAt.isLt
  exact {
    kind := by rw [h.kind]; decide
    createdAt := by rw [h.createdAt]; omega
    updatedAt := by rw [h.updatedAt]; omega
    consentLanguage := fun _ => h.consentLanguage ▸ twoLetters_ascii hletters
    publisherCountryCode := fun hk => absurd hk hkind
    purposesConsent := within_of_flagsCover h.purposesConsent (Nat.le_of_eq hpurposes)
    specialFeatureOptIns := hempty (hv2 Record.specialFeatureOptIns)
    purposesLiTransparency := hempty (hv2 Record.purposesLiTransparency)
    publisherPurposesConsent := hempty (hv2 Record.publisherPurposesConsent)
    publisherPurposesLiTransparency := hempty (hv2 Record.publisherPurposesLiTransparency)
    customPurposesConsent := hempty (hv2 Record.customPurposesConsent)
    customPurposesLiTransparency := hempty (hv2 Record.customPurposesLiTransparency)
    v1Only := fun hk => absurd h.kind hk
    v2Only := fun _ => ⟨hv2 Record.tcfPolicyVersion, hv2 Record.isServiceSpecific,
      hv2 Record.useNonStandardStacks, hv2 Record.specialFeatureOptIns,
      hv2 Record.purposesLiTransparency, hv2 Record.purposeOneTreatment,
      hv2 Record.publisherCountryCode, hv2 Record.vendorConsents, hv2 Record.vendorLiConsents⟩ }

/-- A V2 record has its shape: timestamps times 100 stay below 2^43, its letters are letters, and each bitmap has the
flags of its field (R281). -/
theorem recordShaped_of_v2 {d : V2Data} {opt : List SegmentData} {r : Record} (hf : d.fits)
    (ho : ∀ e ∈ opt, e.fits) (h : d.Matches opt r) : r.Shaped := by
  obtain ⟨hlanguage, hfeatures, hpurposes, hli, hcountry, -⟩ := hf
  have htc {t} (ht : lastPublisherTc opt = some t) : t.fits := lastPublisherTc_fits ho ht
  have hcreated := d.createdAt.isLt
  have hupdated := d.updatedAt.isLt
  exact {
    kind := by rw [h.kind]; decide
    createdAt := by rw [h.createdAt]; omega
    updatedAt := by rw [h.updatedAt]; omega
    consentLanguage := fun _ => h.consentLanguage ▸ twoLetters_ascii hlanguage
    publisherCountryCode := fun _ => h.publisherCountryCode ▸ twoLetters_ascii hcountry
    purposesConsent := within_of_flagsCover h.purposesConsent (Nat.le_of_eq hpurposes)
    specialFeatureOptIns := within_of_flagsCover h.specialFeatureOptIns (Nat.le_of_eq hfeatures)
    purposesLiTransparency := within_of_flagsCover h.purposesLiTransparency (Nat.le_of_eq hli)
    publisherPurposesConsent := within_of_flagsCoverOption h.publisherPurposesConsent
      fun t ht => by obtain ⟨hlen, -⟩ := htc ht; omega
    publisherPurposesLiTransparency := within_of_flagsCoverOption h.publisherPurposesLiTransparency
      fun t ht => by obtain ⟨-, hlen, -⟩ := htc ht; omega
    customPurposesConsent := within_of_flagsCoverOption h.customPurposesConsent
      fun t ht => by obtain ⟨-, -, -, hlt⟩ := htc ht; omega
    customPurposesLiTransparency := within_of_flagsCoverOption h.customPurposesLiTransparency
      fun t ht => by obtain ⟨-, -, hlen, hlt⟩ := htc ht; omega
    v1Only := fun _ => h.v1
    v2Only := fun hk => absurd h.kind hk }

/-! ## The result registers (R38 to R42, R49) -/

/-- `CUR` holds a cursor that is at most the capacity as it is (R40, R95). -/
theorem cursor_toNat_le {n cap : Nat} (h : n ≤ cap) : (BitVec.ofNat 40 n).toNat ≤ cap := by
  rw [BitVec.toNat_ofNat]
  exact Nat.le_trans (Nat.mod_le _ _) h

/-- What a body's results keep to: the cursor lies within the capacity, and when no offset of the buffer is above 2^32
the registers have their shape. -/
structure Results.FitsBuffer (r : Results) (cap : Nat) : Prop where
  cur : r.cur.toNat ≤ cap
  shaped : cap ≤ 2 ^ 32 → r.Shaped

theorem str_reset (i : Fin 8) : ({} : Results).str[i] = 0 := by
  revert i
  decide

theorem purposeIds_nil : ∀ e ∈ ([] : List PrEntry), e.purposeId.toNat < 64 := by simp

/-- Results without letters keep to the buffer when their record, their segment type and their restrictions do. -/
theorem fitsBuffer_of_noLetters {r : Results} {cap : Nat} (hstr : r.str = ({} : Results).str)
    (hlen : r.strlen = 0) (hcur : r.cur.toNat ≤ cap) (hseg : r.segtype.toNat ≤ 3)
    (hrec : r.record.Shaped) (hcount : r.pr.length = r.prcount.toNat)
    (hids : ∀ e ∈ r.pr, e.purposeId.toNat < 64) : r.FitsBuffer cap where
  cur := hcur
  shaped := fun hcap =>
    { strlen := by rw [hlen]; decide
      letters := fun i => by
        rw [hlen, hstr, if_neg (show ¬ i.val < (0 : BitVec 4).toNat from Nat.not_lt_zero _), str_reset]
      cur := Nat.le_trans hcur hcap
      segtype := hseg
      record := hrec
      prCount := hcount
      purposeIds := hids }

/-- The registers of RDA: `STR` holds letters below `STRLEN` and zeros above (R38, R196). -/
theorem rdaResults_fitsBuffer {inp : Input} {k start cnt w cap : Nat} (hcnt : cnt ≤ 8)
    (hgood : ∀ i < cnt, inp.bitSum k (start + i * w) w ≤ 25) (hcap : start + cnt * w ≤ cap) :
    (rdaResults inp k start cnt w).FitsBuffer cap := by
  have hlen : (rdaResults inp k start cnt w).strlen.toNat = cnt := by
    rw [rdaResults, BitVec.toNat_ofNat]
    omega
  refine ⟨cursor_toNat_le hcap, fun h32 => ⟨by omega, fun i => ?_,
    Nat.le_trans (cursor_toNat_le hcap) h32, Nat.zero_le _, recordShaped_reset, rfl, purposeIds_nil⟩⟩
  have hget : (rdaResults inp k start cnt w).str[i] =
      if i.val < cnt then BitVec.ofNat 8 (0x41 + inp.bitSum k (start + i.val * w) w) else 0 :=
    Vector.getElem_ofFn _
  rw [hlen, hget]
  split
  · next hi =>
    have := hgood i.val hi
    rw [BitVec.toNat_ofNat]
    omega
  · rfl

/-- The restrictions that stand for data have 6-bit purposes (R142). -/
theorem purposeId_lt {l : List RestrictionData} {L : List PrEntry}
    (h : List.Forall₂ RestrictionData.Matches l L) : ∀ e ∈ L, e.purposeId.toNat < 64 := by
  induction h with
  | nil => exact purposeIds_nil
  | cons hm _ ih =>
    intro e he
    rcases List.mem_cons.mp he with rfl | he
    · rw [hm.purposeId]
      exact BitVec.isLt _
    · exact ih e he

/-- `PRCOUNT` holds the number of the restrictions (R49). -/
theorem prCount_eq {l : List RestrictionData} {L : List PrEntry}
    (h : List.Forall₂ RestrictionData.Matches l L) (hn : l.length < 4096) :
    L.length = (BitVec.ofNat 12 l.length).toNat := by
  rw [BitVec.toNat_ofNat, Nat.mod_eq_of_lt hn, h.length_eq]

/-- The registers of RDSEG keep to the buffer that holds the segment (R245). -/
theorem segmentResult_fitsBuffer {d : SegmentData} {r : Results} {cap : Nat} (hf : d.fits)
    (h : SegmentResult d r) (hcap : d.bits.length ≤ cap) : r.FitsBuffer cap := by
  obtain ⟨hdisclosed, hallowed, hptc⟩ := h
  cases d with
  | disclosed v =>
    rw [(hdisclosed v rfl).2]
    exact fitsBuffer_of_noLetters rfl rfl (cursor_toNat_le hcap) (show (1#3).toNat ≤ 3 by decide)
      (recordShaped_of_segment within_empty within_empty within_empty within_empty) rfl purposeIds_nil
  | allowed v =>
    rw [(hallowed v rfl).2]
    exact fitsBuffer_of_noLetters rfl rfl (cursor_toNat_le hcap) (show (2#3).toNat ≤ 3 by decide)
      (recordShaped_of_segment within_empty within_empty within_empty within_empty) rfl purposeIds_nil
  | publisherTc t =>
    obtain ⟨hC, hL, hCC, hCL, hr⟩ := hptc t rfl
    obtain ⟨h1, h2, h3, h4⟩ := hf
    rw [hr]
    exact fitsBuffer_of_noLetters rfl rfl (cursor_toNat_le hcap) (show (3#3).toNat ≤ 3 by decide)
      (recordShaped_of_segment (within_of_flagsCover hC (by omega)) (within_of_flagsCover hL (by omega))
        (within_of_flagsCover hCC (by omega)) (within_of_flagsCover hCL (by omega))) rfl purposeIds_nil

/-! ## What the assemblers can answer (R261, R281) -/

/-- The V1 assembler answers a record, or raises `InsufficientLength` or `InvalidAlphabetOffset`. -/
theorem v1Record_ends (inp : Input) {codes : List (BitVec 4)} (h1 : 1 ∈ codes) (h4 : 4 ∈ codes) :
    (v1Record inp).Ends codes (·.FitsBuffer (inp.cap 0)) := by
  rcases v1Record_cases inp with ⟨-, he⟩ | ⟨-, -, he⟩ | ⟨-, -, he⟩ | ⟨-, -, d, hf, h⟩
  · exact .inr ⟨.insufficientLength, h1, he⟩
  · exact .inr ⟨.invalidAlphabetOffset, h4, he⟩
  · exact .inr ⟨.insufficientLength, h1, he⟩
  · obtain ⟨r, hm, hr⟩ := v1Record_of_holds hf h
    have hcap : d.bits.length ≤ inp.cap 0 := by
      rw [V1Data.bits_eq, List.length_append, fieldBits_length]
      exact h.1
    exact .inl ⟨_, hr, fitsBuffer_of_noLetters rfl rfl (cursor_toNat_le hcap) (Nat.zero_le _)
      (recordShaped_of_v1 hf hm) rfl purposeIds_nil⟩

/-- The V2 assembler answers a record, or raises `InsufficientLength`, `InvalidAlphabetOffset` or
`InvalidSegmentDefinition`. -/
theorem v2Record_ends (inp : Input) {codes : List (BitVec 4)} (h1 : 1 ∈ codes) (h4 : 4 ∈ codes)
    (h6 : 6 ∈ codes) : (v2Record inp).Ends codes (·.FitsBuffer (inp.cap 0)) := by
  rcases v2Record_cases inp with ⟨-, he⟩ | ⟨-, he⟩ | ⟨-, -, -, he⟩ | ⟨-, -, -, -, he | he | ⟨d, opt, h⟩⟩
  · exact .inr ⟨.insufficientLength, h1, he⟩
  · exact .inr ⟨.insufficientLength, h1, he⟩
  · exact .inr ⟨.invalidAlphabetOffset, h4, he⟩
  · exact .inr ⟨.insufficientLength, h1, he⟩
  · exact .inr ⟨.invalidSegmentDefinition, h6, he⟩
  · obtain ⟨r, L, hm, hL, hr⟩ := v2Record_of_holds h
    obtain ⟨-, -, -, -, -, -, -, hn, -⟩ := h.fits
    have hcap : d.bits.length ≤ inp.cap 0 := by
      rw [V2Data.bits_eq, List.length_append, List.length_append, fieldBits_length,
        v2FixedBits_length h.fits, ← Nat.add_assoc]
      exact h.sections.1
    exact .inl ⟨_, hr, fitsBuffer_of_noLetters rfl rfl (cursor_toNat_le hcap) (Nat.zero_le _)
      (recordShaped_of_v2 h.fits h.optFits hm) (prCount_eq hL hn) (purposeId_lt hL)⟩

end Sys2Proof.Machine

/-! PROOFS. Every instruction answers a next state, with the ends and the errors that R328 lists for it, and a cursor
within its buffer (R40, R95, R330 to R332, R372). -/

namespace Sys2Proof.Machine

open Sys2Proof.Format

/-! ## What the body of a command can answer -/

/-- Results that are plain numbers and a set keep to the buffer when their cursor does. -/
theorem fitsBuffer_of_cursor {r : Results} {cap : Nat} (hcur : r.cur.toNat ≤ cap)
    (h : r = { val := r.val, valty := r.valty, setr := r.setr, maxid := r.maxid, sel := r.sel, cur := r.cur }) :
    r.FitsBuffer cap := by
  rw [h]
  exact fitsBuffer_of_noLetters rfl rfl hcur (Nat.zero_le _) recordShaped_reset rfl purposeIds_nil

/-- A test that passes does not fail. -/
theorem not_of_commandLegal {inp : Input} {i : Instr} {p : Prop} (h : commandLegal inp i = false ↔ p)
    (hl : commandLegal inp i = true) : ¬ p := by
  intro hp
  rw [h.mpr hp] at hl
  cases hl

theorem integerBody_ends (inp : Input) (k start : Nat) {len : Nat} (ty : BitVec 2) (hlen : len ≤ 64) :
    (integerBody inp k start len ty).Ends [1] (·.FitsBuffer (inp.cap k)) := by
  refine .of_short (by decide) ?_
  rcases integerBody_cases inp k start ty hlen with ⟨hcap, hr⟩ | ⟨-, he⟩
  · exact .inl ⟨_, hr, fitsBuffer_of_cursor (cursor_toNat_le hcap) rfl⟩
  · exact .inr he

theorem rdaBody_ends (inp : Input) (k start : Nat) {cnt w : Nat} (hcnt : cnt ≤ 8) (hw : w ≤ 64) :
    (rdaBody inp k start cnt w).Ends [1, 4] (·.FitsBuffer (inp.cap k)) := by
  rcases rdaBody_cases inp k start cnt hw with ⟨-, he⟩ | ⟨-, -, he⟩ | ⟨hcap, hgood, hr⟩
  · exact .inr ⟨.insufficientLength, by decide, he⟩
  · exact .inr ⟨.invalidAlphabetOffset, by decide, he⟩
  · exact .inl ⟨_, hr, rdaResults_fitsBuffer hcnt hgood hcap⟩

theorem rdsegBody_ends (inp : Input) (k : Nat) :
    Dec.Ends [1, 6] (·.FitsBuffer (inp.cap k)) ((segment inp k).map rdsegResults) := by
  rcases segment_cases inp k with ⟨d, hf, h⟩ | ⟨-, he⟩ | ⟨-, -, he⟩ | ⟨-, -, he⟩
  · obtain ⟨v, hv, ho⟩ := segment_of_holds hf h
    have hcap := h.1
    rw [Nat.zero_add] at hcap
    exact .inl ⟨_, by rw [hv, Dec.map_ok], segmentResult_fitsBuffer hf (segmentResult_of ho) hcap⟩
  · exact .inr ⟨.insufficientLength, by decide, by rw [he, Dec.map_error]⟩
  · exact .inr ⟨.insufficientLength, by decide, by rw [he, Dec.map_error]⟩
  · exact .inr ⟨.invalidSegmentDefinition, by decide, by rw [he, Dec.map_error]⟩

/-- Reading the version field answers it, or raises `InsufficientLength` (R131). -/
theorem versionField_ends (inp : Input) {codes : List (BitVec 4)} (h1 : 1 ∈ codes) :
    (versionField inp).Ends codes fun _ => True := by
  refine .of_short h1 ?_
  rcases versionField_cases inp with ⟨-, hv⟩ | ⟨-, he⟩
  · exact .inl ⟨_, hv, trivial⟩
  · exact .inr he

theorem decv1Body_ends (inp : Input) {codes : List (BitVec 4)} (h1 : 1 ∈ codes) (h2 : 2 ∈ codes)
    (h4 : 4 ∈ codes) : (decv1Body inp).Ends codes (·.FitsBuffer (inp.cap 0)) := by
  refine (versionField_ends inp h1).bind fun v _ => ?_
  split
  · exact v1Record_ends inp h1 h4
  · exact .raised (e := .unsupportedVersion) h2

theorem decv2Body_ends (inp : Input) {codes : List (BitVec 4)} (h1 : 1 ∈ codes) (h2 : 2 ∈ codes)
    (h4 : 4 ∈ codes) (h6 : 6 ∈ codes) : (decv2Body inp).Ends codes (·.FitsBuffer (inp.cap 0)) := by
  refine (versionField_ends inp h1).bind fun v _ => ?_
  split
  · exact v2Record_ends inp h1 h4 h6
  · exact .raised (e := .unsupportedVersion) h2

theorem decBody_ends (inp : Input) {codes : List (BitVec 4)} (h1 : 1 ∈ codes) (h2 : 2 ∈ codes)
    (h4 : 4 ∈ codes) (h6 : 6 ∈ codes) : (decBody inp).Ends codes (·.FitsBuffer (inp.cap 0)) := by
  refine (versionField_ends inp h1).bind fun v _ => ?_
  split
  · exact decv1Body_ends inp h1 h2 h4
  · split
    · exact decv2Body_ends inp h1 h2 h4 h6
    · exact .raised (e := .unsupportedVersion) h2

/-- The body of a legal command answers registers that keep to its buffer, or raises an error listed for it (R328). -/
theorem commandBody_ends {i : Instr} {inp : Input} (hk : i.kind = .command)
    (hl : commandLegal inp i = true) :
    (commandBody inp i).Ends (errorCodes i) (·.FitsBuffer (inp.cap (cursorBuffer i))) := by
  cases i with
  | clr => exact .ok (fitsBuffer_of_cursor (Nat.zero_le _) rfl)
  | reqb seg n =>
    refine .of_short (List.mem_singleton_self 1) ?_
    rcases reqbBody_cases inp seg.toNat n.toNat with ⟨-, hr⟩ | ⟨-, he⟩
    · exact .inl ⟨_, hr, fitsBuffer_of_cursor (Nat.zero_le _) rfl⟩
    · exact .inr he
  | rdb seg start len =>
    have hlen := not_of_commandLegal commandLegal_rdb hl
    exact integerBody_ends inp _ _ _ (by omega)
  | rdf seg start len ty =>
    have hlen := not_of_commandLegal commandLegal_rdf hl
    exact integerBody_ends inp _ _ _ (by omega)
  | rda seg start cnt w =>
    have hlimits := not_of_commandLegal commandLegal_rda hl
    exact rdaBody_ends inp _ _ (by omega) (by omega)
  | rdfs seg start len =>
    refine .of_short (List.mem_singleton_self 1) ?_
    rcases rdfsBody_cases inp seg.toNat start.toNat (lt_idSpace len) with ⟨hcap, S, -, hr⟩ | ⟨-, he⟩
    · exact .inl ⟨_, hr, fitsBuffer_of_cursor (cursor_toNat_le hcap) rfl⟩
    · exact .inr he
  | rdrs seg start =>
    refine .of_short (List.mem_singleton_self 1) ?_
    rcases rdrsBody_cases inp seg.toNat start.toNat with ⟨items, hn, h⟩ | he
    · obtain ⟨S, -, hr⟩ := rdrsBody_of_holds hn h
      exact .inl ⟨_, hr, fitsBuffer_of_cursor (cursor_toNat_le h.1) rfl⟩
    · exact .inr he
  | rdvs seg start =>
    refine .of_short (List.mem_singleton_self 1) ?_
    rcases rdvsBody_cases inp seg.toNat start.toNat with ⟨v, hf, h⟩ | he
    · obtain ⟨S, -, hr⟩ := rdvsBody_of_holds hf h
      exact .inl ⟨_, hr, fitsBuffer_of_cursor (cursor_toNat_le h.1) rfl⟩
    · exact .inr he
  | rdpr seg start =>
    refine .of_short (List.mem_singleton_self 1) ?_
    rcases rdprBody_cases inp seg.toNat start.toNat with ⟨l, hn, hf, h⟩ | he
    · obtain ⟨L, hL, hr⟩ := rdprBody_of_holds hn hf h
      exact .inl ⟨_, hr, fitsBuffer_of_noLetters rfl rfl (cursor_toNat_le h.1) (Nat.zero_le _)
        recordShaped_reset (prCount_eq hL hn) (purposeId_lt hL)⟩
    · exact .inr he
  | rdseg seg => exact rdsegBody_ends inp seg.toNat
  | decv1 => exact decv1Body_ends inp (by decide) (by decide) (by decide)
  | decv2 => exact decv2Body_ends inp (by decide) (by decide) (by decide) (by decide)
  | dec => exact decBody_ends inp (by decide) (by decide) (by decide) (by decide)
  | _ => cases hk

/-! ## How an instruction ends -/

/-- All that a command can do (R329 to R332). -/
theorem exec_command_cases {i : Instr} (hk : i.kind = .command) (s : State) :
    (commandLegal s.inp i = false ∧ exec i s = .next (afterReject s)) ∨
    (∃ r : Results, r.FitsBuffer (s.inp.cap (cursorBuffer i)) ∧
      commandLegal s.inp i = true ∧ commandBody s.inp i = .ok r ∧ exec i s = .next (afterSuccess s r)) ∨
    ∃ e : DecodeError, e.code ∈ errorCodes i ∧ commandLegal s.inp i = true ∧
      commandBody s.inp i = .error (.raised e) ∧ exec i s = .next (afterError s e.code) := by
  cases hl : commandLegal s.inp i with
  | false => exact .inl ⟨rfl, exec_of_commandLegal_eq_false hl⟩
  | true =>
    rcases commandBody_ends hk hl with ⟨r, hr, hfits⟩ | ⟨e, he, hr⟩
    · exact .inr (.inl ⟨r, hfits, rfl, hr, exec_command_ok hk hl hr⟩)
    · exact .inr (.inr ⟨e, he, rfl, hr, exec_command_error hk hl hr⟩)

/-- A version pattern's own step is a command's, with a body that raises only its errors (R131; log entry 11). -/
theorem exec_version {i : Instr} (hv : i.kind = .version) (s : State) :
    ∃ body : Dec Results, exec i s = s.runCommand (anyLoaded s.inp) body ∧
      body.Ends (errorCodes i) (·.FitsBuffer (s.inp.cap 0)) := by
  cases i with
  | wireVersionV1 =>
    exact ⟨_, rfl, (require_ends (by decide) _ _ _).bind fun _ _ =>
      v1Record_ends _ (by decide) (by decide)⟩
  | wireVersionV2 =>
    exact ⟨_, rfl, (require_ends (by decide) _ _ _).bind fun _ _ =>
      v2Record_ends _ (by decide) (by decide) (by decide)⟩
  | _ => cases hv

/-- All that a version pattern's own step can do. -/
theorem exec_version_cases {i : Instr} (hv : i.kind = .version) (s : State) :
    exec i s = .next (afterReject s) ∨ (∃ r, exec i s = .next (afterSuccess s r)) ∨
    ∃ c ∈ errorCodes i, exec i s = .next (afterError s c) := by
  obtain ⟨body, hexec, hbody⟩ := exec_version hv s
  rw [hexec]
  cases hl : anyLoaded s.inp with
  | false => exact .inl (runCommand_illegal rfl)
  | true =>
    obtain ⟨r, hr, -⟩ | ⟨e, he, hr⟩ := hbody
    · exact .inr (.inl ⟨r, runCommand_ok rfl hr⟩)
    · exact .inr (.inr ⟨_, he, runCommand_error rfl hr⟩)

/-- All that any other wire pattern's own step can do. -/
theorem exec_element_cases {i : Instr} (hc : i.kind ≠ .command) (hv : i.kind ≠ .version) (s : State) :
    exec i s = .next (afterReject s) ∨ (∃ t, t.status = s.status ∧ exec i s = .next t) ∨
    ∃ c ∈ errorCodes i, exec i s = .next (afterError s c) := by
  obtain ⟨k, body, hexec, hbody⟩ := exec_element s hc hv
  rw [hexec]
  rcases Nat.lt_or_ge k.toNat s.inp.nseg.toNat with hk | hk
  · obtain ⟨t, ht, hstatus⟩ | ⟨e, hcode, he⟩ := hbody
    · exact .inr (.inl ⟨t, hstatus, runElement_ok hk ht⟩)
    · exact .inr (.inr ⟨_, hcode, runElement_error hk he⟩)
  · exact .inl (if_neg (by simpa [segLoaded] using hk))

/-- Settles O22: a command, a version pattern and any other pattern each end in a next state. -/
theorem everyInstructionAnswersNext : Obligations.EveryInstructionAnswersNext := by
  unfold Obligations.EveryInstructionAnswersNext
  intro i s
  by_cases hc : i.kind = .command
  · obtain ⟨-, h⟩ | ⟨r, -, -, -, h⟩ | ⟨e, -, -, -, h⟩ := exec_command_cases hc s <;> exact ⟨_, h⟩
  by_cases hv : i.kind = .version
  · obtain h | ⟨r, h⟩ | ⟨c, -, h⟩ := exec_version_cases hv s <;> exact ⟨_, h⟩
  · obtain h | ⟨t, -, h⟩ | ⟨c, -, h⟩ := exec_element_cases hc hv s <;> exact ⟨_, h⟩

/-- Settles O24, by the three ends of a command. -/
theorem commandsEndAsListed : Obligations.CommandsEndAsListed := by
  unfold Obligations.CommandsEndAsListed
  intro i s t hk h
  obtain ⟨-, he⟩ | ⟨r, -, -, -, he⟩ | ⟨e, hcode, -, -, he⟩ := exec_command_cases hk s <;>
    rw [he] at h <;> cases h
  · exact ⟨rfl, .inr ⟨rfl, .inl rfl⟩⟩
  · exact ⟨rfl, .inl rfl⟩
  · exact ⟨rfl, .inr ⟨rfl, .inr ⟨_, hcode, rfl⟩⟩⟩

/-- Settles O25, by the ends of a pattern in its buffer and those of a version pattern. -/
theorem elementsEndAsListed : Obligations.ElementsEndAsListed := by
  unfold Obligations.ElementsEndAsListed
  refine ⟨fun i s t hc hv h => ?_, fun i s t hv h => ?_⟩
  · obtain he | ⟨u, hu, he⟩ | ⟨c, hcode, he⟩ := exec_element_cases hc hv s <;> rw [he] at h <;> cases h
    · exact .inr (.inl rfl)
    · exact .inl hu
    · exact .inr (.inr ⟨c, hcode, rfl⟩)
  · obtain he | ⟨r, he⟩ | ⟨c, hcode, he⟩ := exec_version_cases hv s <;> rw [he] at h <;> cases h
    · exact .inr (.inl rfl)
    · exact .inl ⟨r, rfl⟩
    · exact .inr (.inr ⟨c, hcode, rfl⟩)

/-- Settles O28: a success keeps to its buffer, and the other ends have cursor 0. -/
theorem cursorStaysInItsBuffer : Obligations.CursorStaysInItsBuffer := by
  unfold Obligations.CursorStaysInItsBuffer
  intro i s t hk h
  obtain ⟨-, he⟩ | ⟨r, hfits, -, -, he⟩ | ⟨e, -, -, -, he⟩ := exec_command_cases hk s <;>
    rw [he] at h <;> cases h
  · exact Nat.zero_le _
  · exact hfits.cur
  · exact Nat.zero_le _

end Sys2Proof.Machine

/-! PROOFS. The legal command words (R120): a word that passes the five tests decodes, its operands pass theirs, and its
command ends without a command error. -/

namespace Sys2Proof.Machine

/-! ## The tests of R120, passed -/

/-- A field whose number is not different from zero is zero. -/
theorem eq_zero_of_not_toNat_ne {n : Nat} {x : BitVec n} (h : ¬ x.toNat ≠ 0) : x = 0 :=
  BitVec.eq_of_toNat_eq (by simpa using h)

theorem segLoaded_of_not_le {inp : Input} {seg : BitVec 8} (h : ¬ inp.nseg.toNat ≤ seg.toNat) :
    segLoaded inp seg = true :=
  decide_eq_true (Nat.lt_of_not_le h)

/-- A word with a code of format Z that passes its tests decodes, and something is loaded unless it is CLR. -/
theorem decodeZ_of_legal {w : Word64} {i : Instr} {nseg : Nat} {p : Prop}
    (h : ¬ ((fieldSeg w).toNat ≠ 0 ∨ (fieldAux w).toNat ≠ 0 ∨ (fieldStart w).toNat ≠ 0 ∨ (p ∧ nseg = 0))) :
    decodeZ w i = .ok i ∧ (p → nseg ≠ 0) := by
  rw [not_or, not_or, not_or, not_and] at h
  obtain ⟨hseg, haux, hstart, hloaded⟩ := h
  exact ⟨decodeZ_eq_ok.mpr ⟨⟨eq_zero_of_not_toNat_ne hseg, eq_zero_of_not_toNat_ne haux,
    eq_zero_of_not_toNat_ne hstart⟩, rfl⟩, hloaded⟩

/-- A word with a code of format B or S that passes its tests decodes, and its buffer is loaded. -/
theorem decodeAuxZero_of_legal {w : Word64} {i : Instr} {inp : Input}
    (h : ¬ ((fieldAux w).toNat ≠ 0 ∨ inp.nseg.toNat ≤ (fieldSeg w).toNat)) :
    decodeAuxZero w i = .ok i ∧ segLoaded inp (fieldSeg w) = true := by
  obtain ⟨haux, hseg⟩ := not_or.mp h
  exact ⟨decodeAuxZero_eq_ok.mpr ⟨eq_zero_of_not_toNat_ne haux, rfl⟩, segLoaded_of_not_le hseg⟩

/-- The codes outside the thirteen of the table have no format (R121). -/
theorem formatOf_eq_none {op : BitVec 8} (h : op ∉ [0x01#8, 0x10#8, 0x11#8, 0x12#8, 0x13#8, 0x14#8, 0x15#8,
    0x16#8, 0x17#8, 0x18#8, 0x20#8, 0x21#8, 0x22#8]) : formatOf op.toNat = none := by
  revert op
  decide

/-- A word that passes the five tests decodes to a command whose operands pass theirs. -/
theorem decodeWord_of_legal {w : Word64} {inp : Input} (h : ¬ illegalWord inp.nseg.toNat w.toNat) :
    ∃ i, decodeWord w = .ok i ∧ commandLegal inp i = true := by
  unfold illegalWord at h
  rw [← fieldOp_toNat, ← fieldSeg_toNat, ← fieldAux_toNat, ← fieldStart_toNat] at h
  unfold decodeWord
  split
  -- CLR
  case h_1 hop =>
    rw [hop] at h
    exact ⟨_, (decodeZ_of_legal h).1, rfl⟩
  -- REQB, RDRS, RDVS and RDPR
  case h_2 hop | h_7 hop | h_8 hop | h_9 hop =>
    rw [hop] at h
    obtain ⟨hd, hseg⟩ := decodeAuxZero_of_legal h
    exact ⟨_, hd, hseg⟩
  -- RDB
  case h_3 hop =>
    rw [hop] at h
    obtain ⟨hlen, hseg⟩ := not_or.mp h
    exact ⟨_, rfl, commandLegal_of_not commandLegal_rdb (not_or.mpr ⟨fun hl => hlen ⟨rfl, hl⟩, hseg⟩)⟩
  -- RDF
  case h_4 hop =>
    rw [hop] at h
    obtain ⟨hhigh, hbit, hlimits⟩ := (not_or.trans (and_congr_right' not_or)).mp h
    refine ⟨_, decodeF_eq_ok.mpr ⟨⟨not_not.mp hhigh, not_not.mp hbit⟩, rfl⟩,
      commandLegal_of_not commandLegal_rdf ?_⟩
    rwa [extractLsb'_toNat_div, extractLsb'_toNat_div, pow_zero, Nat.div_one]
  -- RDA
  case h_5 hop =>
    rw [hop] at h
    refine ⟨_, rfl, commandLegal_of_not commandLegal_rda ?_⟩
    rw [extractLsb'_toNat_div, extractLsb'_toNat_div, pow_zero, Nat.div_one,
      Nat.mod_eq_of_lt (a := _ / 2 ^ 8) (by omega)]
    exact h
  -- RDFS
  case h_6 hop =>
    rw [hop] at h
    exact ⟨_, rfl, segLoaded_of_not_le (not_or.mp h).2⟩
  -- RDSEG
  case h_10 hop =>
    rw [hop] at h
    obtain ⟨haux, hstart, hseg⟩ := (not_or.trans (and_congr_right' not_or)).mp h
    exact ⟨_, decodeG_eq_ok.mpr ⟨⟨eq_zero_of_not_toNat_ne haux, eq_zero_of_not_toNat_ne hstart⟩, rfl⟩,
      segLoaded_of_not_le hseg⟩
  -- DECV1, DECV2 and DEC
  case h_11 hop | h_12 hop | h_13 hop =>
    rw [hop] at h
    obtain ⟨hd, hloaded⟩ := decodeZ_of_legal h
    exact ⟨_, hd, decide_eq_true (Nat.pos_of_ne_zero (hloaded (by decide)))⟩
  -- a reserved code
  case h_14 =>
    have hop : formatOf (fieldOp w).toNat = none := by
      apply formatOf_eq_none
      simp only [List.mem_cons, List.not_mem_nil, or_false]
      rintro (hop | hop | hop | hop | hop | hop | hop | hop | hop | hop | hop | hop | hop) <;>
        contradiction
    dsimp only at h
    rw [hop] at h
    exact absurd trivial h

/-- The flags after a success (R331, R35). -/
theorem flags_afterSuccess (s : State) (r : Results) : (afterSuccess s r).cmdErr = false ∧
    (afterSuccess s r).done = true ∧ (afterSuccess s r).busy = false :=
  show (0x02#8).getLsbD 3 = false ∧ (0x02#8).getLsbD 1 = true ∧ (0x02#8).getLsbD 0 = false by decide

/-- The flags after a decode error of any code (R330, R35). -/
theorem flags_afterError (s : State) (code : BitVec 4) : (afterError s code).cmdErr = false ∧
    (afterError s code).done = true ∧ (afterError s code).busy = false := by
  change (code ++ 0x6#4).getLsbD 3 = false ∧ (code ++ 0x6#4).getLsbD 1 = true ∧
    (code ++ 0x6#4).getLsbD 0 = false
  revert code
  decide

/-- Settles O6: the command of a legal word is not rejected, so it ends in success or in a decode error. -/
theorem legalWordsAreNotRejected : Obligations.LegalWordsAreNotRejected := by
  unfold Obligations.LegalWordsAreNotRejected
  intro w s rest h hb hs
  obtain ⟨i, hd, hl⟩ := decodeWord_of_legal h
  have hk : i.kind = .command := kind_of_encodeWord (encodeWord_of_decodeWord hd)
  rw [step_of_decodeWord_ok hs hb hd]
  obtain ⟨hl', -⟩ | ⟨r, -, -, -, he⟩ | ⟨e, -, -, -, he⟩ :=
    exec_command_cases hk { s with host := rest, cmd := w }
  · rw [hl] at hl'
    cases hl'
  · exact ⟨_, he, flags_afterSuccess _ r⟩
  · exact ⟨_, he, flags_afterError _ e.code⟩

end Sys2Proof.Machine

/-! PROOFS. The invariant of the machine: it holds at reset and every step keeps it. The input state and the results
are kept apart: only the host's writes change the one, only a command the other. -/

namespace Sys2Proof.Machine

/-! ## The input state (R31 to R33) -/

/-- What the invariant says of the input state. -/
structure Input.Legal (inp : Input) : Prop where
  memory : Memory.wf inp.epoch inp.mem
  cells : ∀ c ∈ inp.mem, ∃ k j, k < Config.maxSegs ∧ j < Config.maxSegBytes ∧ c.1 = byteAddress k j
  lengths : ∀ k, inp.len k ≤ Config.maxSegBytes
  absent : ∀ k, Config.maxSegs ≤ k → inp.len k = 0
  loaded : inp.nseg.toNat ≤ Config.maxSegs

/-- What the invariant says of the results (R35, R53, R57). -/
structure State.Settled (s : State) : Prop where
  status : s.status ∈ observableStatus
  cleared : s.status ≠ 0x02 → s.res = {}
  locals : s.loc = {}
  results : s.res.Shaped

theorem invariant_iff {s : State} : Invariant s ↔ s.inp.Legal ∧ s.Settled :=
  ⟨fun ⟨h1, h2, h3, h4, h5, h6, h7, h8, h9⟩ => ⟨⟨h1, h2, h3, h4, h5⟩, h6, h7, h8, h9⟩,
    fun ⟨⟨h1, h2, h3, h4, h5⟩, h6, h7, h8, h9⟩ => ⟨h1, h2, h3, h4, h5, h6, h7, h8, h9⟩⟩

/-- An input state without bytes, lengths and loaded buffers is legal, whatever the reset count. -/
theorem legal_of_empty {inp : Input} (hmem : inp.mem = []) (hlen : ∀ k, inp.len k = 0)
    (hnseg : inp.nseg = 0) : inp.Legal where
  memory := by rw [hmem]; exact ⟨List.Pairwise.nil, by simp⟩
  cells := by simp [hmem]
  lengths := fun k => by simp [hlen k]
  absent := fun k _ => hlen k
  loaded := by simp [hnseg]

/-- A write of a byte that the block has keeps the input state legal (R31). -/
theorem Input.Legal.writeSeg {s : State} (h : s.inp.Legal) {k : BitVec 8} {j : BitVec 29} (b : Byte)
    (hk : k.toNat < Config.maxSegs) (hj : j.toNat < Config.maxSegBytes) : (s.writeSeg k j b).inp.Legal where
  memory := Memory.wf_write h.memory _ _
  cells := fun c hc => by
    rcases Memory.mem_write hc with hc | ⟨rfl, -⟩
    · exact h.cells c hc
    · exact ⟨k.toNat, j.toNat, hk, hj, rfl⟩
  lengths := h.lengths
  absent := h.absent
  loaded := h.loaded

/-- A length after a write of a length: the written one, or the one before (R32). -/
theorem writeSegLen_len_cases (s : State) (k : BitVec 8) (v : BitVec 30) (k' : Nat) :
    (s.writeSegLen k v).inp.len k' = s.inp.len k' ∨
    (k' = k.toNat ∧ v.toNat ≤ Config.maxSegBytes ∧ (s.writeSegLen k v).inp.len k' = v.toNat) := by
  rcases Nat.lt_or_ge Config.maxSegBytes v.toNat with hv | hv
  · rw [writeSegLen_of_gt s k hv]
    exact .inl rfl
  · rw [writeSegLen_of_le s k hv]
    by_cases hk : k' = k.toNat
    · exact .inr ⟨hk, hv, hk ▸ len_set_same s.inp k v⟩
    · exact .inl (len_set_ne s.inp k v hk)

/-- A write of a length changes nothing but lengths. -/
theorem writeSegLen_frame (s : State) (k : BitVec 8) (v : BitVec 30) :
    s.writeSegLen k v = { s with inp := { s.inp with segLen := (s.writeSegLen k v).inp.segLen } } := by
  unfold State.writeSegLen
  split <;> rfl

/-- A write of a length that the block has keeps the input state legal (R32). -/
theorem Input.Legal.writeSegLen {s : State} (h : s.inp.Legal) {k : BitVec 8} (v : BitVec 30)
    (hk : k.toNat < Config.maxSegs) : (s.writeSegLen k v).inp.Legal where
  memory := by rw [writeSegLen_frame]; exact h.memory
  cells := by rw [writeSegLen_frame]; exact h.cells
  lengths := fun k' => by
    rcases writeSegLen_len_cases s k v k' with he | ⟨-, hv, he⟩
    · rw [he]; exact h.lengths k'
    · rw [he]; exact hv
  absent := fun k' hk' => by
    rcases writeSegLen_len_cases s k v k' with he | ⟨rfl, -⟩
    · rw [he]; exact h.absent k' hk'
    · omega
  loaded := by rw [writeSegLen_frame]; exact h.loaded

/-- A write of `NSEG` keeps the input state legal (R33). -/
theorem Input.Legal.writeNseg {s : State} (h : s.inp.Legal) (v : BitVec 9) : (s.writeNseg v).inp.Legal := by
  unfold State.writeNseg
  split
  · exact h
  · next hv => exact ⟨h.memory, h.cells, h.lengths, h.absent, Nat.le_of_not_lt hv⟩

/-- No offset of a buffer is above 2^32 (R95). -/
theorem Input.Legal.cap_le {inp : Input} (h : inp.Legal) (k : Nat) : inp.cap k ≤ 2 ^ 32 := by
  have hlen := h.lengths k
  have hmax := Config.maxSegBytes_le
  rw [inp.cap_eq_eight_mul_len]
  omega

/-! ## The results -/

/-- The reset values have their shape. -/
theorem resultsShaped_reset : ({} : Results).Shaped :=
  (fitsBuffer_of_cursor (cap := 0) (Nat.le_refl _) rfl).shaped (Nat.zero_le _)

/-- The input state has no part in the results. -/
theorem State.Settled.with_inp {s : State} (h : s.Settled) (inp : Input) :
    State.Settled { s with inp := inp } :=
  ⟨h.status, h.cleared, h.locals, h.results⟩

/-- A state with an empty input state and results at their reset values meets the invariant. -/
theorem invariant_of_empty {s : State} (hinp : s.inp.Legal) (hstatus : s.status = 0) (hres : s.res = {})
    (hloc : s.loc = {}) : Invariant s :=
  invariant_iff.mpr ⟨hinp, by rw [hstatus]; decide, fun _ => hres, hloc, by rw [hres]; exact resultsShaped_reset⟩

theorem settled_afterReject (s : State) : (afterReject s).Settled :=
  ⟨by simp [afterReject, observableStatus], fun _ => rfl, rfl, resultsShaped_reset⟩

theorem settled_afterSuccess {s : State} {r : Results} (h : r.Shaped) : (afterSuccess s r).Settled :=
  ⟨by simp [afterSuccess, observableStatus], fun hne => absurd rfl hne, rfl, h⟩

/-- The errors that an instruction can end with are the four that a host can observe (R324, R326). -/
theorem errorCodes_subset (i : Instr) : errorCodes i ⊆ [1, 2, 4, 6] := by
  cases i <;> simp [errorCodes]

theorem settled_afterError {s : State} {code : BitVec 4} (h : code ∈ [(1 : BitVec 4), 2, 4, 6]) :
    (afterError s code).Settled := by
  refine ⟨?_, fun _ => rfl, rfl, resultsShaped_reset⟩
  simp only [List.mem_cons, List.not_mem_nil, or_false] at h
  rcases h with rfl | rfl | rfl | rfl <;> simp [afterError, observableStatus]

/-- A command ends with its results settled (R53). -/
theorem exec_settled {i : Instr} {s t : State} (hk : i.kind = .command) (hs : s.inp.Legal)
    (h : exec i s = .next t) : t.Settled := by
  obtain ⟨-, he⟩ | ⟨r, hfits, -, -, he⟩ | ⟨e, hcode, -, -, he⟩ := exec_command_cases hk s <;>
    rw [he] at h <;> cases h
  · exact settled_afterReject s
  · exact settled_afterSuccess (hfits.shaped (hs.cap_le _))
  · exact settled_afterError (errorCodes_subset i hcode)

/-! ## The step -/

/-- Whatever stands in `CMD`, running it keeps the invariant: it reads the input state and settles the results. -/
theorem runCmd_keepsInvariant {s t : State} (hs : Invariant s) (h : s.runCmd = .next t) : Invariant t := by
  obtain ⟨hinp, -⟩ := invariant_iff.mp hs
  unfold State.runCmd at h
  cases hd : decodeWord s.cmd with
  | error e =>
    rw [hd] at h
    cases h
    exact invariant_iff.mpr ⟨hinp, settled_afterReject s⟩
  | ok i =>
    rw [hd] at h
    have hframe : t = { s with status := t.status, res := t.res, loc := t.loc } :=
      instructionsWriteOnlyResults i s t h
    have hk : i.kind = .command := kind_of_encodeWord (encodeWord_of_decodeWord hd)
    refine invariant_iff.mpr ⟨?_, exec_settled hk hinp h⟩
    rw [hframe]
    exact hinp

/-- The invariant does not speak of the command word, the queue of accesses and what the host reads. -/
theorem Invariant.congr {s t : State} (hs : Invariant s)
    (h : t = { s with cmd := t.cmd, host := t.host, readback := t.readback, busyReads := t.busyReads }) :
    Invariant t := by
  rw [h]
  exact ⟨hs.memory, hs.cells, hs.lengths, hs.absent, hs.loaded, hs.status, hs.cleared, hs.locals, hs.results⟩

/-- A read of the host keeps the invariant. -/
theorem hostRead_keepsInvariant {s t : State} {r : HostReg} (hs : Invariant s)
    (h : s.hostRead r = .next t) : Invariant t := by
  rcases hostRead_cases s r with ⟨-, he⟩ | ⟨-, he⟩ <;> rw [he] at h <;> cases h
  rcases readReg_state s r with hr | hr <;> rw [hr] <;> exact hs.congr rfl

/-- What a host write gives is what it does in a register that the block has (R52, R91). -/
theorem hostWrite_eq_next {s t : State} {present : Bool} {result : Host.Outcome State Fault Refusal}
    (h : s.hostWrite present result = .next t) : present = true ∧ result = .next t := by
  rcases hostWrite_cases s present result with ⟨-, he⟩ | ⟨-, hp, he⟩ | ⟨-, -, he⟩ <;> rw [he] at h
  · cases h
  · exact ⟨hp, h⟩
  · cases h

/-- Every access of the host keeps the invariant. -/
theorem hostAccess_keepsInvariant {s t : State} {a : HostAccess} (hs : Invariant s)
    (h : s.hostAccess a = .next t) : Invariant t := by
  obtain ⟨hinp, hres⟩ := invariant_iff.mp hs
  cases a with
  | writeSeg k j b =>
    obtain ⟨hp, h⟩ := hostWrite_eq_next h
    cases h
    simp only [byteExists, segExists, Bool.and_eq_true, decide_eq_true_eq] at hp
    exact invariant_iff.mpr ⟨hinp.writeSeg b hp.1 hp.2, hres.with_inp _⟩
  | writeSegLen k v =>
    obtain ⟨hp, h⟩ := hostWrite_eq_next h
    cases h
    refine invariant_iff.mpr ⟨hinp.writeSegLen v (of_decide_eq_true hp), ?_⟩
    rw [writeSegLen_frame]
    exact hres.with_inp _
  | writeNseg v =>
    obtain ⟨-, h⟩ := hostWrite_eq_next h
    cases h
    refine invariant_iff.mpr ⟨hinp.writeNseg v, ?_⟩
    unfold State.writeNseg
    split
    · exact hres
    · exact hres.with_inp _
  | writeCmd w =>
    obtain ⟨-, h⟩ := hostWrite_eq_next h
    exact runCmd_keepsInvariant (hs.congr rfl) h
  | writeStatus v =>
    cases h
    exact hs
  | writeResult r v =>
    rw [State.hostAccess] at h
    split at h <;> cases h
    exact hs
  | read r => exact hostRead_keepsInvariant hs h
  | reset =>
    cases h
    exact invariant_of_empty (legal_of_empty rfl reset_len rfl) rfl rfl rfl

/-- Settles O20: at reset there is no byte, no length and no result. -/
theorem invariantHoldsAtReset : Obligations.InvariantHoldsAtReset :=
  invariant_of_empty (legal_of_empty rfl reset_len rfl) rfl rfl rfl

/-- Settles O21: a step takes one access of the host, and each of the eight keeps the invariant. -/
theorem everyStepKeepsInvariant : Obligations.EveryStepKeepsInvariant := by
  unfold Obligations.EveryStepKeepsInvariant
  intro s t hs h
  cases hh : s.host with
  | nil =>
    rw [idleBlockHoldsItsState s hh] at h
    cases h
    exact hs
  | cons a rest =>
    rw [step_access hh] at h
    exact hostAccess_keepsInvariant (hs.congr rfl) h

end Sys2Proof.Machine

/-! PROOFS. What a command depends on. A buffer whose bits begin another buffer is decoded as the other one is, or its
decode stops for want of bits. From this: commands read only loaded bytes (R86), truncation raises
`InsufficientLength` (R322), and optional segments of different types commute (R247). -/

namespace Sys2Proof.Machine

open Sys2Proof.Format

/-! ## A decode that may stop for want of bits -/

/-- `a` ends as `b` does, or stops for want of bits: by `require`, or by a read outside its precondition. -/
def Dec.CutOf {α : Type} (a b : Dec α) : Prop :=
  a = b ∨ a = .error (.raised .insufficientLength) ∨ a = .error .undefinedRead

theorem Dec.CutOf.refl {α : Type} {a : Dec α} : a.CutOf a := .inl rfl

theorem Dec.CutOf.bind {α β : Type} {a b : Dec α} {f g : α → Dec β} (h : a.CutOf b)
    (hf : ∀ v, (f v).CutOf (g v)) : (a >>= f).CutOf (b >>= g) := by
  obtain rfl | rfl | rfl := h
  · cases a with
    | ok v => exact hf v
    | error e => exact .refl
  · exact .inr (.inl rfl)
  · exact .inr (.inr rfl)

theorem Dec.CutOf.map {α β : Type} {a b : Dec α} (f : α → β) (h : a.CutOf b) :
    Dec.CutOf (a.map f) (b.map f) := by
  obtain rfl | rfl | rfl := h
  · exact .refl
  · exact .inr (.inl rfl)
  · exact .inr (.inr rfl)

/-- A decode that does not stop is not cut. -/
theorem Dec.CutOf.ok {α : Type} {a b : Dec α} {v : α} (h : a.CutOf b) (ha : a = .ok v) : b = .ok v := by
  obtain rfl | rfl | rfl := h
  · exact ha
  · cases ha
  · cases ha

/-- Two decodes that cut each other are one, when no read is outside its precondition. -/
theorem Dec.CutOf.antisymm {α : Type} {a b : Dec α} (hab : a.CutOf b) (hba : b.CutOf a)
    (ha : a ≠ .error .undefinedRead) (hb : b ≠ .error .undefinedRead) : a = b := by
  obtain h | h | h := hab
  · exact h
  · obtain h' | h' | h' := hba
    · exact h'.symm
    · rw [h, h']
    · exact absurd h' hb
  · exact absurd h ha

theorem Dec.Ends.ne_undefinedRead {α : Type} {codes : List (BitVec 4)} {P : α → Prop} {a : Dec α}
    (h : a.Ends codes P) : a ≠ .error .undefinedRead := by
  obtain ⟨v, rfl, -⟩ | ⟨e, -, rfl⟩ := h <;> exact fun h => by cases h

/-! ## A buffer that begins another one -/

/-- The bits of buffer `k` of `x` are the first bits of buffer `k'` of `y`. -/
def Input.Begins (x : Input) (k : Nat) (y : Input) (k' : Nat) : Prop :=
  x.cap k ≤ y.cap k' ∧ ∀ b, b < x.cap k → x.wireBit k b = y.wireBit k' b

/-- A buffer begins another one when its bytes do. -/
theorem begins_of_bytes {x y : Input} {k k' : Nat} (hlen : x.len k ≤ y.len k')
    (hbytes : ∀ j, j < x.len k → x.byte k j = y.byte k' j) : x.Begins k y k' := by
  refine ⟨Nat.mul_le_mul_left 8 hlen, fun b hb => ?_⟩
  rw [x.cap_eq_eight_mul_len] at hb
  rw [Input.wireBit, Input.wireBit, hbytes (b / 8) (by omega)]

section Cuts

variable {x y : Input} {k k' : Nat} (h : x.Begins k y k')
include h

theorem require_cut (n : Nat) : (require x k n).CutOf (require y k' n) := by
  rcases require_cases x k n with ⟨hn, hx⟩ | ⟨-, hx⟩
  · rw [hx, require_pass (Nat.le_trans hn h.1)]
    exact .refl
  · exact .inr (.inl hx)

theorem readBit_cut (b : Nat) : (readBit x k b).CutOf (readBit y k' b) := by
  rcases Nat.lt_or_ge b (x.cap k) with hb | hb
  · rw [readBit_pass hb, readBit_pass (Nat.lt_of_lt_of_le hb h.1), h.2 b hb]
    exact .refl
  · exact .inr (.inr (if_neg (Nat.not_lt.mpr hb)))

theorem readBits_cut (s n : Nat) : (readBits x k s n).CutOf (readBits y k' s n) := by
  by_cases hx : n ≤ Config.readMax ∧ s + n ≤ x.cap k
  · obtain ⟨hn, hcap⟩ := hx
    rw [readBits_pass hn hcap, readBits_pass hn (Nat.le_trans hcap h.1),
      span_congr fun i hi => h.2 (s + i) (by omega)]
    exact .refl
  · exact .inr (.inr (if_neg hx))

/-! ### Fields -/

theorem flagLoop_cut (s n : Nat) : (flagLoop x k s n).CutOf (flagLoop y k' s n) := by
  induction n with
  | zero => exact .refl
  | succ n ih => exact ih.bind fun _ => (readBit_cut h _).bind fun _ => .refl

theorem flags_cut (s n : Nat) : (flags x k s n).CutOf (flags y k' s n) :=
  (require_cut h _).bind fun _ => (flagLoop_cut h s n).bind fun _ => .refl

theorem shortFlags_cut (s n : Nat) : (shortFlags x k s n).CutOf (shortFlags y k' s n) :=
  (flags_cut h s n).bind fun _ => .refl

theorem alpha_cut (s cnt w : Nat) : (alpha x k s cnt w).CutOf (alpha y k' s cnt w) := by
  induction cnt with
  | zero => exact .refl
  | succ cnt ih => exact ih.bind fun _ => (readBits_cut h _ _).bind fun _ => .refl

/-! ### Sections -/

theorem rangeEntries_cut (n p : Nat) (S : IdSet16) :
    (rangeEntries x k n p S).CutOf (rangeEntries y k' n p S) := by
  induction n generalizing p S with
  | zero => exact .refl
  | succ n ih =>
    refine (require_cut h _).bind fun _ => (readBit_cut h _).bind fun d => ?_
    split
    · exact (require_cut h _).bind fun _ => (readBits_cut h _ _).bind fun _ => ih _ _
    · exact (require_cut h _).bind fun _ => (readBits_cut h _ _).bind fun _ =>
        (readBits_cut h _ _).bind fun _ => ih _ _

theorem rangeSet_cut (s : Nat) : (rangeSet x k s).CutOf (rangeSet y k' s) :=
  (require_cut h _).bind fun _ => (readBits_cut h _ _).bind fun _ => rangeEntries_cut h _ _ _

theorem vendorSection_cut (s : Nat) : (vendorSection x k s).CutOf (vendorSection y k' s) := by
  refine (require_cut h _).bind fun _ => (readBits_cut h _ _).bind fun _ => (readBit_cut h _).bind fun _ => ?_
  split
  · exact (flags_cut h _ _).bind fun _ => .refl
  · exact (rangeSet_cut h _).bind fun _ => .refl

theorem prEntries_cut (n p : Nat) (L : List PrEntry) :
    (prEntries x k n p L).CutOf (prEntries y k' n p L) := by
  induction n generalizing p L with
  | zero => exact .refl
  | succ n ih =>
    exact (require_cut h _).bind fun _ => (readBits_cut h _ _).bind fun _ => (readBits_cut h _ _).bind fun _ =>
      ((rangeSet_cut h _).bind fun _ => .refl).bind fun _ => ih _ _

theorem pubRestrictions_cut (s : Nat) : (pubRestrictions x k s).CutOf (pubRestrictions y k' s) :=
  (require_cut h _).bind fun _ => (readBits_cut h _ _).bind fun _ => prEntries_cut h _ _ _

/-! ### Optional segments -/

theorem pubTc_cut : (pubTc x k).CutOf (pubTc y k') := by
  refine (require_cut h _).bind fun _ => (shortFlags_cut h _ _).bind fun _ =>
    (shortFlags_cut h _ _).bind fun _ => (readBits_cut h _ _).bind fun _ => ?_
  split
  · exact .refl
  · exact (require_cut h _).bind fun _ => (shortFlags_cut h _ _).bind fun _ =>
      (shortFlags_cut h _ _).bind fun _ => .refl

theorem segmentPayload_cut (tag : BitVec 3) : (segmentPayload x k tag).CutOf (segmentPayload y k' tag) := by
  unfold segmentPayload
  split
  · exact (vendorSection_cut h 3).map _
  · exact (vendorSection_cut h 3).map _
  · exact (pubTc_cut h).map _
  · exact .refl

theorem segment_cut : (segment x k).CutOf (segment y k') :=
  (require_cut h _).bind fun _ => (readBits_cut h _ _).bind fun _ => segmentPayload_cut h _

end Cuts

/-! ### Records -/

section RecordCuts

variable {x y : Input} (h : x.Begins 0 y 0)
include h

theorem versionField_cut : (versionField x).CutOf (versionField y) :=
  (require_cut h _).bind fun _ => readBits_cut h _ _

theorem flagField_cut (b : Nat) : (flagField x b).CutOf (flagField y b) :=
  (readBit_cut h b).map _

theorem lettersField_cut (b : Nat) : (lettersField x b).CutOf (lettersField y b) :=
  (alpha_cut h b 2 6).map _

theorem v1Vendors_cut (maxId : BitVec 16) : (v1Vendors x maxId).CutOf (v1Vendors y maxId) := by
  refine (readBit_cut h _).bind fun _ => ?_
  split
  · exact (flags_cut h _ _).bind fun _ => .refl
  · exact (require_cut h _).bind fun _ => (flagField_cut h _).bind fun _ =>
      (rangeSet_cut h _).bind fun _ => .refl

theorem v1Record_cut : (v1Record x).CutOf (v1Record y) :=
  (require_cut h _).bind fun _ => (readBits_cut h _ _).bind fun _ => (readBits_cut h _ _).bind fun _ =>
    (readBits_cut h _ _).bind fun _ => (readBits_cut h _ _).bind fun _ => (readBits_cut h _ _).bind fun _ =>
    (lettersField_cut h _).bind fun _ => (readBits_cut h _ _).bind fun _ =>
    (shortFlags_cut h _ _).bind fun _ => (readBits_cut h _ _).bind fun _ =>
    (v1Vendors_cut h _).bind fun _ => .refl

theorem v2Fixed_cut : (v2Fixed x).CutOf (v2Fixed y) :=
  (require_cut h _).bind fun _ => (readBits_cut h _ _).bind fun _ => (readBits_cut h _ _).bind fun _ =>
    (readBits_cut h _ _).bind fun _ => (readBits_cut h _ _).bind fun _ => (readBits_cut h _ _).bind fun _ =>
    (lettersField_cut h _).bind fun _ => (readBits_cut h _ _).bind fun _ => (readBits_cut h _ _).bind fun _ =>
    (flagField_cut h _).bind fun _ => (flagField_cut h _).bind fun _ => (shortFlags_cut h _ _).bind fun _ =>
    (shortFlags_cut h _ _).bind fun _ => (shortFlags_cut h _ _).bind fun _ => (flagField_cut h _).bind fun _ =>
    (lettersField_cut h _).bind fun _ => .refl

end RecordCuts

/-! ## Commands on inputs of which one is cut in one buffer -/

/-- `x` is `y` as the commands see them, but that buffer `k` may be cut short: the same `NSEG`, loaded buffers that
begin those of `y`, and the same lengths but for buffer `k`. -/
structure Input.Cuts (x y : Input) (k : Nat) : Prop where
  nseg : x.nseg = y.nseg
  begins : ∀ j, j < y.nseg.toNat → x.Begins j y j
  len : ∀ j, j < y.nseg.toNat → j ≠ k → x.len j = y.len j

theorem segLoaded_congr {x y : Input} (h : x.nseg = y.nseg) (seg : BitVec 8) :
    segLoaded x seg = segLoaded y seg := by
  rw [segLoaded, segLoaded, h]

/-- The operand tests read `NSEG` alone. -/
theorem commandLegal_congr {x y : Input} (h : x.nseg = y.nseg) (i : Instr) :
    commandLegal x i = commandLegal y i := by
  cases i with
  | reqb | rdfs | rdrs | rdvs | rdpr | rdseg => exact segLoaded_congr h _
  | rdb | rdf | rda => exact congrArg (_ && ·) (segLoaded_congr h _)
  | decv1 | decv2 | dec => exact congrArg (fun n => decide (0 < n.toNat)) h
  | _ => rfl

theorem noEmptySegment_congr {x y : Input} {n : Nat} (h : ∀ j, 1 ≤ j → j ≤ n → x.len j = y.len j) :
    noEmptySegment x n = noEmptySegment y n := by
  induction n with
  | zero => rfl
  | succ n ih =>
    rw [noEmptySegment, noEmptySegment, ih fun j h1 hj => h j h1 (by omega), h (n + 1) (by omega) (by omega)]

theorem mergeSegments_cut {x y : Input} {n : Nat} (h : ∀ j, 1 ≤ j → j ≤ n → x.Begins j y j) (r : Record) :
    (mergeSegments x n r).CutOf (mergeSegments y n r) := by
  induction n with
  | zero => exact .refl
  | succ n ih =>
    exact (ih fun j h1 hj => h j h1 (by omega)).bind fun _ =>
      (segment_cut (h (n + 1) (by omega) (by omega))).bind fun _ => .refl

theorem v2Record_cut {x y : Input} (h : x.Cuts y 0) (hpos : 0 < y.nseg.toNat) :
    (v2Record x).CutOf (v2Record y) := by
  have h0 := h.begins 0 hpos
  unfold v2Record
  rw [h.nseg, noEmptySegment_congr fun j h1 hj => h.len j (by omega) (by omega)]
  exact Dec.CutOf.refl.bind fun _ => (v2Fixed_cut h0).bind fun _ => (vendorSection_cut h0 _).bind fun _ =>
    (vendorSection_cut h0 _).bind fun _ => (pubRestrictions_cut h0 _).bind fun _ =>
    (mergeSegments_cut (fun j h1 hj => h.begins j (by omega)) _).bind fun _ => .refl

theorem decv1Body_cut {x y : Input} (h : x.Begins 0 y 0) : (decv1Body x).CutOf (decv1Body y) := by
  refine (versionField_cut h).bind fun _ => ?_
  split
  · exact v1Record_cut h
  · exact .refl

theorem decv2Body_cut {x y : Input} (h : x.Cuts y 0) (hpos : 0 < y.nseg.toNat) :
    (decv2Body x).CutOf (decv2Body y) := by
  refine (versionField_cut (h.begins 0 hpos)).bind fun _ => ?_
  split
  · exact v2Record_cut h hpos
  · exact .refl

theorem decBody_cut {x y : Input} (h : x.Cuts y 0) (hpos : 0 < y.nseg.toNat) :
    (decBody x).CutOf (decBody y) := by
  refine (versionField_cut (h.begins 0 hpos)).bind fun _ => ?_
  split
  · exact decv1Body_cut (h.begins 0 hpos)
  · split
    · exact decv2Body_cut h hpos
    · exact .refl

/-- The body of a legal command on a cut input ends as on the whole one, or stops for want of bits. -/
theorem commandBody_cut {i : Instr} {x y : Input} (hl : commandLegal y i = true)
    (h : x.Cuts y (cursorBuffer i)) : (commandBody x i).CutOf (commandBody y i) := by
  have seg {q : BitVec 8} (hq : segLoaded y q = true) : x.Begins q.toNat y q.toNat :=
    h.begins _ (of_decide_eq_true hq)
  have both {p q : Bool} (hpq : (p && q) = true) : q = true := (Bool.and_eq_true _ _ ▸ hpq).2
  cases i with
  | reqb => exact (require_cut (seg hl) _).bind fun _ => .refl
  | rdb | rdf =>
    exact (require_cut (seg (both hl)) _).bind fun _ => (readBits_cut (seg (both hl)) _ _).bind fun _ => .refl
  | rda =>
    exact (require_cut (seg (both hl)) _).bind fun _ => (alpha_cut (seg (both hl)) _ _ _).bind fun _ => .refl
  | rdfs => exact (flags_cut (seg hl) _ _).bind fun _ => .refl
  | rdrs => exact (rangeSet_cut (seg hl) _).bind fun _ => .refl
  | rdvs => exact (vendorSection_cut (seg hl) _).bind fun _ => .refl
  | rdpr => exact (pubRestrictions_cut (seg hl) _).bind fun _ => .refl
  | rdseg => exact (segment_cut (seg hl)).map _
  | decv1 => exact decv1Body_cut (h.begins 0 (of_decide_eq_true hl))
  | decv2 => exact decv2Body_cut h (of_decide_eq_true hl)
  | dec => exact decBody_cut h (of_decide_eq_true hl)
  | _ => exact .refl

/-! ## Loaded bytes (R86) -/

/-- Inputs that hold the same loaded bytes cut each other nowhere. -/
theorem cuts_of_sameLoaded {x y : Input} (h : x.sameLoaded y) (k : Nat) : x.Cuts y k ∧ y.Cuts x k := by
  obtain ⟨hn, hbuf⟩ := h
  refine ⟨⟨hn, fun j hj => ?_, fun j hj _ => ?_⟩, ⟨hn.symm, fun j hj => ?_, fun j hj _ => ?_⟩⟩
  · obtain ⟨hlen, hbytes⟩ := hbuf j (hn ▸ hj)
    exact begins_of_bytes (Nat.le_of_eq hlen) hbytes
  · exact (hbuf j (hn ▸ hj)).1
  · obtain ⟨hlen, hbytes⟩ := hbuf j hj
    exact begins_of_bytes (Nat.le_of_eq hlen.symm) fun i hi => (hbytes i (hlen ▸ hi)).symm
  · exact (hbuf j hj).1.symm

/-- A legal command has one body on inputs that hold the same loaded bytes. -/
theorem commandBody_congr {i : Instr} {x y : Input} (hk : i.kind = .command)
    (hl : commandLegal x i = true) (h : x.sameLoaded y) : commandBody x i = commandBody y i := by
  obtain ⟨hxy, hyx⟩ := cuts_of_sameLoaded h (cursorBuffer i)
  have hl' : commandLegal y i = true := commandLegal_congr h.1 i ▸ hl
  exact (commandBody_cut hl' hxy).antisymm (commandBody_cut hl hyx)
    (commandBody_ends hk hl).ne_undefinedRead (commandBody_ends hk hl').ne_undefinedRead

/-- Settles O26: the test and the body of the command are the same, so its end is. -/
theorem commandsReadOnlyLoadedBytes : Obligations.CommandsReadOnlyLoadedBytes := by
  unfold Obligations.CommandsReadOnlyLoadedBytes
  intro i s s' t hk hsame h
  have hlegal := commandLegal_congr hsame.1 i
  obtain ⟨hl, he⟩ | ⟨r, -, hl, hr, he⟩ | ⟨e, -, hl, hr, he⟩ := exec_command_cases hk s
  · rw [he] at h
    cases h
    exact ⟨_, exec_of_commandLegal_eq_false (hlegal ▸ hl), rfl, rfl⟩
  · rw [he] at h
    cases h
    exact ⟨_, exec_command_ok hk (hlegal ▸ hl) (commandBody_congr hk hl hsame ▸ hr), rfl, rfl⟩
  · rw [he] at h
    cases h
    exact ⟨_, exec_command_error hk (hlegal ▸ hl) (commandBody_congr hk hl hsame ▸ hr), rfl, rfl⟩

/-! ## Truncation (R322) -/

/-- An input cut short in one buffer is the whole one as the commands see it, but for that buffer. -/
theorem cuts_of_truncates {x y : Input} {k : Nat} (h : y.truncates x k) : x.Cuts y k := by
  obtain ⟨hn, hlen, hle, hbytes⟩ := h
  refine ⟨hn, fun j _ => begins_of_bytes ?_ fun i _ => hbytes j i, fun j _ hj => hlen j hj⟩
  by_cases hj : j = k
  · exact hj ▸ hle
  · exact Nat.le_of_eq (hlen j hj)

/-- No decode error has the `STATUS` of a success (R330, R331). -/
theorem afterError_status_ne (s : State) (code : BitVec 4) : (afterError s code).status ≠ 0x02 := by
  change code ++ 0x6#4 ≠ 0x02#8
  revert code
  decide

/-- A command that ends with `STATUS` = `DONE` has passed its test and answered its results. -/
theorem commandBody_of_success {i : Instr} {s t : State} (hk : i.kind = .command)
    (h : exec i s = .next t) (ht : t.status = 0x02) :
    commandLegal s.inp i = true ∧ commandBody s.inp i = .ok t.res := by
  obtain ⟨-, he⟩ | ⟨r, -, hl, hr, he⟩ | ⟨e, -, -, -, he⟩ := exec_command_cases hk s <;>
    rw [he] at h <;> cases h
  · exact absurd ht (by decide : (0x0A#8) ≠ 0x02)
  · exact ⟨hl, hr⟩
  · exact absurd ht (afterError_status_ne s e.code)

/-- Settles O27: on the cut input the body either answers the same results, whose cursor does not lie within the cut
buffer, or stops for want of bits, which is `InsufficientLength`. -/
theorem truncationRaisesInsufficientLength : Obligations.TruncationRaisesInsufficientLength := by
  unfold Obligations.TruncationRaisesInsufficientLength
  intro i s s' t hk h ht htrunc hcur
  obtain ⟨hl, hr⟩ := commandBody_of_success hk h ht
  have hcut := cuts_of_truncates htrunc
  have hl' : commandLegal s'.inp i = true := commandLegal_congr hcut.nseg i ▸ hl
  have hends := commandBody_ends hk hl'
  obtain he | he | he := commandBody_cut hl hcut
  · obtain ⟨r, hr', hfits⟩ | ⟨e, -, he'⟩ := hends
    · rw [he, hr] at hr'
      cases hr'
      exact absurd hfits.cur (Nat.not_le.mpr hcur)
    · rw [he, hr] at he'
      cases he'
  · exact exec_command_error (e := .insufficientLength) hk hl' he
  · exact absurd he hends.ne_undefinedRead

/-! ## The order of optional segments (R247) -/

/-- The tag of a decoded segment (R144). -/
def Segment.tag : Segment → BitVec 3
  | .disclosed _ => 1
  | .allowed _ => 2
  | .publisherTc _ => 3

/-- A mapped body succeeds exactly when the body does. -/
theorem Dec.map_eq_ok {α β : Type} {x : Dec α} {f : α → β} {b : β} :
    Except.map f x = .ok b ↔ ∃ a, x = .ok a ∧ f a = b := by
  cases x <;> simp

/-- A decoded segment has the tag that stands in its buffer. -/
theorem segment_tag {inp : Input} {k : Nat} {r : Segment} (h : segment inp k = .ok r) :
    inp.span k 0 3 = r.tag := by
  obtain ⟨-, -, h⟩ := Dec.bind_ok.mp h
  obtain ⟨t, ht, h⟩ := Dec.bind_ok.mp h
  obtain ⟨-, rfl⟩ := readBits_eq_ok.mp ht
  unfold segmentPayload at h
  split at h
  · next htag =>
    obtain ⟨v, -, rfl⟩ := Dec.map_eq_ok.mp h
    exact htag
  · next htag =>
    obtain ⟨v, -, rfl⟩ := Dec.map_eq_ok.mp h
    exact htag
  · next htag =>
    obtain ⟨t, -, rfl⟩ := Dec.map_eq_ok.mp h
    exact htag
  · cases h

/-- Segments of different tags write different registers (R246). -/
theorem merge_comm {a b : Segment} (h : a.tag ≠ b.tag) (r : Record) :
    merge b (merge a r) = merge a (merge b r) := by
  cases a <;> cases b
  case disclosed.disclosed | allowed.allowed | publisherTc.publisherTc => exact absurd rfl h
  all_goals rfl

/-- With buffers 1 and 2 in the other order, two segments of different tags are merged to the same record. -/
theorem mergeSegments_swap {x y : Input} (h12 : x.Begins 1 y 2) (h21 : x.Begins 2 y 1)
    (htag : x.bitSum 1 0 3 ≠ x.bitSum 2 0 3) {r0 r : Record} (h : mergeSegments x 2 r0 = .ok r) :
    mergeSegments y 2 r0 = .ok r := by
  obtain ⟨r1, h1, h⟩ := Dec.bind_ok.mp h
  obtain ⟨_, ⟨⟩, h1⟩ := Dec.bind_ok.mp h1
  obtain ⟨a, ha, ⟨⟩⟩ := Dec.bind_ok.mp h1
  obtain ⟨b, hb, ⟨⟩⟩ := Dec.bind_ok.mp h
  have hne : a.tag ≠ b.tag := by
    rw [← segment_tag ha, ← segment_tag hb]
    intro he
    exact htag (by rw [← span_toNat, ← span_toNat, he])
  rw [merge_comm hne]
  refine Dec.bind_ok.mpr ⟨merge b r0, ?_, Dec.bind_ok.mpr ⟨a, (segment_cut h12).ok ha, rfl⟩⟩
  exact Dec.bind_ok.mpr ⟨r0, rfl, Dec.bind_ok.mpr ⟨b, (segment_cut h21).ok hb, rfl⟩⟩

/-- The segments that are not empty in the one order are not in the other. -/
theorem noEmptySegment_swap {x y : Input} (h1 : x.len 1 = y.len 2) (h2 : x.len 2 = y.len 1)
    (h : noEmptySegment x 2 = .ok ()) : noEmptySegment y 2 = .ok () := by
  rcases noEmptySegment_cases x 2 with ⟨hx, -⟩ | ⟨-, he⟩
  · rcases noEmptySegment_cases y 2 with ⟨-, hy⟩ | ⟨⟨k, hk1, hk2, hk⟩, -⟩
    · exact hy
    · obtain rfl | rfl : k = 1 ∨ k = 2 := by omega
      · exact absurd (h2.trans hk) (hx 2 (by omega) (by omega))
      · exact absurd (h1.trans hk) (hx 1 (by omega) (by omega))
  · rw [h] at he
    cases he

/-- The V2 assembler gives the same results with two optional segments of different tags in the other order. -/
theorem v2Record_swap {x y : Input} (hn : x.nseg = 3) (h : x.swapsOptional y)
    (htag : x.bitSum 1 0 3 ≠ x.bitSum 2 0 3) {r : Results} (hr : v2Record x = .ok r) :
    v2Record y = .ok r := by
  obtain ⟨hnseg, hl0, hl1, hl2, hb0, hb1, hb2⟩ := h
  have h0 : x.Begins 0 y 0 := begins_of_bytes (Nat.le_of_eq hl0) hb0
  have h12 : x.Begins 1 y 2 := begins_of_bytes (Nat.le_of_eq hl1) hb1
  have h21 : x.Begins 2 y 1 := begins_of_bytes (Nat.le_of_eq hl2) hb2
  have hcount : y.nseg.toNat - 1 = 2 := by rw [← hnseg, hn]; rfl
  unfold v2Record at hr ⊢
  rw [hnseg, hcount] at hr
  rw [hcount]
  obtain ⟨_, hne, hr⟩ := Dec.bind_ok.mp hr
  obtain ⟨fixed, hfixed, hr⟩ := Dec.bind_ok.mp hr
  obtain ⟨consents, hconsents, hr⟩ := Dec.bind_ok.mp hr
  obtain ⟨li, hli, hr⟩ := Dec.bind_ok.mp hr
  obtain ⟨⟨L, next⟩, hL, hr⟩ := Dec.bind_ok.mp hr
  obtain ⟨record, hrecord, ⟨⟩⟩ := Dec.bind_ok.mp hr
  rw [noEmptySegment_swap hl1 hl2 hne, Dec.ok_bind, (v2Fixed_cut h0).ok hfixed, Dec.ok_bind,
    (vendorSection_cut h0 _).ok hconsents, Dec.ok_bind, (vendorSection_cut h0 _).ok hli, Dec.ok_bind,
    (pubRestrictions_cut h0 _).ok hL, Dec.ok_bind]
  exact Dec.bind_ok.mpr ⟨record, mergeSegments_swap h12 h21 htag hrecord, rfl⟩

/-- Settles O50: both states hold the same version field, and the V2 assembler gives the same results. -/
theorem differentSegmentsCommute : Obligations.DifferentSegmentsCommute := by
  unfold Obligations.DifferentSegmentsCommute
  intro s s' t hn hswap htag h ht
  obtain ⟨hl, hr⟩ := commandBody_of_success rfl h ht
  have hl' : commandLegal s'.inp .decv2 = true := commandLegal_congr hswap.1 .decv2 ▸ hl
  have h0 : s.inp.Begins 0 s'.inp 0 := begins_of_bytes (Nat.le_of_eq hswap.2.1) hswap.2.2.2.2.1
  obtain ⟨v, hv, hr⟩ := Dec.bind_ok.mp hr
  refine ⟨_, exec_command_ok rfl hl' (Dec.bind_ok.mpr ⟨v, (versionField_cut h0).ok hv, ?_⟩), rfl, rfl⟩
  split at hr
  · next hv2 => rw [if_pos hv2, v2Record_swap hn hswap htag hr]
  · cases hr

end Sys2Proof.Machine
